-- ==== Sys2Proof/Word.lean ====
section
/-! DEFINITION. The two data widths of the engine (spec/00_scope.md R5, R6): the 32-bit word and the byte. -/

namespace Sys2Proof

/-- A 32-bit word: a register, a word-port unit, a word or byte address (R5, R8). -/
abbrev Word := BitVec 32

/-- An 8-bit byte: a byte-port unit (R50). -/
abbrev Byte := BitVec 8

end Sys2Proof
end

