-- ==== Sys2Proof/Syntax.lean ====
section
/-! DEFINITION. The commands, one constructor per row of spec/opcode_table.json (spec/30_encoding.md R75), with the
operands of the assembler syntax (R79). -/

namespace Sys2Proof

/-- A command. `start`, `stop` and `bw` are the assembler's decimal operands (R79), 0 to 63 where the term is
well-formed; the range the command itself demands is checked when it executes (R73). -/
inductive Instr where
  /-- NOP (R175). -/
  | nop
  /-- INIT bw (R121). -/
  | init (bw : Nat)
  /-- EXTEND (R124). -/
  | extend
  /-- NEXT (R130). -/
  | next
  /-- FILL (R135). -/
  | fill
  /-- SLICE32 start, stop (R102). -/
  | slice32 (start stop : Nat)
  /-- SLICE8 start, stop (R103). -/
  | slice8 (start stop : Nat)
  /-- MERGE32 start, stop (R106). -/
  | merge32 (start stop : Nat)
  /-- MERGE8 start, stop (R107). -/
  | merge8 (start stop : Nat)
  /-- EXTRACT32 start, stop (R155). -/
  | extract32 (start stop : Nat)
  /-- EXTRACT8 start, stop (R156). -/
  | extract8 (start stop : Nat)
  /-- INSERT32 start, stop (R160). -/
  | insert32 (start stop : Nat)
  /-- INSERT8 start, stop (R161). -/
  | insert8 (start stop : Nat)
  /-- RESET (R176). -/
  | reset
  deriving DecidableEq, Repr

end Sys2Proof
end

