-- ==== Sys2Proof/WellFormed.lean ====
section
/-! DEFINITION. Well-formed commands: every operand fits its six-bit field (spec/30_encoding.md R73, R79). -/

namespace Sys2Proof

/-- The operand fits a six-bit field (R79: "any field value that fits the field"). -/
abbrev fitsField (n : Nat) : Prop := n < 64

/-- A command the assembler accepts (R79). It says nothing about the range the command checks itself (R73). -/
abbrev Instr.wellFormed : Instr → Prop
  | .nop => True
  | .init bw => fitsField bw
  | .extend => True
  | .next => True
  | .fill => True
  | .slice32 start stop => fitsField start ∧ fitsField stop
  | .slice8 start stop => fitsField start ∧ fitsField stop
  | .merge32 start stop => fitsField start ∧ fitsField stop
  | .merge8 start stop => fitsField start ∧ fitsField stop
  | .extract32 start stop => fitsField start ∧ fitsField stop
  | .extract8 start stop => fitsField start ∧ fitsField stop
  | .insert32 start stop => fitsField start ∧ fitsField stop
  | .insert8 start stop => fitsField start ∧ fitsField stop
  | .reset => True

end Sys2Proof
end

