-- ==== Sys2Proof/Decode.lean ====
section
/-! DEFINITION. The decoder of spec/30_encoding.md R77, total on every 32-bit word, and after it the encoder of R70
and R75. -/

namespace Sys2Proof

/-- `cmd[31:28]` (R70). -/
def fieldOpc (cmd : Word) : Nat := (cmd.extractLsb' 28 4).toNat
/-- `cmd[27:26]` (R70). -/
def fieldEwc (cmd : Word) : Nat := (cmd.extractLsb' 26 2).toNat
/-- `cmd[25:20]` (R70, R73). -/
def fieldStart (cmd : Word) : Nat := (cmd.extractLsb' 20 6).toNat
/-- `cmd[19:14]` (R70, R73). -/
def fieldStop (cmd : Word) : Nat := (cmd.extractLsb' 14 6).toNat
/-- `cmd[13:0]` (R70). -/
def fieldZ (cmd : Word) : Nat := (cmd.extractLsb' 0 14).toNat

/-- A command without fields: `EWC`, `START` and `STOP` must be zero (R74). -/
def decodePlain (i : Instr) (ewc start stop : Nat) : Option Instr :=
  if ewc = 0 ∧ start = 0 ∧ stop = 0 then some i else none

/-- A command with two width variants: `EWC` 0b00 is 32 bits, 0b01 is 8 bits, the others are illegal (R72). -/
def decodeByWidth (i32 i8 : Instr) (ewc : Nat) : Option Instr :=
  if ewc = 0 then some i32 else if ewc = 1 then some i8 else none

/-- The rows of R77, on the fields of a word with `Z = 0`. -/
def decodeFields (opc ewc s t : Nat) : Option Instr :=
  match opc with
  | 0x0 => decodePlain .nop ewc s t
  | 0x1 => if ewc = 0 ∧ s = 0 then some (.init t) else none
  | 0x2 => decodePlain .extend ewc s t
  | 0x3 => decodePlain .next ewc s t
  | 0x4 => decodePlain .fill ewc s t
  | 0x5 => decodeByWidth (.slice32 s t) (.slice8 s t) ewc
  | 0x6 => decodeByWidth (.merge32 s t) (.merge8 s t) ewc
  | 0x7 => decodeByWidth (.extract32 s t) (.extract8 s t) ewc
  | 0x8 => decodeByWidth (.insert32 s t) (.insert8 s t) ewc
  | 0xF => decodePlain .reset ewc s t
  | _ => none

/-- R77. `none` is Illegal (R76). -/
def decode (cmd : Word) : Option Instr :=
  if fieldZ cmd = 0 then decodeFields (fieldOpc cmd) (fieldEwc cmd) (fieldStart cmd) (fieldStop cmd) else none

/-- The instruction that the decoder reads from a command whose bits are `w`, numbered as the opcode table numbers
them; a command is one 32-bit word, written whole (R70). -/
def decodeTableWord (nbits w : Nat) : Option Instr :=
  decode ((BitVec.ofNat nbits w).setWidth 32)

/-- The command word of format F0 with these fields and `Z = 0` (R70). -/
def packFields (opc ewc start stop : Nat) : Word :=
  BitVec.ofNat 4 opc ++ BitVec.ofNat 2 ewc ++ BitVec.ofNat 6 start ++ BitVec.ofNat 6 stop ++ BitVec.ofNat 14 0

/-- The command word of an instruction (R75, R79). -/
def encode : Instr → Word
  | .nop => packFields 0x0 0 0 0
  | .init bw => packFields 0x1 0 0 bw
  | .extend => packFields 0x2 0 0 0
  | .next => packFields 0x3 0 0 0
  | .fill => packFields 0x4 0 0 0
  | .slice32 start stop => packFields 0x5 0 start stop
  | .slice8 start stop => packFields 0x5 1 start stop
  | .merge32 start stop => packFields 0x6 0 start stop
  | .merge8 start stop => packFields 0x6 1 start stop
  | .extract32 start stop => packFields 0x7 0 start stop
  | .extract8 start stop => packFields 0x7 1 start stop
  | .insert32 start stop => packFields 0x8 0 start stop
  | .insert8 start stop => packFields 0x8 1 start stop
  | .reset => packFields 0xF 0 0 0

/-- The operands of an assembler line: `start, stop` in decimal (R79). -/
def textRange (mnemonic : String) (start stop : Nat) : String :=
  mnemonic ++ " " ++ toString start ++ ", " ++ toString stop

/-- The assembler text of a command, whose word is `encode` of it (R79). -/
def asmText : Instr → String
  | .nop => "NOP"
  | .init bw => "INIT " ++ toString bw
  | .extend => "EXTEND"
  | .next => "NEXT"
  | .fill => "FILL"
  | .slice32 start stop => textRange "SLICE32" start stop
  | .slice8 start stop => textRange "SLICE8" start stop
  | .merge32 start stop => textRange "MERGE32" start stop
  | .merge8 start stop => textRange "MERGE8" start stop
  | .extract32 start stop => textRange "EXTRACT32" start stop
  | .extract8 start stop => textRange "EXTRACT8" start stop
  | .insert32 start stop => textRange "INSERT32" start stop
  | .insert8 start stop => textRange "INSERT8" start stop
  | .reset => "RESET"

end Sys2Proof
end

