-- ==== Sys2Proof/Config.lean ====
section
/-! DEFINITION. The platform's open parameters (spec/93_implementation_defined.md I17-I19) as plain data, and the
free values of I3. What the parameters mean is said by the operations of Machine/Ops.lean. -/

namespace Sys2Proof.Config

/-- The two ports through which memory is reached (R50). -/
inductive Port where
  | word
  | byte
  deriving DecidableEq, Repr

/-- The `kind` of a memory request (R56). -/
inductive AccessKind where
  | read
  | write
  deriving DecidableEq, Repr

/-- A range of addresses, first and last included, for which the platform does not answer one kind of request on
one port: MEM_ADMIT is false there (R56, I18). -/
structure Hole where
  port : Port
  kind : AccessKind
  first : Nat
  last : Nat
  deriving DecidableEq, Repr

/-- One run of PORT_ALIAS (R55, I19): for every `i < count`, byte address `byte0 + 4 * i` names the bits
`8 * lane + 7 .. 8 * lane` of word `word0 + i`. Four runs give a little-endian or a big-endian window, runs of
`count = 1` any other relation. -/
structure AliasRun where
  byte0 : Nat
  word0 : Nat
  count : Nat
  lane : Fin 4
  deriving DecidableEq, Repr

/-- The parameters a platform fixes: REG_BASE (I17), MEM_ADMIT (I18, as the requests it does NOT admit) and
PORT_ALIAS (I19, where the first run that names a byte counts). No step changes them. -/
structure Platform where
  regBase : Nat
  holes : List Hole
  aliasRuns : List AliasRun
  deriving DecidableEq, Repr

/-- DESIGN CHOICE (log 3, 4, 6; unsafe): the platform of `State.reset`. It sees the block at 0, answers every
request, and its two ports share nothing. -/
def Platform.plain : Platform := { regBase := 0, holes := [], aliasRuns := [] }

/-- A FREE VALUE (I3, log 5): the n-th byte that an 8-bit pass reads from a byte address which aliases its buffer. -/
opaque freeByte : Nat → BitVec 8

/-- A FREE VALUE (I3, log 5): the n-th word that an 8-bit pass reads from a buffer word which aliases a matrix byte
it has written. -/
opaque freeWord : Nat → BitVec 32

end Sys2Proof.Config
end

