-- ==== Sys2Proof/Machine/State.lean ====
section
/-! DEFINITION. The state of the machine: the engine's registers (spec/10_state.md), the two memories
(spec/20_memory.md), the platform's parameters, and the host's side of the interleaving (R15). -/

namespace Sys2Proof.Machine

open Sys2Proof.Config

/-- The buffer descriptor and cursor (R20). -/
structure Descriptor where
  base : Word
  cap : Word
  wc : Word
  bo : BitVec 5
  bw : BitVec 6
  deriving DecidableEq, Repr

/-- The argument registers ARG0 to ARG6 (R24, R25). -/
structure Args where
  arg0 : Word
  arg1 : Word
  arg2 : Word
  arg3 : Word
  arg4 : Word
  arg5 : Word
  arg6 : Word
  deriving DecidableEq, Repr

/-- The stored fields of STATUS (R26); EXH is computed from the cursor and stored nowhere. -/
structure StatusBits where
  busy : Bool
  fault : Bool
  ovr : Bool
  fcode : BitVec 4
  deriving DecidableEq, Repr

/-- `P_OP` (R28). -/
inductive PassOp where
  | extract
  | insert
  deriving DecidableEq, Repr

/-- The element widths 32 and 8 (R6), as `P_EW` holds them (R28). -/
inductive ElemWidth where
  | w32
  | w8
  deriving DecidableEq, Repr

/-- The hidden pass sequencer (R28); `count` and `k` are unbounded naturals there. -/
structure Sequencer where
  op : PassOp
  ew : ElemWidth
  start : BitVec 6
  stop : BitVec 6
  mbase : Word
  count : Nat
  fill : Word
  k : Nat
  deriving DecidableEq, Repr

/-- Physical memory: address and byte pairs in one canonical form (see `Memory.wf` in Machine/Ops.lean). Which cells
a port's unit occupies is said by `wordCell` and `byteCell` there. -/
abbrev Memory := List Host.Cell

/-- One host step (R80). Addresses of the register block are platform addresses, the block standing at REG_BASE (R24).
DESIGN CHOICE (log 22; unsafe): the spec leaves the host's access widths to the memories to the platform (R57); a host
access here, of which R80 gives the two writes, is one word on the word port or one byte on the byte port. -/
inductive HostStep where
  /-- A write of `nbytes` bytes to the register block; `wr REG, v` is the aligned 4-byte one. -/
  | regWrite (addr nbytes : Nat) (v : Word)
  /-- A read of `nbytes` bytes from the register block; `rd REG` is the aligned 4-byte one. -/
  | regRead (addr nbytes : Nat)
  /-- `mw32 a, v`. -/
  | memWrite32 (a v : Word)
  /-- `mw8 a, v`. -/
  | memWrite8 (a : Word) (v : Byte)
  /-- A host read of one word (R61, R65; the width is log 22's). -/
  | memRead32 (a : Word)
  /-- A host read of one byte (R61, R65; the width is log 22's). -/
  | memRead8 (a : Word)
  /-- `poll`: read STATUS until BUSY = 0. -/
  | poll
  deriving DecidableEq, Repr

/-- Whose turn a step is (R15): the host's, the engine's, or a hardware reset (R200). -/
inductive Turn where
  | host
  | engine
  | hardReset
  deriving DecidableEq, Repr

/-- The state of the machine. -/
structure State where
  /-- BASE, CAP, WC, BO, BW. -/
  buf : Descriptor
  /-- ARG0 to ARG6. -/
  args : Args
  /-- RESULT. -/
  result : Word
  /-- BUSY, FAULT, OVR, FCODE. -/
  status : StatusBits
  /-- The pass sequencer. -/
  pass : Sequencer
  /-- The memory behind both ports. -/
  mem : Memory
  /-- REG_BASE, MEM_ADMIT, PORT_ALIAS: fixed for the machine. -/
  platform : Platform
  /-- The model's own: the host steps still to be taken (log 1). -/
  program : List HostStep
  /-- The model's own: whose turn comes next; empty, the fair rule of `fairTurn` decides (log 1, 2). -/
  schedule : List Turn
  /-- The model's own: what the host's reads returned, newest first (log 15). -/
  observed : List Word
  /-- The model's own: how many free values have been drawn (log 5). -/
  freeCount : Nat
  deriving DecidableEq, Repr

/-- Why a step can stop. -/
inductive Fault where
  /-- The platform does not admit the request (R56, I4): the agent that makes it has no enabled step and is stuck.
  Raised by every command and micro-step that accesses memory and by the host's own memory accesses. Safe: the
  machine stops where the spec gives no step. -/
  | notAdmitted (port : Port) (addr : Word) (kind : AccessKind)
  deriving DecidableEq, Repr

/-- Why a host step has no meaning. -/
inductive Refusal where
  /-- An instruction that has no meaning yet; raised by no arm of this model. Safe. -/
  | notModelled (mnemonic : String)
  /-- A host access that is not an aligned 32-bit access of a register of the block (R24, I9: "refuse"). Raised by
  the host's register reads and writes. Safe. -/
  | registerAccess (addr nbytes : Nat)
  deriving DecidableEq, Repr

/-- The descriptor after reset (R30). -/
def Descriptor.reset : Descriptor := { base := 0#32, cap := 0#32, wc := 0#32, bo := 0#5, bw := 32#6 }

/-- The argument registers after hardware reset (R30). -/
def Args.reset : Args :=
  { arg0 := 0#32, arg1 := 0#32, arg2 := 0#32, arg3 := 0#32, arg4 := 0#32, arg5 := 0#32, arg6 := 0#32 }

/-- The stored STATUS fields after reset (R30). -/
def StatusBits.reset : StatusBits := { busy := false, fault := false, ovr := false, fcode := 0#4 }

/-- DESIGN CHOICE (log 8; unsafe): the spec leaves the sequencer's reset values unspecified (R28, I2). -/
def Sequencer.reset : Sequencer :=
  { op := .extract, ew := .w32, start := 0#6, stop := 0#6, mbase := 0#32, count := 0, fill := 0#32, k := 0 }

/-- The machine right after power-on and hardware reset on a given platform (R30, R200), with no host program and
no memory cell listed (log 7). -/
def State.resetOn (p : Platform) : State :=
  { buf := Descriptor.reset, args := Args.reset, result := 0#32, status := StatusBits.reset, pass := Sequencer.reset,
    mem := [], platform := p, program := [], schedule := [], observed := [], freeCount := 0 }

/-- The machine right after reset, on the platform of log 3, 4 and 6. -/
def State.reset : State := State.resetOn Platform.plain

end Sys2Proof.Machine
end

