-- ==== Sys2Proof/Machine/Ops.lean ====
section
/-! DEFINITION. The named operations over memory and registers (spec/20_memory.md), the result of an atomic engine
step, taking a fault and leaving the fault state (spec/60_exceptions.md), and the acceptance of a command
(spec/43_control.md R170, R171). -/

namespace Sys2Proof.Machine

open Sys2Proof.Config

/-! ### Memory as plain data -/

/-- What an unlisted cell reads as. DESIGN CHOICE (log 7; unsafe): the spec leaves power-on content open (I1). -/
def unlisted : Byte := 0#8

/-- One past the last cell: the word port's `4 * 2^32` lanes and the byte port's `2^32` own bytes (R50, log 9). -/
def cellLimit : Nat := 4 * 2 ^ 32 + 2 ^ 32

/-- The canonical form: cells of the address space, strictly rising, none equal to what an unlisted cell reads as. -/
def Memory.wf : Memory → Bool
  | [] => true
  | (k, v) :: m =>
    decide (k < cellLimit) && decide (v ≠ unlisted) && m.all (fun c => decide (k < c.1)) && Memory.wf m

/-- The byte in a cell. -/
def Memory.get : Memory → Nat → Byte
  | [], _ => unlisted
  | (k, v) :: m, a => if a = k then v else Memory.get m a

/-- The memory with one cell changed, in canonical form. -/
def Memory.set : Memory → Nat → Byte → Memory
  | [], a, v => if v = unlisted then [] else [(a, v)]
  | (k, w) :: m, a, v =>
    if a < k then (if v = unlisted then (k, w) :: m else (a, v) :: (k, w) :: m)
    else if a = k then (if v = unlisted then m else (a, v) :: m)
    else (k, w) :: Memory.set m a v

/-! ### Which cells a port's unit occupies -/

/-- The cell of lane `l` (bits `8 * l + 7 .. 8 * l`) of word address `a` (log 9). -/
def wordCell (a : Word) (l : Nat) : Nat := 4 * a.toNat + l

/-- The word that byte address `a` names a lane of, in this run, if any (R55). -/
def runWord (r : AliasRun) (a : Word) : Option Word :=
  if r.byte0 ≤ a.toNat ∧ (a.toNat - r.byte0) % 4 = 0 ∧ (a.toNat - r.byte0) / 4 < r.count then
    some (BitVec.ofNat 32 (r.word0 + (a.toNat - r.byte0) / 4))
  else none

/-- PORT_ALIAS (R55, I19): the word and lane that byte address `a` names, if it names one; the first run counts. -/
def aliasOf : List AliasRun → Word → Option (Word × Fin 4)
  | [], _ => none
  | r :: rs, a =>
    match runWord r a with
    | some w => some (w, r.lane)
    | none => aliasOf rs a

/-- The cell of byte address `a`: the aliased lane, or a cell of the byte port's own (log 9). -/
def byteCell (p : Platform) (a : Word) : Nat :=
  match aliasOf p.aliasRuns a with
  | some (w, l) => wordCell w l
  | none => 4 * 2 ^ 32 + a.toNat

/-- Lane `l` of a word. -/
def lane (v : Word) (l : Nat) : Byte := v.extractLsb' (8 * l) 8

/-- The word in the memory at word address `a`. -/
def Memory.getWord (m : Memory) (a : Word) : Word :=
  m.get (wordCell a 3) ++ m.get (wordCell a 2) ++ m.get (wordCell a 1) ++ m.get (wordCell a 0)

/-- The memory with the word at word address `a` changed. -/
def Memory.setWord (m : Memory) (a v : Word) : Memory :=
  (((m.set (wordCell a 0) (lane v 0)).set (wordCell a 1) (lane v 1)).set (wordCell a 2) (lane v 2)).set
    (wordCell a 3) (lane v 3)

/-- The word at word address `a`, whether or not the platform would answer. -/
def State.wordAt (s : State) (a : Word) : Word := s.mem.getWord a

/-- The byte at byte address `a`, whether or not the platform would answer. -/
def State.byteAt (s : State) (a : Word) : Byte := s.mem.get (byteCell s.platform a)

/-! ### The result of an atomic engine step (R13, R56) -/

/-- The four faults of the engine (R180). -/
inductive EngineFault where
  | invalidRange
  | bufferOverflow
  | nonZeroCollision
  | illegalCommand
  deriving DecidableEq, Repr

/-- The code written to FCODE (R180). -/
def EngineFault.code : EngineFault → BitVec 4
  | .invalidRange => 1#4
  | .bufferOverflow => 2#4
  | .nonZeroCollision => 3#4
  | .illegalCommand => 4#4

/-- What part of an atomic step answers: it goes on, it raises a fault (R13), or it makes a request the platform does
not admit, so that the step does not occur (R56). Nothing is written before the whole step is known to go on. -/
inductive Act (α : Type) where
  | ok (a : α)
  | raise (f : EngineFault)
  | stuck (port : Port) (addr : Word) (kind : AccessKind)
  deriving DecidableEq, Repr

/-- Go on with what the first part answers. -/
def Act.bind {α β : Type} : Act α → (α → Act β) → Act β
  | .ok a, k => k a
  | .raise f, _ => .raise f
  | .stuck p a d, _ => .stuck p a d

/-! ### Named changes of the state -/

/-- The memory changed. -/
def State.setMem (s : State) (m : Memory) : State := { s with mem := m }

/-- The descriptor changed as a whole (R121). -/
def State.setBuf (s : State) (d : Descriptor) : State := { s with buf := d }

/-- The cursor registers changed (R20, R126). -/
def State.setCursor (s : State) (wc bo : Nat) : State :=
  { s with buf := { s.buf with wc := BitVec.ofNat 32 wc, bo := BitVec.ofNat 5 bo } }

/-- RESULT changed (R25). -/
def State.setResult (s : State) (v : Word) : State := { s with result := v }

/-- The argument registers changed, by the host only (R25). -/
def State.setArgs (s : State) (a : Args) : State := { s with args := a }

/-- The count of free values drawn changed (log 5). -/
def State.setFreeCount (s : State) (n : Nat) : State := { s with freeCount := n }

/-! ### The memory ports (R12, R50, R56) -/

/-- MEM_ADMIT (R56, I18). -/
def admits (p : Platform) (port : Port) (a : Word) (kind : AccessKind) : Bool :=
  !(p.holes.any fun h =>
    decide (h.port = port ∧ h.kind = kind ∧ h.first ≤ a.toNat ∧ a.toNat ≤ h.last))

/-- `MemRead(a, 32)`. -/
def memRead32 (s : State) (a : Word) : Act Word :=
  if admits s.platform .word a .read then .ok (s.wordAt a) else .stuck .word a .read

/-- `MemWrite(a, 32, v)`. -/
def memWrite32 (s : State) (a v : Word) : Act State :=
  if admits s.platform .word a .write then .ok (s.setMem (s.mem.setWord a v)) else .stuck .word a .write

/-- `MemRead(a, 8)`. -/
def memRead8 (s : State) (a : Word) : Act Byte :=
  if admits s.platform .byte a .read then .ok (s.byteAt a) else .stuck .byte a .read

/-- `MemWrite(a, 8, v)`. -/
def memWrite8 (s : State) (a : Word) (v : Byte) : Act State :=
  if admits s.platform .byte a .write then .ok (s.setMem (s.mem.set (byteCell s.platform a) v))
  else .stuck .byte a .write

/-! ### Buffer words and matrix elements -/

/-- The word address of buffer word `i` (R52). -/
def State.bufAddr (s : State) (i : Nat) : Word := s.buf.base + BitVec.ofNat 32 i

/-- The address of matrix element `k` of the running pass, on its port (R53). -/
def State.elemAddr (s : State) (k : Nat) : Word := s.pass.mbase + BitVec.ofNat 32 k

/-- Byte address `a` aliases a buffer word (R210). -/
def State.byteAliasesBuffer (s : State) (a : Word) : Bool :=
  match aliasOf s.platform.aliasRuns a with
  | some (w, _) => decide ((w - s.buf.base).toNat < s.buf.cap.toNat)
  | none => false

/-- The byte address at which a run could name word address `w`. -/
def runByte (r : AliasRun) (w : Word) : Word :=
  BitVec.ofNat 32 (r.byte0 + 4 * ((w.toNat + 2 ^ 32 - r.word0 % 2 ^ 32) % 2 ^ 32))

/-- Word address `w` aliases a matrix byte that the running 8-bit insert has written: one of the elements below `K`
(R210, I3; DEDUCED, log 5). -/
def State.wordAliasesWritten (s : State) (w : Word) : Bool :=
  s.platform.aliasRuns.any fun r =>
    decide ((runByte r w - s.pass.mbase).toNat < s.pass.k) &&
      match aliasOf s.platform.aliasRuns (runByte r w) with
      | some (w', _) => decide (w' = w)
      | none => false

/-- A buffer word as NEXT_core reads it. In an 8-bit insert pass a word that aliases a written matrix byte reads as
any value (R210, I3): a free value. -/
def readBuffer (s : State) (a : Word) : Act (Word × State) :=
  (memRead32 s a).bind fun v =>
    if s.status.busy ∧ s.pass.op = .insert ∧ s.pass.ew = .w8 ∧ s.wordAliasesWritten a then
      .ok (freeWord s.freeCount, s.setFreeCount (s.freeCount + 1))
    else .ok (v, s)

/-- A matrix element as a micro-step reads it, `MemRead(a, P_EW)` zero-extended (R153, R157). A byte that aliases the
buffer of an 8-bit pass reads as any value (R210, I3): a free value. -/
def readElement (s : State) (a : Word) : Act (Word × State) :=
  match s.pass.ew with
  | .w32 => (memRead32 s a).bind fun v => .ok (v, s)
  | .w8 => (memRead8 s a).bind fun v =>
      if s.byteAliasesBuffer a then
        .ok ((freeByte s.freeCount).setWidth 32, s.setFreeCount (s.freeCount + 1))
      else .ok (v.setWidth 32, s)

/-- `MemWrite(a, P_EW, v)` (R157). -/
def writeElement (s : State) (a v : Word) : Act State :=
  match s.pass.ew with
  | .w32 => memWrite32 s a v
  | .w8 => memWrite8 s a (v.setWidth 8)

/-! ### Taking a fault, and leaving the fault state -/

/-- Fault entry (R186): FAULT, FCODE, and BUSY cleared; nothing else of the step is written (R188). -/
def State.takeFault (s : State) (f : EngineFault) : State :=
  { s with status := { s.status with fault := true, fcode := f.code, busy := false } }

/-- Fault entry from a micro-step, which also records an index in RESULT (R187). -/
def State.takePassFault (s : State) (f : EngineFault) (index : Nat) : State :=
  (s.takeFault f).setResult (BitVec.ofNat 32 index)

/-- The RESET command (R176, R30): the only command that leaves the fault state (R189). ARGs, memory and the
sequencer's registers keep their values (log 8). -/
def State.softReset (s : State) : State :=
  { s with buf := Descriptor.reset, result := 0#32, status := StatusBits.reset }

/-- Hardware reset (R30, R200): as the RESET command, and ARG0 to ARG6 become 0. -/
def State.hardReset (s : State) : State := s.softReset.setArgs Args.reset

/-! ### Accepting and finishing a command -/

/-- A command written while busy or faulted is dropped: only OVR is set (R171). -/
def State.drop (s : State) : State := { s with status := { s.status with ovr := true } }

/-- The acceptance test of R170, for every command but RESET. -/
def whenAccepted (s : State) (run : Host.Outcome State Fault Refusal) : Host.Outcome State Fault Refusal :=
  if s.status.busy || s.status.fault then .next s.drop else run

/-- The end of a single-step command or of a pass's first part in state `s` (R13, R56, R186). -/
def settle (s : State) : Act State → Host.Outcome State Fault Refusal
  | .ok t => .next t
  | .raise f => .next (s.takeFault f)
  | .stuck p a k => .fault (.notAdmitted p a k)

/-- The end of a micro-step, whose fault records `index` (R187). -/
def settlePass (s : State) (index : Nat) : Act State → Host.Outcome State Fault Refusal
  | .ok t => .next t
  | .raise f => .next (s.takePassFault f index)
  | .stuck p a k => .fault (.notAdmitted p a k)

end Sys2Proof.Machine
end

