-- ==== Sys2Proof/Machine/Control.lean ====
section
/-! DEFINITION. NOP and RESET (spec/43_control.md). -/

namespace Sys2Proof.Machine

/-- NOP (R175). -/
def execNop (s : State) : Host.Outcome State Fault Refusal := whenAccepted s (.next s)

/-- RESET (R176): accepted in every state. -/
def execReset (s : State) : Host.Outcome State Fault Refusal := .next s.softReset

end Sys2Proof.Machine
end

