-- ==== Sys2Proof/Machine/Operands.lean ====
section
/-! DEFINITION. Operand values: the datapath functions (spec/40_slice_merge.md R101, R105), the checked bit range
(spec/60_exceptions.md R181), and the counts of spec/42_matrix_pass.md R152. -/

namespace Sys2Proof.Machine

/-- `mask(n)` (R10) as an `N`-bit value, for `n ≤ N`. -/
def mask (N n : Nat) : BitVec N := BitVec.ofNat N (2 ^ n - 1)

/-- `slice_N(v, s, t)` (R101). -/
def slice {N : Nat} (v : BitVec N) (s t : Nat) : BitVec N := (v >>> (N - t)) &&& mask N (t - s)

/-- `merge_N(e, b, s, t)` (R105). -/
def merge {N : Nat} (e : BitVec N) (b : Word) (s t : Nat) : BitVec N :=
  e ^^^ ((slice e s t ^^^ (b.setWidth N &&& mask N (t - s))) <<< (N - t))

/-- `EW` as a number (R6). -/
def ElemWidth.bits : ElemWidth → Nat
  | .w32 => 32
  | .w8 => 8

/-- `slice_EW` of the low `EW` bits of `v`, zero-extended (R102, R103, D21). -/
def sliceElem (ew : ElemWidth) (v : Word) (s t : Nat) : Word :=
  match ew with
  | .w32 => slice v s t
  | .w8 => (slice (v.setWidth 8) s t).setWidth 32

/-- `merge_EW` into the low `EW` bits of `e`, zero-extended (R106, R107, D21). -/
def mergeElem (ew : ElemWidth) (e b : Word) (s t : Nat) : Word :=
  match ew with
  | .w32 => merge e b s t
  | .w8 => (merge (e.setWidth 8) b s t).setWidth 32

/-- The range check `0 ≤ start < stop ≤ EW` (R73, R181). -/
def rangeOk (ew : ElemWidth) (start stop : Nat) : Bool := decide (start < stop ∧ stop ≤ ew.bits)

/-- `ceil_div(a, 32)` (R10). -/
def ceilDiv32 (a : Nat) : Nat := (a + 31) / 32

/-- `element_count(EW, rows, cols, slices)`, exact (R152). -/
def elementCount (ew : ElemWidth) (rows cols slices : Word) : Nat :=
  match ew with
  | .w32 => rows.toNat * cols.toNat
  | .w8 => rows.toNat * cols.toNat * slices.toNat

/-- `CAP` for `totalBits` bits in `len` words of storage (R121, R151). -/
def capacity (totalBits : Nat) (len : Word) : Word := BitVec.ofNat 32 (min (ceilDiv32 totalBits) len.toNat)

end Sys2Proof.Machine
end

