-- ==== Sys2Proof/Machine/Datapath.lean ====
section
/-! DEFINITION. SLICE32, SLICE8, MERGE32, MERGE8 (spec/40_slice_merge.md). -/

namespace Sys2Proof.Machine

/-- A datapath command: the range check, then RESULT (R100, R181). -/
def datapathCommand (ew : ElemWidth) (start stop : Nat) (value : Word) (s : State) :
    Host.Outcome State Fault Refusal :=
  whenAccepted s <| settle s <|
    if rangeOk ew start stop then .ok (s.setResult value) else .raise .invalidRange

/-- SLICE32 (R102). -/
def execSlice32 (start stop : Nat) (s : State) : Host.Outcome State Fault Refusal :=
  datapathCommand .w32 start stop (sliceElem .w32 s.args.arg0 start stop) s

/-- SLICE8 (R103). -/
def execSlice8 (start stop : Nat) (s : State) : Host.Outcome State Fault Refusal :=
  datapathCommand .w8 start stop (sliceElem .w8 s.args.arg0 start stop) s

/-- MERGE32 (R106). -/
def execMerge32 (start stop : Nat) (s : State) : Host.Outcome State Fault Refusal :=
  datapathCommand .w32 start stop (mergeElem .w32 s.args.arg0 s.args.arg1 start stop) s

/-- MERGE8 (R107). -/
def execMerge8 (start stop : Nat) (s : State) : Host.Outcome State Fault Refusal :=
  datapathCommand .w8 start stop (mergeElem .w8 s.args.arg0 s.args.arg1 start stop) s

end Sys2Proof.Machine
end

