-- ==== Sys2Proof/Machine/Buffer.lean ====
section
/-! DEFINITION. INIT, EXTEND, NEXT, FILL and the three cores they share with the passes (spec/41_buffer_cursor.md,
spec/42_matrix_pass.md). -/

namespace Sys2Proof.Machine

/-- The descriptor INIT and a pass's first part construct (R121, R151). -/
def freshDescriptor (base : Word) (totalBits : Nat) (len : Word) (bw : Nat) : Descriptor :=
  { base := base, cap := capacity totalBits len, wc := 0#32, bo := 0#5, bw := BitVec.ofNat 6 bw }

/-- INIT (R121). -/
def execInit (bw : Nat) (s : State) : Host.Outcome State Fault Refusal :=
  whenAccepted s <| settle s <|
    if 1 ≤ bw ∧ bw ≤ 32 then
      .ok (s.setBuf (freshDescriptor s.args.arg1 s.args.arg0.toNat s.args.arg2 bw))
    else .raise .invalidRange

/-- The fresh-word check on buffer word `i` (R125). -/
def requireZero (s : State) (i : Nat) : Act Unit :=
  (memRead32 s (s.bufAddr i)).bind fun v => if v ≠ 0#32 then .raise .nonZeroCollision else .ok ()

/-- EXTEND_core(x) where the block fits in word WC, whose content is `cw` (R124, R125 (b), R126). -/
def extendFitting (x cw : Word) (s : State) : Act State :=
  let w := s.buf.bw.toNat
  let b := s.buf.bo.toNat
  let wc := s.buf.wc.toNat
  let check : Act Unit := if b + w = 32 ∧ wc + 1 < s.buf.cap.toNat then requireZero s (wc + 1) else .ok ()
  check.bind fun _ =>
    (memWrite32 s (s.bufAddr wc) (cw ||| (x <<< (32 - b - w)))).bind fun t =>
      .ok (if b + w = 32 then t.setCursor (wc + 1) 0 else t.setCursor wc (b + w))

/-- EXTEND_core(x) where the block straddles words WC and WC + 1 (R124, R125 (c), R126). -/
def extendStraddling (x cw : Word) (s : State) : Act State :=
  let w := s.buf.bw.toNat
  let b := s.buf.bo.toNat
  let wc := s.buf.wc.toNat
  let r := b + w - 32
  if wc + 1 ≥ s.buf.cap.toNat then .raise .bufferOverflow else
  (memRead32 s (s.bufAddr (wc + 1))).bind fun nw =>
    if nw ≠ 0#32 then .raise .nonZeroCollision else
    (memWrite32 s (s.bufAddr wc) (cw ||| (x >>> r))).bind fun t =>
      (memWrite32 t (s.bufAddr (wc + 1)) (nw ||| ((x &&& mask 32 r) <<< (32 - r)))).bind fun u =>
        .ok (u.setCursor (wc + 1) r)

/-- EXTEND_core(x): append the low BW bits of `x` at the cursor (R124). -/
def extendCore (x : Word) (s : State) : Act State :=
  let w := s.buf.bw.toNat
  let b := s.buf.bo.toNat
  let wc := s.buf.wc.toNat
  if wc ≥ s.buf.cap.toNat then .raise .bufferOverflow else
  (memRead32 s (s.bufAddr wc)).bind fun cw =>
    if b = 0 ∧ cw ≠ 0#32 then .raise .nonZeroCollision
    else if b + w ≤ 32 then extendFitting (x &&& mask 32 w) cw s
    else extendStraddling (x &&& mask 32 w) cw s

/-- EXTEND (R123, R124). -/
def execExtend (s : State) : Host.Outcome State Fault Refusal :=
  whenAccepted s <| settle s <| extendCore s.args.arg0 s

/-- NEXT_core(): the block at the cursor, and the state with the cursor advanced (R130). -/
def nextCore (s : State) : Act (Word × State) :=
  let w := s.buf.bw.toNat
  let b := s.buf.bo.toNat
  let wc := s.buf.wc.toNat
  if wc ≥ s.buf.cap.toNat then .raise .bufferOverflow else
  (readBuffer s (s.bufAddr wc)).bind fun (cw, t) =>
    if b + w ≤ 32 then
      .ok (slice cw b (b + w), if b + w = 32 then t.setCursor (wc + 1) 0 else t.setCursor wc (b + w))
    else
      let r := b + w - 32
      if wc + 1 ≥ s.buf.cap.toNat then .raise .bufferOverflow else
      (readBuffer t (s.bufAddr (wc + 1))).bind fun (nw, u) =>
        .ok ((slice cw b 32 <<< r) ||| slice nw 0 r, u.setCursor (wc + 1) r)

/-- NEXT (R129, R130). -/
def execNext (s : State) : Host.Outcome State Fault Refusal :=
  whenAccepted s <| settle s <| (nextCore s).bind fun (v, t) => .ok (t.setResult v)

/-- FILL_core(p): OR the high `32 - BO` bits of `p` into the tail of word WC (R135). -/
def fillCore (p : Word) (s : State) : Act State :=
  let b := s.buf.bo.toNat
  let wc := s.buf.wc.toNat
  if b ≠ 0 then
    if wc ≥ s.buf.cap.toNat then .raise .bufferOverflow else
    (memRead32 s (s.bufAddr wc)).bind fun v => memWrite32 s (s.bufAddr wc) (v ||| (p >>> b))
  else .ok s

/-- FILL (R134, R135). -/
def execFill (s : State) : Host.Outcome State Fault Refusal :=
  whenAccepted s <| settle s <| fillCore s.args.arg0 s

end Sys2Proof.Machine
end

