-- ==== Sys2Proof/Machine/Pass.lean ====
section
/-! DEFINITION. EXTRACT32, EXTRACT8, INSERT32, INSERT8: the first part, which a CMD write performs, and the engine's
micro-steps (spec/42_matrix_pass.md). -/

namespace Sys2Proof.Machine

/-- The state after a pass's first part (R151). -/
def State.startPass (s : State) (op : PassOp) (ew : ElemWidth) (start stop : Nat) : State :=
  let count := elementCount ew s.args.arg1 s.args.arg2 s.args.arg3
  { s with
    pass :=
      { op := op, ew := ew, start := BitVec.ofNat 6 start, stop := BitVec.ofNat 6 stop, mbase := s.args.arg0,
        count := count, fill := s.args.arg6, k := 0 }
    buf := freshDescriptor s.args.arg4 (count * (stop - start)) s.args.arg5 (stop - start)
    status := { s.status with busy := true } }

/-- A pass command's first part (R151). -/
def passCommand (op : PassOp) (ew : ElemWidth) (start stop : Nat) (s : State) : Host.Outcome State Fault Refusal :=
  whenAccepted s <| settle s <|
    if rangeOk ew start stop then .ok (s.startPass op ew start stop) else .raise .invalidRange

/-- EXTRACT32 (R155). -/
def execExtract32 (start stop : Nat) (s : State) : Host.Outcome State Fault Refusal :=
  passCommand .extract .w32 start stop s

/-- EXTRACT8 (R156). -/
def execExtract8 (start stop : Nat) (s : State) : Host.Outcome State Fault Refusal :=
  passCommand .extract .w8 start stop s

/-- INSERT32 (R160). -/
def execInsert32 (start stop : Nat) (s : State) : Host.Outcome State Fault Refusal :=
  passCommand .insert .w32 start stop s

/-- INSERT8 (R161). -/
def execInsert8 (start stop : Nat) (s : State) : Host.Outcome State Fault Refusal :=
  passCommand .insert .w8 start stop s

/-- `K <- K + 1` (R153, R157). -/
def State.advanceK (s : State) : State := { s with pass := { s.pass with k := s.pass.k + 1 } }

/-- `STATUS.BUSY <- 0` (R154, R158). -/
def State.clearBusy (s : State) : State := { s with status := { s.status with busy := false } }

/-- Extract element micro-step K (R153). -/
def extractElement (s : State) : Act State :=
  (readElement s (s.elemAddr s.pass.k)).bind fun (e, t) =>
    (extendCore (sliceElem s.pass.ew e s.pass.start.toNat s.pass.stop.toNat) t).bind fun u => .ok u.advanceK

/-- Extract completion micro-step (R154). -/
def extractCompletion (s : State) : Act State :=
  (fillCore s.pass.fill s).bind fun t => .ok (t.setResult t.buf.cap).clearBusy

/-- Insert element micro-step K (R157). -/
def insertElement (s : State) : Act State :=
  (nextCore s).bind fun (blk, t) =>
    (readElement t (s.elemAddr s.pass.k)).bind fun (e, u) =>
      (writeElement u (s.elemAddr s.pass.k)
        (mergeElem s.pass.ew e blk s.pass.start.toNat s.pass.stop.toNat)).bind fun v => .ok v.advanceK

/-- Insert completion micro-step (R158). -/
def insertCompletion (s : State) : Act State :=
  .ok (s.setResult (BitVec.ofNat 32 s.pass.count)).clearBusy

/-- The engine's next micro-step, taken while BUSY = 1 (R150). The completion is taken when no element is left
(`K = P_COUNT`; for `K > P_COUNT`, which no run reaches, see log 13). -/
def microStep (s : State) : Host.Outcome State Fault Refusal :=
  if s.pass.k < s.pass.count then
    settlePass s s.pass.k (match s.pass.op with | .extract => extractElement s | .insert => insertElement s)
  else
    settlePass s s.pass.count (match s.pass.op with | .extract => extractCompletion s | .insert => insertCompletion s)

end Sys2Proof.Machine
end

