-- ==== Sys2Proof/Machine/Dispatch.lean ====
section
/-! DEFINITION. The meaning of every command: what a CMD write of its word does (spec/43_control.md R170). -/

namespace Sys2Proof.Machine

def exec (i : Instr) (s : State) : Host.Outcome State Fault Refusal :=
  match i with
  | .nop => Sys2Proof.Machine.execNop s
  | .init bw => Sys2Proof.Machine.execInit bw s
  | .extend => Sys2Proof.Machine.execExtend s
  | .next => Sys2Proof.Machine.execNext s
  | .fill => Sys2Proof.Machine.execFill s
  | .slice32 start stop => Sys2Proof.Machine.execSlice32 start stop s
  | .slice8 start stop => Sys2Proof.Machine.execSlice8 start stop s
  | .merge32 start stop => Sys2Proof.Machine.execMerge32 start stop s
  | .merge8 start stop => Sys2Proof.Machine.execMerge8 start stop s
  | .extract32 start stop => Sys2Proof.Machine.execExtract32 start stop s
  | .extract8 start stop => Sys2Proof.Machine.execExtract8 start stop s
  | .insert32 start stop => Sys2Proof.Machine.execInsert32 start stop s
  | .insert8 start stop => Sys2Proof.Machine.execInsert8 start stop s
  | .reset => Sys2Proof.Machine.execReset s

end Sys2Proof.Machine
end

