-- ==== Sys2Proof/Machine/Flags.lean ====
section
/-! DEFINITION. STATUS as the host reads it (spec/10_state.md R26). The flags that commands set are set by the
operations of Machine/Ops.lean (R171, R186) and by the passes (R151, R154, R158). -/

namespace Sys2Proof.Machine

/-- EXH: combinational, 1 iff `WC = CAP` (R26, D40). -/
def State.exhausted (s : State) : Bool := decide (s.buf.wc = s.buf.cap)

/-- The STATUS word (R26): bits 31:8 zero, FCODE 7:4, EXH 3, OVR 2, FAULT 1, BUSY 0. -/
def State.statusWord (s : State) : Word :=
  0#24 ++ s.status.fcode ++ BitVec.ofBool s.exhausted ++ BitVec.ofBool s.status.ovr ++ BitVec.ofBool s.status.fault ++
    BitVec.ofBool s.status.busy

end Sys2Proof.Machine
end

