-- ==== Sys2Proof/Machine/HostPort.lean ====
section
/-! DEFINITION. The host's side: the register block (spec/10_state.md R24), a CMD write (spec/43_control.md R170),
the host steps (spec/30_encoding.md R80), and the turns of the two agents (spec/00_scope.md R15). -/

namespace Sys2Proof.Machine

open Sys2Proof.Config

/-- The registers of the block (R24). -/
inductive Reg where
  | cmd
  | status
  | result
  | wc
  | bo
  | bw
  | cap
  | base
  | arg0
  | arg1
  | arg2
  | arg3
  | arg4
  | arg5
  | arg6
  | reserved
  deriving DecidableEq, Repr

/-- The register at a byte offset of the block (R24); `none` where no register starts. -/
def regAtOffset : Nat → Option Reg
  | 0x00 => some .cmd
  | 0x04 => some .status
  | 0x08 => some .result
  | 0x0C => some .wc
  | 0x10 => some .bo
  | 0x14 => some .bw
  | 0x18 => some .cap
  | 0x1C => some .base
  | 0x20 => some .arg0
  | 0x24 => some .arg1
  | 0x28 => some .arg2
  | 0x2C => some .arg3
  | 0x30 => some .arg4
  | 0x34 => some .arg5
  | 0x38 => some .arg6
  | 0x3C => some .reserved
  | _ => none

/-- The register a host access of `nbytes` bytes at a platform address reaches; only aligned 32-bit accesses reach
one (R24, I9). DESIGN CHOICE (log 21; unsafe): "aligned" is measured on the offset from REG_BASE, not on the platform
address; the two differ only where REG_BASE is no multiple of 4, of which the spec does not speak. -/
def regAccess (p : Platform) (addr nbytes : Nat) : Option Reg :=
  if nbytes = 4 ∧ p.regBase ≤ addr then regAtOffset (addr - p.regBase) else none

/-- What a host read of a register returns; it has no side effect (R24). -/
def readReg (s : State) : Reg → Word
  | .cmd => 0#32
  | .status => s.statusWord
  | .result => s.result
  | .wc => s.buf.wc
  | .bo => s.buf.bo.setWidth 32
  | .bw => s.buf.bw.setWidth 32
  | .cap => s.buf.cap
  | .base => s.buf.base
  | .arg0 => s.args.arg0
  | .arg1 => s.args.arg1
  | .arg2 => s.args.arg2
  | .arg3 => s.args.arg3
  | .arg4 => s.args.arg4
  | .arg5 => s.args.arg5
  | .arg6 => s.args.arg6
  | .reserved => 0#32

/-- A write of `v` to CMD (R170). Decoding first gives the same effect as the rule's order: the exact RESET word is
the only one that decodes to RESET, and every other command, and an Illegal word, is dropped while busy or faulted. -/
def writeCmd (v : Word) (s : State) : Host.Outcome State Fault Refusal :=
  match decode v with
  | some i => exec i s
  | none => whenAccepted s (settle s (.raise .illegalCommand))

/-- A host write of a register (R24): CMD issues a command, ARG0 to ARG6 are written, the others ignore it. -/
def writeReg (s : State) (v : Word) : Reg → Host.Outcome State Fault Refusal
  | .cmd => writeCmd v s
  | .status => .next s
  | .result => .next s
  | .wc => .next s
  | .bo => .next s
  | .bw => .next s
  | .cap => .next s
  | .base => .next s
  | .arg0 => .next (s.setArgs { s.args with arg0 := v })
  | .arg1 => .next (s.setArgs { s.args with arg1 := v })
  | .arg2 => .next (s.setArgs { s.args with arg2 := v })
  | .arg3 => .next (s.setArgs { s.args with arg3 := v })
  | .arg4 => .next (s.setArgs { s.args with arg4 := v })
  | .arg5 => .next (s.setArgs { s.args with arg5 := v })
  | .arg6 => .next (s.setArgs { s.args with arg6 := v })
  | .reserved => .next s

/-- `cmd X`: a CMD write of the command's word (R80). -/
def cmdSteps (p : Platform) (i : Instr) : List HostStep := [.regWrite p.regBase 4 (encode i)]

/-- `args v0, …, vn`: the values written to ARG0 and on; there are seven ARGs (R80). -/
def argsSteps (p : Platform) (vs : List Word) : List HostStep :=
  (vs.take 7).mapIdx fun n v => .regWrite (p.regBase + 0x20 + 4 * n) 4 v

/-- `run X`: `cmd X` and then `poll` (R80). -/
def runSteps (p : Platform) (i : Instr) : List HostStep := cmdSteps p i ++ [.poll]

/-- The host's program records a value it read (R80, log 15). -/
def State.observe (s : State) (v : Word) : State := { s with observed := v :: s.observed }

/-- The host steps still to be taken changed. -/
def State.setProgram (s : State) (hs : List HostStep) : State := { s with program := hs }

/-- The turns still to be taken changed. -/
def State.setSchedule (s : State) (ts : List Turn) : State := { s with schedule := ts }

/-- One host step (R80), in the state from whose program it has been taken. -/
def hostStep (h : HostStep) (s : State) : Host.Outcome State Fault Refusal :=
  match h with
  | .regWrite addr nbytes v =>
    match regAccess s.platform addr nbytes with
    | some r => writeReg s v r
    | none => .refused (.registerAccess addr nbytes)
  | .regRead addr nbytes =>
    match regAccess s.platform addr nbytes with
    | some r => .next (s.observe (readReg s r))
    | none => .refused (.registerAccess addr nbytes)
  | .memWrite32 a v => settle s (memWrite32 s a v)
  | .memWrite8 a v => settle s (memWrite8 s a v)
  | .memRead32 a => settle s ((memRead32 s a).bind fun v => .ok (s.observe v))
  | .memRead8 a => settle s ((memRead8 s a).bind fun v => .ok (s.observe (v.setWidth 32)))
  | .poll =>
    .next (if s.status.busy then (s.observe s.statusWord).setProgram (.poll :: s.program)
      else s.observe s.statusWord)

/-- The host's next step, if its program has one; a host with nothing to do leaves the machine as it is. -/
def hostAct (s : State) : Host.Outcome State Fault Refusal :=
  match s.program with
  | [] => .next s
  | h :: hs => hostStep h (s.setProgram hs)

/-- The engine's next micro-step; the engine takes none while BUSY = 0 (R150, R199). -/
def engineAct (s : State) : Host.Outcome State Fault Refusal :=
  if s.status.busy then microStep s else .next s

/-- The turn of an agent that has no enabled step passes: its step does not occur (R56, log 11). -/
def passIfStuck (s : State) : Host.Outcome State Fault Refusal → Host.Outcome State Fault Refusal
  | .next t => .next t
  | .fault _ => .next s
  | .refused r => .refused r

/-- The step of a scheduled turn (R15, R200). -/
def takeTurn (t : Turn) (s : State) : Host.Outcome State Fault Refusal :=
  match t with
  | .host => passIfStuck s (hostAct s)
  | .engine => passIfStuck s (engineAct s)
  | .hardReset => .next s.hardReset

/-- The step where nothing is scheduled (log 2): the engine moves if it can (R216), else the host; where a step is
pending and no agent has an enabled one, the machine is stuck (R56). -/
def fairTurn (s : State) : Host.Outcome State Fault Refusal :=
  if s.status.busy then
    match microStep s with
    | .next t => .next t
    | .fault r => (match s.program with | [] => .fault r | _ :: _ => hostAct s)
    | .refused r => .refused r
  else hostAct s

end Sys2Proof.Machine
end

