-- ==== Sys2Proof/Machine/Step.lean ====
section
/-! DEFINITION. One step of the interleaving of host, engine and hardware reset (spec/00_scope.md R15). -/

namespace Sys2Proof.Machine

/-- One step: the scheduled turn, or the fair rule where none is scheduled. -/
def step (s : State) : Host.Outcome State Fault Refusal :=
  match s.schedule with
  | t :: ts => takeTurn t (s.setSchedule ts)
  | [] => fairTurn s

/-- `s` with the command whose bits are `w` as the host's next step, a CMD write (R70, R170), and with the next turn
the host's. It stands for the host program's being loaded from outside (log 1). -/
def State.withFetchWord (s : State) (nbits w : Nat) : State :=
  (s.setProgram (.regWrite s.platform.regBase 4 ((BitVec.ofNat nbits w).setWidth 32) :: s.program)).setSchedule
    (.host :: s.schedule)

end Sys2Proof.Machine
end

