-- ==== Sys2Proof/Safety.lean ====
section
/-! DEFINITION. The terms that statements use: what a safe state is (spec/10_state.md R22, R26, R28), the buffer as a
stream of bits (spec/20_memory.md R54), and which bytes a step may change. -/

namespace Sys2Proof.Machine

open Sys2Proof.Config

/-- The engine accepts the next command: neither busy nor in the fault state (R170). -/
abbrev State.accepting (s : State) : Prop := s.status.busy = false ∧ s.status.fault = false

/-- `s` after the entry of the fault with this code, and nothing else (R186, R188). -/
def State.faulted (s : State) (code : BitVec 4) : State :=
  { s with status := { busy := false, fault := true, ovr := s.status.ovr, fcode := code } }

/-- The registers that a reset of either kind sets have their reset values (R30). -/
abbrev State.registersReset (s : State) : Prop :=
  s.buf = Descriptor.reset ∧ s.result = 0#32 ∧ s.status = StatusBits.reset

/-- The platform answers a read, a write, of buffer word `i` (R56). -/
abbrev State.canRead (s : State) (i : Nat) : Prop := admits s.platform .word (s.bufAddr i) .read = true
abbrev State.canWrite (s : State) (i : Nat) : Prop := admits s.platform .word (s.bufAddr i) .write = true

/-- The cells of the word at a word address. -/
def wordCells (a : Word) : List Nat := [wordCell a 0, wordCell a 1, wordCell a 2, wordCell a 3]

/-- The cell belongs to a word or a byte whose write the platform answers (R56). -/
def State.writable (s : State) (c : Nat) : Prop :=
  (∃ a, c ∈ wordCells a ∧ admits s.platform .word a .write = true) ∨
    ∃ a, c = byteCell s.platform a ∧ admits s.platform .byte a .write = true

/-- The platform answers every request (R203). -/
abbrev State.allAdmitted (s : State) : Prop := ∀ port a kind, admits s.platform port a kind = true

/-- Buffer word `i` (R52). -/
abbrev State.bufferWord (s : State) (i : Nat) : Word := s.wordAt (s.bufAddr i)

/-- The cursor as a position in the stream of the buffer's bits (R54). -/
def State.position (s : State) : Nat := 32 * s.buf.wc.toNat + s.buf.bo.toNat

/-- Stream bit `j` of the buffer (R54). -/
def State.streamBit (s : State) (j : Nat) : Bool := (s.bufferWord (j / 32)).getLsbD (31 - j % 32)

/-- The register ranges of the cursor invariant (R22); `BO ≤ 31` is its width. -/
abbrev State.cursorInRange (s : State) : Prop :=
  s.buf.wc.toNat ≤ s.buf.cap.toNat ∧ 1 ≤ s.buf.bw.toNat ∧ s.buf.bw.toNat ≤ 32 ∧ (s.buf.wc = s.buf.cap → s.buf.bo = 0#5)

/-- BUSY and FAULT never hold together, and FCODE is 0 exactly without a fault and at most 4 (R26, R180). -/
abbrev State.statusConsistent (s : State) : Prop :=
  ¬(s.status.busy = true ∧ s.status.fault = true) ∧ (s.status.fault = false ↔ s.status.fcode = 0#4) ∧
    s.status.fcode.toNat ≤ 4

/-- While a pass runs, the sequencer holds a legal range, the descriptor is the pass's, and the cursor stands after
exactly K blocks (R28, R151, R154). -/
abbrev State.passConsistent (s : State) : Prop :=
  s.status.busy = true →
    s.pass.k ≤ s.pass.count ∧ s.pass.start.toNat < s.pass.stop.toNat ∧ s.pass.stop.toNat ≤ s.pass.ew.bits ∧
      s.buf.bw.toNat = s.pass.stop.toNat - s.pass.start.toNat ∧ s.position = s.pass.k * s.buf.bw.toNat ∧
      s.buf.cap.toNat ≤ ceilDiv32 (s.pass.count * s.buf.bw.toNat)

/-- The invariant of the engine's registers. (That memory keeps its canonical form is stated by itself.) -/
abbrev State.safe (s : State) : Prop := s.cursorInRange ∧ s.statusConsistent ∧ s.passConsistent

/-- A host program's run is over (R174). -/
abbrev State.runOver (s : State) : Prop := s.program = [] ∧ s.status.busy = false

/-- The cells of matrix element `k` of a matrix with this element width and base: its word's, or its byte's (R51, R53). -/
def State.matrixCells (s : State) (ew : ElemWidth) (base : Word) (k : Nat) : List Nat :=
  match ew with
  | .w32 => wordCells (base + BitVec.ofNat 32 k)
  | .w8 => [byteCell s.platform (base + BitVec.ofNat 32 k)]

/-- Matrix element `k` of a matrix with this element width and base, zero-extended (R51, R53). -/
def State.matrixElement (s : State) (ew : ElemWidth) (base : Word) (k : Nat) : Word :=
  match ew with
  | .w32 => s.wordAt (base + BitVec.ofNat 32 k)
  | .w8 => (s.byteAt (base + BitVec.ofNat 32 k)).setWidth 32

/-- The cells of matrix element `k` of the running pass. -/
abbrev State.elementCells (s : State) (k : Nat) : List Nat := s.matrixCells s.pass.ew s.pass.mbase k

/-- The pass command of an operation and an element width (R75). -/
def passInstr : PassOp → ElemWidth → Nat → Nat → Instr
  | .extract, .w32 => .extract32
  | .extract, .w8 => .extract8
  | .insert, .w32 => .insert32
  | .insert, .w8 => .insert8

/-- Every byte of memory outside `cells` reads as before. -/
def sameMemoryExcept (cells : List Nat) (s t : State) : Prop :=
  ∀ c, c ∉ cells → t.mem.get c = s.mem.get c

/-- The state after the host has written ARG0. -/
def State.withArg0 (s : State) (x : Word) : State := s.setArgs { s.args with arg0 := x }

/-- The host writes ARG0 and issues a command, for each of a list; `none` if one of them does not succeed. -/
def commandAll : List (Instr × Word) → State → Option State
  | [], s => some s
  | (i, x) :: l, s =>
    match exec i (s.withArg0 x) with
    | .next t => if t.status.fault then none else commandAll l t
    | .fault _ => none
    | .refused _ => none

/-- The host EXTENDs the buffer by each block; `none` if one of them does not succeed. -/
def extendAll (xs : List Word) (s : State) : Option State := commandAll (xs.map fun x => (.extend, x)) s

/-- The host issues `n` NEXTs and reads RESULT after each; `none` if one of them does not succeed. -/
def nextAll : Nat → State → Option (List Word × State)
  | 0, s => some ([], s)
  | n + 1, s =>
    match exec .next s with
    | .next t => if t.status.fault then none else (nextAll n t).map fun (l, u) => (t.result :: l, u)
    | .fault _ => none
    | .refused _ => none

/-- The host writes ARG0 to ARG2 and issues INIT. -/
def initWith (totalBits base len : Word) (bw : Nat) (s : State) : Host.Outcome State Fault Refusal :=
  exec (.init bw) (s.setArgs { s.args with arg0 := totalBits, arg1 := base, arg2 := len })

end Sys2Proof.Machine
end

