-- ==== Sys2Proof/Certificates/Slice0/Obligations.lean ====
section
/-! DEFINITION. The statements for the provers. Each docstring says which rule of spec/ the statement formalises, or
that it is the model's choice. -/

open Sys2Proof Sys2Proof.Machine Sys2Proof.Config

/-! ### Encoding -/

/-- Decoding the word of a well-formed command gives it back, with every operand at every value its field admits
(R70, R75, R79). -/
def Obligations.DecodeOfEncode : Prop := ∀ i : Instr, i.wellFormed → decode (encode i) = some i

/-- A word that decodes is the encoding of the well-formed command it decodes to: each word has one meaning
(R70, R75). -/
def Obligations.DecodedWordIsItsEncoding : Prop :=
  ∀ (w : Word) (i : Instr), decode w = some i → i.wellFormed ∧ encode i = w

/-- R74, R184, and R76's list: the illegal words are exactly these, and one that is accepted takes IllegalCommand
(code 4) and does nothing else. -/
def Obligations.IllegalWordsExactly : Prop :=
  ∀ w : Word,
    (decode w = none ↔
      (0x9#4 ≤ w.extractLsb' 28 4 ∧ w.extractLsb' 28 4 ≤ 0xE#4) ∨
        w.extractLsb' 26 2 = 2#2 ∨ w.extractLsb' 26 2 = 3#2 ∨
        (w.extractLsb' 26 2 ≠ 0#2 ∧ w.extractLsb' 28 4 ∈ [0x0#4, 0x1#4, 0x2#4, 0x3#4, 0x4#4, 0xF#4]) ∨
        (w.extractLsb' 20 6 ≠ 0#6 ∧ w.extractLsb' 28 4 ∈ [0x0#4, 0x1#4, 0x2#4, 0x3#4, 0x4#4, 0xF#4]) ∨
        (w.extractLsb' 14 6 ≠ 0#6 ∧ w.extractLsb' 28 4 ∈ [0x0#4, 0x2#4, 0x3#4, 0x4#4, 0xF#4]) ∨
        w.extractLsb' 0 14 ≠ 0#14) ∧
      (decode w = none → ∀ s : State, s.accepting → writeReg s w .cmd = .next (s.faulted 4#4))

/-- Words written out from the encoding table (R75, R79, and the vectors V-E of spec/95_test_vectors.md). -/
def Obligations.SampleWordsDecode : Prop :=
  decode 0x10014000#32 = some (.init 5) ∧ decode 0x20000000#32 = some .extend ∧ decode 0x30000000#32 = some .next ∧
    decode 0x40000000#32 = some .fill ∧ decode 0x51C80000#32 = some (.slice32 28 32) ∧
    decode 0x64314000#32 = some (.merge8 3 5) ∧ decode 0x74420000#32 = some (.extract8 4 8) ∧
    decode 0x80080000#32 = some (.insert32 0 32) ∧ decode 0xF0000000#32 = some .reset ∧
    decode 0x00000000#32 = some .nop ∧ decode 0xF0000001#32 = none ∧ decode 0x58000000#32 = none

/-! ### A step runs the decoded command -/

/-- What a step runs (R15, R170). The host's next step is a CMD write of a word that decodes to `i`: in the host's turn
the step is `exec i` at the state whose turn and host step have been taken (where the platform does not admit a request
of it, only the turn passes, R56); with nothing scheduled and the engine idle it is `exec i` whole; and the host's probe
`withFetchWord` runs its word so. A scheduled host turn runs whatever host step is next, and a scheduled engine turn is
`engineAct`, which is the micro-step of a running pass and nothing for an idle engine. With nothing scheduled a busy
engine moves, the host where the engine is idle or blocked. How the turns are represented, which agent moves when none
is scheduled, and that a turn with nothing to do passes, is the model's choice (log 1, log 2, log 11, log 16). -/
def Obligations.StepRunsDecodedCommand : Prop :=
  (∀ (s : State) (w : Word) (i : Instr) (hs : List HostStep),
    s.program = .regWrite s.platform.regBase 4 w :: hs → decode w = some i →
      (∀ ts, s.schedule = .host :: ts →
        (∀ t, exec i ((s.setProgram hs).setSchedule ts) = .next t → step s = .next t) ∧
          (∀ r, exec i ((s.setProgram hs).setSchedule ts) = .fault r → step s = .next (s.setSchedule ts))) ∧
      (s.schedule = [] → s.status.busy = false → step s = exec i (s.setProgram hs))) ∧
    (∀ (s : State) (n w : Nat) (i : Instr) (t : State),
      decodeTableWord n w = some i → exec i s = .next t → step (s.withFetchWord n w) = .next t) ∧
    (∀ (s : State) (ts : List Turn), s.schedule = .host :: ts →
      (s.program = [] → step s = .next (s.setSchedule ts)) ∧
        (∀ h hs, s.program = h :: hs →
          (∀ t, hostStep h ((s.setProgram hs).setSchedule ts) = .next t → step s = .next t) ∧
            (∀ r, hostStep h ((s.setProgram hs).setSchedule ts) = .fault r → step s = .next (s.setSchedule ts)) ∧
            (∀ r, hostStep h ((s.setProgram hs).setSchedule ts) = .refused r → step s = .refused r))) ∧
    (∀ (s : State) (ts : List Turn), s.schedule = .engine :: ts →
      (∀ t, engineAct (s.setSchedule ts) = .next t → step s = .next t) ∧
        (s.status.busy = true → engineAct (s.setSchedule ts) = microStep (s.setSchedule ts)) ∧
        (s.status.busy = false → step s = .next (s.setSchedule ts))) ∧
    (∀ s : State, s.schedule = [] →
      (s.status.busy = true → ∀ t, microStep s = .next t → step s = .next t) ∧
        (s.status.busy = true → ∀ r h hs, microStep s = .fault r → s.program = h :: hs →
          step s = hostStep h (s.setProgram hs)) ∧
        (s.status.busy = false → s.program = [] → step s = .next s) ∧
        (s.status.busy = false → ∀ h hs, s.program = h :: hs → step s = hostStep h (s.setProgram hs)))

/-- R56, I4: a step that contains a request the platform does not admit does not occur. Said here of every request
that EXTEND, NEXT and FILL make, of the host's own four memory accesses (that they are subject to MEM_ADMIT is log 10),
and of what becomes of the turn: the blocked agent's turn passes with no change, and where nothing is scheduled and the
host has nothing to do the machine is stuck. The matrix element of a micro-step is in `ExtractElementStep`,
`InsertElementStep` and `AliasedElementSteps`, the FILL of a completion in `CompletionSteps`. That requests and fault
checks are met in the pseudocode's order, and how a blocked step is represented, is the model's (log 11). -/
def Obligations.UnadmittedStepDoesNotOccur : Prop :=
  (∀ s : State, s.accepting → s.buf.wc.toNat < s.buf.cap.toNat → ¬ s.canRead s.buf.wc.toNat →
    exec .extend s = .fault (.notAdmitted .word (s.bufAddr s.buf.wc.toNat) .read) ∧
      exec .next s = .fault (.notAdmitted .word (s.bufAddr s.buf.wc.toNat) .read) ∧
      (s.buf.bo ≠ 0#5 → exec .fill s = .fault (.notAdmitted .word (s.bufAddr s.buf.wc.toNat) .read))) ∧
    (∀ (s : State) (w b wc cap : Nat) (cw nw : Word), s.accepting → w = s.buf.bw.toNat → b = s.buf.bo.toNat →
      wc = s.buf.wc.toNat → cap = s.buf.cap.toNat → cw = s.bufferWord wc → nw = s.bufferWord (wc + 1) → w ≤ 32 →
      wc < cap → s.canRead wc →
      (b ≠ 0 → ¬ s.canWrite wc → exec .fill s = .fault (.notAdmitted .word (s.bufAddr wc) .write)) ∧
      (b + w ≤ 32 → (b = 0 → cw = 0#32) → (b + w = 32 → wc + 1 < cap → s.canRead (wc + 1) ∧ nw = 0#32) →
        ¬ s.canWrite wc → exec .extend s = .fault (.notAdmitted .word (s.bufAddr wc) .write)) ∧
      (b + w = 32 → (b = 0 → cw = 0#32) → wc + 1 < cap → ¬ s.canRead (wc + 1) →
        exec .extend s = .fault (.notAdmitted .word (s.bufAddr (wc + 1)) .read)) ∧
      (32 < b + w → wc + 1 < cap → ¬ s.canRead (wc + 1) →
        exec .extend s = .fault (.notAdmitted .word (s.bufAddr (wc + 1)) .read) ∧
          exec .next s = .fault (.notAdmitted .word (s.bufAddr (wc + 1)) .read)) ∧
      (32 < b + w → wc + 1 < cap → s.canRead (wc + 1) → nw = 0#32 →
        (¬ s.canWrite wc → exec .extend s = .fault (.notAdmitted .word (s.bufAddr wc) .write)) ∧
          (s.canWrite wc → ¬ s.canWrite (wc + 1) →
            exec .extend s = .fault (.notAdmitted .word (s.bufAddr (wc + 1)) .write)))) ∧
    (∀ (s : State) (a : Word),
      (admits s.platform .word a .read = false →
        hostStep (.memRead32 a) s = .fault (.notAdmitted .word a .read)) ∧
      (admits s.platform .byte a .read = false →
        hostStep (.memRead8 a) s = .fault (.notAdmitted .byte a .read)) ∧
      (admits s.platform .word a .write = false →
        ∀ v, hostStep (.memWrite32 a v) s = .fault (.notAdmitted .word a .write)) ∧
      (admits s.platform .byte a .write = false →
        ∀ v, hostStep (.memWrite8 a v) s = .fault (.notAdmitted .byte a .write))) ∧
    (∀ (s : State) (ts : List Turn) (r : Fault), s.schedule = .host :: ts → hostAct (s.setSchedule ts) = .fault r →
      step s = .next (s.setSchedule ts)) ∧
    (∀ (s : State) (ts : List Turn) (r : Fault), s.schedule = .engine :: ts → s.status.busy = true →
      microStep (s.setSchedule ts) = .fault r → step s = .next (s.setSchedule ts)) ∧
    (∀ (s : State) (r : Fault), s.schedule = [] → s.program = [] → s.status.busy = true → microStep s = .fault r →
      step s = .fault r)

/-- R56: whatever the step (a host access, a command, a micro-step, a hardware reset), a byte of memory that it changes
belongs to a word or a byte whose write the platform admits. That the host's own memory writes go through MEM_ADMIT is
the model's reading (log 10). -/
def Obligations.MemoryChangesOnlyWhereAdmitted : Prop :=
  ∀ (s t : State) (c : Nat), step s = .next t → t.mem.get c ≠ s.mem.get c → s.writable c

/-! ### Acceptance and control commands -/

/-- R171: while busy or faulted every CMD write but the exact RESET word is dropped and sets OVR, which stays 1 until
reset. -/
def Obligations.DroppedWhileBusyOrFaulted : Prop :=
  (∀ (s : State) (v : Word), s.status.busy = true ∨ s.status.fault = true → v ≠ 0xF0000000#32 →
    writeReg s v .cmd = .next { s with status := { s.status with ovr := true } }) ∧
    (∀ s t : State, s.status.ovr = true → step s = .next t → t.status.ovr = true ∨ t.registersReset)

/-- R175: NOP changes nothing when accepted, is dropped otherwise, and is the one word with OPC = 0 that is legal. -/
def Obligations.NopDoesNothing : Prop :=
  (∀ s : State, s.accepting → exec .nop s = .next s) ∧
    (∀ s : State, s.status.busy = true ∨ s.status.fault = true →
      exec .nop s = .next { s with status := { s.status with ovr := true } }) ∧
    decode 0x00000000#32 = some .nop ∧
    (∀ w : Word, w.extractLsb' 28 4 = 0#4 → w ≠ 0#32 → decode w = none) ∧
    (∃ t, writeReg State.reset 0#32 .cmd = .next t ∧ readReg t .status = 8#32)

/-- R176: RESET runs in every state, sets these registers, keeps ARGs and memory, and no further micro-step of a
running pass is taken; only the exact word is RESET, and no other command word leaves the fault state. What the hidden
sequencer then holds is left open (R28) and not spoken of. -/
def Obligations.ResetCommand : Prop :=
  (∀ s : State, ∃ t, exec .reset s = .next t ∧ writeReg s 0xF0000000#32 .cmd = .next t ∧
    t = { s with
      buf := { base := 0#32, cap := 0#32, wc := 0#32, bo := 0#5, bw := 32#6 }
      result := 0#32
      status := { busy := false, fault := false, ovr := false, fcode := 0#4 }
      pass := t.pass } ∧
    readReg t .status = 8#32 ∧ engineAct t = .next t) ∧
    (∀ w : Word, w.extractLsb' 28 4 = 0xF#4 → w ≠ 0xF0000000#32 → decode w = none) ∧
    (∀ (s t : State) (v : Word), s.status.fault = true → writeReg s v .cmd = .next t → v ≠ 0xF0000000#32 →
      t.status.fault = true)

/-- As R200, R202 and the model's choices of log 18: hardware reset sets these registers and touches no memory; the RESET command differs from it only in
keeping the ARGs; `State.resetOn` has the same registers on every platform. The sequencer's values are left open there
(R28) and not spoken of here. That a hardware reset is a turn of the schedule, and that it keeps the host's program,
the rest of the schedule, the recorded reads and the free-value count, is the model's choice (log 18). -/
def Obligations.HardwareReset : Prop :=
  (∀ (s : State) (ts : List Turn), s.schedule = .hardReset :: ts → ∃ t, step s = .next t ∧
    t.buf = { base := 0#32, cap := 0#32, wc := 0#32, bo := 0#5, bw := 32#6 } ∧
    t.args = { arg0 := 0#32, arg1 := 0#32, arg2 := 0#32, arg3 := 0#32, arg4 := 0#32, arg5 := 0#32, arg6 := 0#32 } ∧
    t.result = 0#32 ∧ t.status = { busy := false, fault := false, ovr := false, fcode := 0#4 } ∧
    t.statusWord = 8#32 ∧ t.mem = s.mem ∧ engineAct t = .next t ∧
    ∃ u, exec .reset (s.setSchedule ts) = .next u ∧ u = { t with args := s.args, pass := u.pass }) ∧
    (∀ p : Platform,
      (State.resetOn p).buf = { base := 0#32, cap := 0#32, wc := 0#32, bo := 0#5, bw := 32#6 } ∧
      (State.resetOn p).args =
        { arg0 := 0#32, arg1 := 0#32, arg2 := 0#32, arg3 := 0#32, arg4 := 0#32, arg5 := 0#32, arg6 := 0#32 } ∧
      (State.resetOn p).result = 0#32 ∧ (State.resetOn p).statusWord = 8#32)

/-! ### The datapath -/

/-- R101, R105: `slice` as the source's formula and as a field, and `merge` in both forms and bit by bit, for both
element widths and every legal range; positions are MSB-first (R9). -/
def Obligations.DatapathFunctions : Prop :=
  ∀ N : Nat, N = 8 ∨ N = 32 → ∀ (v : BitVec N) (b : Word) (s t : Nat), s < t → t ≤ N →
    (slice v s t).toNat = v.toNat / 2 ^ (N - t) % 2 ^ (t - s) ∧
      (slice v s t).toNat = (v.extractLsb' (N - t) (t - s)).toNat ∧ slice v 0 N = v ∧
      merge v b s t = v ^^^ ((slice v s t ^^^ (b.setWidth N &&& BitVec.ofNat N (2 ^ (t - s) - 1))) <<< (N - t)) ∧
      merge v b s t =
        (v &&& ~~~(BitVec.ofNat N (2 ^ (t - s) - 1) <<< (N - t))) |||
          ((b.setWidth N &&& BitVec.ofNat N (2 ^ (t - s) - 1)) <<< (N - t)) ∧
      ∀ p, p < N → (merge v b s t).getMsbD p = if s ≤ p ∧ p < t then b.getLsbD (t - 1 - p) else v.getMsbD p

/-- R108: the four laws of the datapath. -/
def Obligations.DatapathLaws : Prop :=
  ∀ N : Nat, N = 8 ∨ N = 32 → ∀ (e : BitVec N) (b b1 b2 : Word) (s t : Nat), s < t → t ≤ N →
    (slice (merge e b s t) s t).toNat = b.toNat % 2 ^ (t - s) ∧
      merge e ((slice e s t).setWidth 32) s t = e ∧
      (∀ p, p < N → ¬(s ≤ p ∧ p < t) → (merge e b s t).getMsbD p = e.getMsbD p) ∧
      merge (merge e b1 s t) b2 s t = merge e b2 s t

/-- R102, R103: SLICE32 and SLICE8, encoding, result, frame and InvalidRange, with START and STOP of every value. -/
def Obligations.SliceCommands : Prop :=
  ∀ a b : BitVec 6,
    (decode (0x50000000#32 ||| (a.setWidth 32 <<< 20) ||| (b.setWidth 32 <<< 14)) = some (.slice32 a.toNat b.toNat) ∧
      ∀ s : State, s.accepting →
        (a.toNat < b.toNat ∧ b.toNat ≤ 32 → exec (.slice32 a.toNat b.toNat) s = .next { s with
          result := BitVec.ofNat 32 (s.args.arg0.toNat / 2 ^ (32 - b.toNat) % 2 ^ (b.toNat - a.toNat)) }) ∧
        (¬(a.toNat < b.toNat ∧ b.toNat ≤ 32) → exec (.slice32 a.toNat b.toNat) s = .next (s.faulted 1#4))) ∧
    (decode (0x54000000#32 ||| (a.setWidth 32 <<< 20) ||| (b.setWidth 32 <<< 14)) = some (.slice8 a.toNat b.toNat) ∧
      ∀ s : State, s.accepting →
        (a.toNat < b.toNat ∧ b.toNat ≤ 8 → exec (.slice8 a.toNat b.toNat) s = .next { s with
          result := BitVec.ofNat 32 (s.args.arg0.toNat % 256 / 2 ^ (8 - b.toNat) % 2 ^ (b.toNat - a.toNat)) }) ∧
        (¬(a.toNat < b.toNat ∧ b.toNat ≤ 8) → exec (.slice8 a.toNat b.toNat) s = .next (s.faulted 1#4)))

/-- R106, R107: MERGE32 and MERGE8, encoding, result bit by bit (MSB-first positions of the element), frame and
InvalidRange, with START and STOP of every value. -/
def Obligations.MergeCommands : Prop :=
  ∀ a b : BitVec 6,
    (decode (0x60000000#32 ||| (a.setWidth 32 <<< 20) ||| (b.setWidth 32 <<< 14)) = some (.merge32 a.toNat b.toNat) ∧
      ∀ s : State, s.accepting →
        (a.toNat < b.toNat ∧ b.toNat ≤ 32 → ∃ v : Word,
          exec (.merge32 a.toNat b.toNat) s = .next { s with result := v } ∧
            ∀ p, p < 32 → v.getMsbD p =
              if a.toNat ≤ p ∧ p < b.toNat then s.args.arg1.getLsbD (b.toNat - 1 - p) else s.args.arg0.getMsbD p) ∧
        (¬(a.toNat < b.toNat ∧ b.toNat ≤ 32) → exec (.merge32 a.toNat b.toNat) s = .next (s.faulted 1#4))) ∧
    (decode (0x64000000#32 ||| (a.setWidth 32 <<< 20) ||| (b.setWidth 32 <<< 14)) = some (.merge8 a.toNat b.toNat) ∧
      ∀ s : State, s.accepting →
        (a.toNat < b.toNat ∧ b.toNat ≤ 8 → ∃ v : Byte,
          exec (.merge8 a.toNat b.toNat) s = .next { s with result := v.setWidth 32 } ∧
            ∀ p, p < 8 → v.getMsbD p =
              if a.toNat ≤ p ∧ p < b.toNat then s.args.arg1.getLsbD (b.toNat - 1 - p)
              else s.args.arg0.getLsbD (7 - p)) ∧
        (¬(a.toNat < b.toNat ∧ b.toNat ≤ 8) → exec (.merge8 a.toNat b.toNat) s = .next (s.faulted 1#4)))

/-! ### The buffer commands -/

/-- R121: INIT, encoding, descriptor, EXH and InvalidRange, with STOP of every value; no memory access, so no premise
on the platform. -/
def Obligations.InitCommand : Prop :=
  ∀ b : BitVec 6,
    decode (0x10000000#32 ||| (b.setWidth 32 <<< 14)) = some (.init b.toNat) ∧
      ∀ s : State, s.accepting →
        (1 ≤ b.toNat ∧ b.toNat ≤ 32 → ∃ t, exec (.init b.toNat) s = .next t ∧
          t = { s with
            buf :=
              { base := s.args.arg1, cap := BitVec.ofNat 32 (min ((s.args.arg0.toNat + 31) / 32) s.args.arg2.toNat),
                wc := 0#32, bo := 0#5, bw := b } } ∧
          t.buf.cap.toNat = min ((s.args.arg0.toNat + 31) / 32) s.args.arg2.toNat ∧
          (t.exhausted = true ↔ t.buf.cap = 0#32)) ∧
        (¬(1 ≤ b.toNat ∧ b.toNat ≤ 32) → exec (.init b.toNat) s = .next (s.faulted 1#4))

/-- R124: EXTEND. With the block width in its range and the requests it makes admitted: the faults, in the order of
the rule's checks; a block that fits; a block that straddles. Nothing but the cursor and the words named changes. -/
def Obligations.ExtendCommand : Prop :=
  ∀ (s : State) (w b wc cap x : Nat) (cw nw : Word),
    s.mem.wf = true → s.accepting → w = s.buf.bw.toNat → b = s.buf.bo.toNat → wc = s.buf.wc.toNat →
    cap = s.buf.cap.toNat → x = s.args.arg0.toNat % 2 ^ w → cw = s.bufferWord wc → nw = s.bufferWord (wc + 1) →
    1 ≤ w → w ≤ 32 →
    (cap ≤ wc → exec .extend s = .next (s.faulted 2#4)) ∧
    (wc < cap → s.canRead wc →
      (b = 0 → cw ≠ 0#32 → exec .extend s = .next (s.faulted 3#4)) ∧
      (b + w = 32 → (b = 0 → cw = 0#32) → wc + 1 < cap → s.canRead (wc + 1) → nw ≠ 0#32 →
        exec .extend s = .next (s.faulted 3#4)) ∧
      (b + w ≤ 32 → (b = 0 → cw = 0#32) → (b + w = 32 → wc + 1 < cap → s.canRead (wc + 1) ∧ nw = 0#32) →
        s.canWrite wc → ∃ t, exec .extend s = .next t ∧
          t = { s with
            buf := { s.buf with wc := BitVec.ofNat 32 (wc + (b + w) / 32), bo := BitVec.ofNat 5 ((b + w) % 32) }
            mem := t.mem } ∧
          t.wordAt (s.bufAddr wc) = cw ||| BitVec.ofNat 32 (x * 2 ^ (32 - b - w)) ∧
          sameMemoryExcept (wordCells (s.bufAddr wc)) s t) ∧
      (32 < b + w → cap ≤ wc + 1 → exec .extend s = .next (s.faulted 2#4)) ∧
      (32 < b + w → wc + 1 < cap → s.canRead (wc + 1) → nw ≠ 0#32 → exec .extend s = .next (s.faulted 3#4)) ∧
      (32 < b + w → wc + 1 < cap → s.canRead (wc + 1) → nw = 0#32 → s.canWrite wc → s.canWrite (wc + 1) →
        ∃ t, exec .extend s = .next t ∧
          t = { s with
            buf := { s.buf with wc := BitVec.ofNat 32 (wc + 1), bo := BitVec.ofNat 5 (b + w - 32) }
            mem := t.mem } ∧
          t.wordAt (s.bufAddr wc) = cw ||| BitVec.ofNat 32 (x / 2 ^ (b + w - 32)) ∧
          t.wordAt (s.bufAddr (wc + 1)) =
            BitVec.ofNat 32 (x % 2 ^ (b + w - 32) * 2 ^ (32 - (b + w - 32))) ∧
          sameMemoryExcept (wordCells (s.bufAddr wc) ++ wordCells (s.bufAddr (wc + 1))) s t))

/-- R130: NEXT, its two BufferOverflow cases, a block that fits and a block that straddles. Memory is unchanged. -/
def Obligations.NextCommand : Prop :=
  ∀ (s : State) (w b wc cap : Nat) (cw nw : Word),
    s.accepting → w = s.buf.bw.toNat → b = s.buf.bo.toNat → wc = s.buf.wc.toNat → cap = s.buf.cap.toNat →
    cw = s.bufferWord wc → nw = s.bufferWord (wc + 1) → 1 ≤ w → w ≤ 32 →
    (cap ≤ wc → exec .next s = .next (s.faulted 2#4)) ∧
    (wc < cap → s.canRead wc →
      (b + w ≤ 32 → exec .next s = .next { s with
        buf := { s.buf with wc := BitVec.ofNat 32 (wc + (b + w) / 32), bo := BitVec.ofNat 5 ((b + w) % 32) }
        result := BitVec.ofNat 32 (cw.toNat / 2 ^ (32 - (b + w)) % 2 ^ w) }) ∧
      (32 < b + w → cap ≤ wc + 1 → exec .next s = .next (s.faulted 2#4)) ∧
      (32 < b + w → wc + 1 < cap → s.canRead (wc + 1) → exec .next s = .next { s with
        buf := { s.buf with wc := BitVec.ofNat 32 (wc + 1), bo := BitVec.ofNat 5 (b + w - 32) }
        result := BitVec.ofNat 32
          (cw.toNat % 2 ^ (32 - b) * 2 ^ (b + w - 32) + nw.toNat / 2 ^ (32 - (b + w - 32))) }))

/-- R135: FILL, with BO = 0, with no current word, and padding. Nothing but word WC changes. -/
def Obligations.FillCommand : Prop :=
  ∀ (s : State) (b wc : Nat), s.mem.wf = true → s.accepting → b = s.buf.bo.toNat → wc = s.buf.wc.toNat →
    (b = 0 → exec .fill s = .next s) ∧
    (b ≠ 0 → s.buf.cap.toNat ≤ wc → exec .fill s = .next (s.faulted 2#4)) ∧
    (b ≠ 0 → wc < s.buf.cap.toNat → s.canRead wc → s.canWrite wc → ∃ t, exec .fill s = .next t ∧
      t = { s with mem := t.mem } ∧
      t.wordAt (s.bufAddr wc) = s.bufferWord wc ||| BitVec.ofNat 32 (s.args.arg0.toNat / 2 ^ b) ∧
      sameMemoryExcept (wordCells (s.bufAddr wc)) s t)

/-- R136: FILL leaves the descriptor and RESULT alone, alters only MSB-first positions `[BO, 32)` of word WC, changes
nothing when repeated with the same pattern, and ORs in another pattern's bits as well. -/
def Obligations.FillIsLocalAndIdempotent : Prop :=
  ∀ s t : State, s.mem.wf = true → s.accepting → exec .fill s = .next t → t.status.fault = false →
    t.buf = s.buf ∧ t.result = s.result ∧ exec .fill t = .next t ∧
      (∀ (a : Word) (p : Nat), p < 32 → (t.wordAt a).getMsbD p ≠ (s.wordAt a).getMsbD p →
        a = s.bufAddr s.buf.wc.toNat ∧ s.buf.bo.toNat ≤ p) ∧
      (∀ (q : Word), ∃ u, exec .fill (t.withArg0 q) = .next u ∧
        (s.buf.bo ≠ 0#5 → u.bufferWord s.buf.wc.toNat = t.bufferWord s.buf.wc.toNat ||| (q >>> s.buf.bo.toNat)))

/-- R126: a successful EXTEND or NEXT moves the cursor by BW bits, and `n` of them since an INIT, in any mix and with
any ARG0, leave it after `n * BW` bits. -/
def Obligations.CursorAdvance : Prop :=
  (∀ (s t : State) (i : Instr), s.cursorInRange → s.accepting → i = .extend ∨ i = .next → exec i s = .next t →
    t.status.fault = false →
    t.buf.wc.toNat = s.buf.wc.toNat + (s.buf.bo.toNat + s.buf.bw.toNat) / 32 ∧
      t.buf.bo.toNat = (s.buf.bo.toNat + s.buf.bw.toNat) % 32) ∧
    (∀ (s t0 t : State) (totalBits base len : Word) (bw : Nat) (l : List (Instr × Word)), s.accepting → 1 ≤ bw →
      bw ≤ 32 → (∀ c ∈ l, c.1 = .extend ∨ c.1 = .next) → initWith totalBits base len bw s = .next t0 →
      commandAll l t0 = some t →
      t.buf.wc.toNat = l.length * bw / 32 ∧ t.buf.bo.toNat = l.length * bw % 32)

/-- R21: while only EXTEND writes the buffer, every bit beyond the cursor stays zero, and an EXTEND changes no bit
before it. -/
def Obligations.BitsBeyondCursorStayZero : Prop :=
  ∀ s t : State, s.mem.wf = true → s.cursorInRange → s.accepting → exec .extend s = .next t →
    t.status.fault = false →
    (∀ j, s.position ≤ j → j < 32 * s.buf.cap.toNat → s.streamBit j = false) →
    (∀ j, t.position ≤ j → j < 32 * t.buf.cap.toNat → t.streamBit j = false) ∧
      ∀ j, j < s.position → t.streamBit j = s.streamBit j

/-- R133: what n EXTENDs append, n NEXTs read back, a FILL in between or not; block i occupies stream bits
`[i * BW, (i + 1) * BW)`. -/
def Obligations.MirrorLaw : Prop :=
  ∀ (s t0 t t' t1 : State) (totalBits base len p : Word) (bw : Nat) (xs : List Word),
    s.mem.wf = true → s.accepting → 1 ≤ bw → bw ≤ 32 →
    initWith totalBits base len bw s = .next t0 →
    (∀ i, i < t0.buf.cap.toNat → t0.bufferWord i = 0#32) →
    extendAll xs t0 = some t →
    (t' = t ∨ (exec .fill (t.withArg0 p) = .next t' ∧ t'.status.fault = false)) →
    initWith totalBits base len bw t' = .next t1 →
    (∃ u, nextAll xs.length t1 = some (xs.map fun x => BitVec.ofNat 32 (x.toNat % 2 ^ bw), u)) ∧
      ∀ (i : Nat) (hi : i < xs.length) (j : Nat), j < bw → t.streamBit (i * bw + j) = xs[i].getLsbD (bw - 1 - j)

/-! ### The passes -/

/-- R151, R152: the first part of each of the four pass commands, in range and out of range; no memory access, so no
premise on the platform. -/
def Obligations.PassFirstPart : Prop :=
  ∀ (s : State) (a b : Nat), s.accepting →
    ∀ c ∈ [(Instr.extract32 a b, PassOp.extract, ElemWidth.w32, 32, s.args.arg1.toNat * s.args.arg2.toNat),
        (Instr.extract8 a b, PassOp.extract, ElemWidth.w8, 8,
          s.args.arg1.toNat * s.args.arg2.toNat * s.args.arg3.toNat),
        (Instr.insert32 a b, PassOp.insert, ElemWidth.w32, 32, s.args.arg1.toNat * s.args.arg2.toNat),
        (Instr.insert8 a b, PassOp.insert, ElemWidth.w8, 8,
          s.args.arg1.toNat * s.args.arg2.toNat * s.args.arg3.toNat)],
      (a < b ∧ b ≤ c.2.2.2.1 → ∃ t, exec c.1 s = .next t ∧
        t = { s with
          pass :=
            { op := c.2.1, ew := c.2.2.1, start := BitVec.ofNat 6 a, stop := BitVec.ofNat 6 b, mbase := s.args.arg0,
              count := c.2.2.2.2, fill := s.args.arg6, k := 0 }
          buf :=
            { base := s.args.arg4, cap := t.buf.cap, wc := 0#32, bo := 0#5, bw := BitVec.ofNat 6 (b - a) }
          status := { s.status with busy := true } } ∧
        t.buf.cap.toNat = min ((c.2.2.2.2 * (b - a) + 31) / 32) s.args.arg5.toNat ∧
        t.pass.start.toNat = a ∧ t.pass.stop.toNat = b ∧ t.buf.bw.toNat = b - a) ∧
      (¬(a < b ∧ b ≤ c.2.2.2.1) → exec c.1 s = .next (s.faulted 1#4))

/-- R162: a pass over no elements sets CAP = 0 and BUSY = 1 and completes in the engine's next micro-step with
RESULT = 0, without touching memory. -/
def Obligations.EmptyPassCompletes : Prop :=
  ∀ (s : State) (a b : Nat), s.accepting →
    ∀ c ∈ [(Instr.extract32 a b, 32, s.args.arg1.toNat * s.args.arg2.toNat),
        (Instr.extract8 a b, 8, s.args.arg1.toNat * s.args.arg2.toNat * s.args.arg3.toNat),
        (Instr.insert32 a b, 32, s.args.arg1.toNat * s.args.arg2.toNat),
        (Instr.insert8 a b, 8, s.args.arg1.toNat * s.args.arg2.toNat * s.args.arg3.toNat)],
      a < b → b ≤ c.2.1 → c.2.2 = 0 →
        ∃ t, exec c.1 s = .next t ∧ t.buf.cap = 0#32 ∧ t.status.busy = true ∧
          engineAct t = .next { t with result := 0#32, status := { t.status with busy := false } }

/-- R153: an extract element micro-step is the EXTEND of the element's slice: it has EXTEND's effect on the cursor and
memory and advances K; where that EXTEND would fault, the pass faults and RESULT is K (R187); where it would not
occur, nor does the micro-step. The element is `e`: a word, or a byte that does not alias the buffer. The element is read
before EXTEND_core's checks: where the platform does not admit that read, the micro-step does not occur (R56), whatever
the buffer holds and whether or not the byte aliases it. -/
def Obligations.ExtractElementStep : Prop :=
  (∀ s : State, s.status.busy = true → s.pass.op = .extract → s.pass.k < s.pass.count →
    (s.pass.ew = .w32 → admits s.platform .word (s.elemAddr s.pass.k) .read = false →
      engineAct s = .fault (.notAdmitted .word (s.elemAddr s.pass.k) .read)) ∧
    (s.pass.ew = .w8 → admits s.platform .byte (s.elemAddr s.pass.k) .read = false →
      engineAct s = .fault (.notAdmitted .byte (s.elemAddr s.pass.k) .read))) ∧
  ∀ (s c : State) (e : Word), s.status.busy = true → s.pass.op = .extract → s.pass.k < s.pass.count →
    s.pass.start.toNat < s.pass.stop.toNat → s.pass.stop.toNat ≤ s.pass.ew.bits →
    (s.pass.ew = .w32 → admits s.platform .word (s.elemAddr s.pass.k) .read = true ∧
      e = s.wordAt (s.elemAddr s.pass.k)) →
    (s.pass.ew = .w8 → admits s.platform .byte (s.elemAddr s.pass.k) .read = true ∧
      s.byteAliasesBuffer (s.elemAddr s.pass.k) = false ∧ e = (s.byteAt (s.elemAddr s.pass.k)).setWidth 32) →
    c = { s with
      status := { s.status with busy := false, fault := false }
      args := { s.args with
        arg0 := BitVec.ofNat 32 (e.toNat / 2 ^ (s.pass.ew.bits - s.pass.stop.toNat) %
          2 ^ (s.pass.stop.toNat - s.pass.start.toNat)) } } →
    (∀ t, exec .extend c = .next t → t.status.fault = false →
      engineAct s = .next { s with buf := t.buf, mem := t.mem, pass := { s.pass with k := s.pass.k + 1 } }) ∧
      (∀ t, exec .extend c = .next t → t.status.fault = true →
        engineAct s = .next { s.faulted t.status.fcode with result := BitVec.ofNat 32 s.pass.k }) ∧
      (∀ r, exec .extend c = .fault r → engineAct s = .fault r)

/-- R157: an insert element micro-step is the NEXT that yields the block and the merge of that block into the element:
the element's bits `[start, stop)` become the block's low bits, every other byte of memory is unchanged, and K
advances; where that NEXT would fault, the pass faults and RESULT is K (R187); where it would not occur, nor does the
micro-step; where it succeeds and the platform does not admit the read or the write of the element, the micro-step does
not occur (R56). In an 8-bit pass no location read is an aliased one (those read as any value). -/
def Obligations.InsertElementStep : Prop :=
  ∀ s c : State, s.mem.wf = true → s.status.busy = true → s.pass.op = .insert → s.pass.k < s.pass.count →
    s.pass.start.toNat < s.pass.stop.toNat → s.pass.stop.toNat ≤ s.pass.ew.bits →
    (s.pass.ew = .w8 → s.wordAliasesWritten (s.bufAddr s.buf.wc.toNat) = false ∧
      s.wordAliasesWritten (s.bufAddr (s.buf.wc.toNat + 1)) = false ∧
      s.byteAliasesBuffer (s.elemAddr s.pass.k) = false) →
    c = { s with status := { s.status with busy := false, fault := false } } →
    (∀ t, exec .next c = .next t → t.status.fault = false →
      (s.pass.ew = .w32 → admits s.platform .word (s.elemAddr s.pass.k) .read = false →
        engineAct s = .fault (.notAdmitted .word (s.elemAddr s.pass.k) .read)) ∧
      (s.pass.ew = .w32 → admits s.platform .word (s.elemAddr s.pass.k) .read = true →
        admits s.platform .word (s.elemAddr s.pass.k) .write = false →
        engineAct s = .fault (.notAdmitted .word (s.elemAddr s.pass.k) .write)) ∧
      (s.pass.ew = .w8 → admits s.platform .byte (s.elemAddr s.pass.k) .read = false →
        engineAct s = .fault (.notAdmitted .byte (s.elemAddr s.pass.k) .read)) ∧
      (s.pass.ew = .w8 → admits s.platform .byte (s.elemAddr s.pass.k) .read = true →
        admits s.platform .byte (s.elemAddr s.pass.k) .write = false →
        engineAct s = .fault (.notAdmitted .byte (s.elemAddr s.pass.k) .write)) ∧
      (s.pass.ew = .w32 → admits s.platform .word (s.elemAddr s.pass.k) .read = true →
        admits s.platform .word (s.elemAddr s.pass.k) .write = true →
        ∃ u, engineAct s = .next u ∧
          u = { s with buf := t.buf, mem := u.mem, pass := { s.pass with k := s.pass.k + 1 } } ∧
          sameMemoryExcept (wordCells (s.elemAddr s.pass.k)) s u ∧
          ∀ p, p < 32 → (u.wordAt (s.elemAddr s.pass.k)).getMsbD p =
            if s.pass.start.toNat ≤ p ∧ p < s.pass.stop.toNat then t.result.getLsbD (s.pass.stop.toNat - 1 - p)
            else (s.wordAt (s.elemAddr s.pass.k)).getMsbD p) ∧
      (s.pass.ew = .w8 → admits s.platform .byte (s.elemAddr s.pass.k) .read = true →
        admits s.platform .byte (s.elemAddr s.pass.k) .write = true →
        ∃ u, engineAct s = .next u ∧
          u = { s with buf := t.buf, mem := u.mem, pass := { s.pass with k := s.pass.k + 1 } } ∧
          sameMemoryExcept [byteCell s.platform (s.elemAddr s.pass.k)] s u ∧
          ∀ p, p < 8 → (u.byteAt (s.elemAddr s.pass.k)).getMsbD p =
            if s.pass.start.toNat ≤ p ∧ p < s.pass.stop.toNat then t.result.getLsbD (s.pass.stop.toNat - 1 - p)
            else (s.byteAt (s.elemAddr s.pass.k)).getMsbD p)) ∧
      (∀ t, exec .next c = .next t → t.status.fault = true →
        engineAct s = .next { s.faulted t.status.fcode with result := BitVec.ofNat 32 s.pass.k }) ∧
      (∀ r, exec .next c = .fault r → engineAct s = .fault r)

/-- R154, R158: the completion micro-steps. Extract pads as FILL does with P_FILL and reports CAP; where that FILL
would fault, the pass faults and RESULT is the count (R187); insert reports the count; both clear BUSY; after a pass
the cursor stands after `count` blocks. -/
def Obligations.CompletionSteps : Prop :=
  ∀ s c : State, s.status.busy = true → s.status.fault = false → s.pass.k = s.pass.count → s.passConsistent →
    c = { s with status := { s.status with busy := false }, args := { s.args with arg0 := s.pass.fill } } →
    (s.pass.op = .extract →
      (∀ t, exec .fill c = .next t → t.status.fault = false → engineAct s = .next { s with
        mem := t.mem, result := s.buf.cap, status := { s.status with busy := false } }) ∧
      (∀ t, exec .fill c = .next t → t.status.fault = true → engineAct s = .next
        { s.faulted t.status.fcode with result := BitVec.ofNat 32 s.pass.count }) ∧
      (∀ r, exec .fill c = .fault r → engineAct s = .fault r)) ∧
    (s.pass.op = .insert → engineAct s = .next { s with
      result := BitVec.ofNat 32 s.pass.count, status := { s.status with busy := false } }) ∧
    s.buf.wc.toNat = s.pass.count * s.buf.bw.toNat / 32 ∧ s.buf.bo.toNat = s.pass.count * s.buf.bw.toNat % 32

/-- R210, I3 (the reading of 'a written matrix byte' is the model's, log 5): which words count as written by a running
insert, and that an aliased read of an 8-bit pass completes with some value, drawing free values and changing nothing
else. -/
def Obligations.AliasedReadsCompleteWithAnyValue : Prop :=
  (∀ (s : State) (w : Word), s.wordAliasesWritten w = true ↔
    ∃ k l, k < s.pass.k ∧ aliasOf s.platform.aliasRuns (s.elemAddr k) = some (w, l)) ∧
    (∀ (s : State) (a : Word), s.byteAliasesBuffer a = true ↔
      ∃ i l, i < s.buf.cap.toNat ∧ aliasOf s.platform.aliasRuns a = some (s.bufAddr i, l)) ∧
    (∀ (s : State) (a : Word), s.pass.ew = .w8 → s.byteAliasesBuffer a = true →
      admits s.platform .byte a .read = true →
      ∃ v : Byte, readElement s a = .ok (v.setWidth 32, s.setFreeCount (s.freeCount + 1))) ∧
    (∀ (s : State) (a : Word), s.status.busy = true → s.pass.op = .insert → s.pass.ew = .w8 →
      s.wordAliasesWritten a = true → admits s.platform .word a .read = true →
      ∃ v : Word, readBuffer s a = .ok (v, s.setFreeCount (s.freeCount + 1)))

/-- R153, R157 and R210 in the 8-bit passes whose matrix aliases the buffer (which value an aliased read gives is
free, log 5). An extract micro-step whose element aliases the buffer is the EXTEND of the slice of some byte. An insert
micro-step, whatever it aliases, moves the cursor as NEXT does and writes only element K, whose bits outside the range
stay where the element is not itself an aliased byte. The faults and the requests that are not admitted are as without
the alias. -/
def Obligations.AliasedElementSteps : Prop :=
  (∀ s : State, s.status.busy = true → s.pass.op = .extract → s.pass.ew = .w8 → s.pass.k < s.pass.count →
    s.pass.start.toNat < s.pass.stop.toNat → s.pass.stop.toNat ≤ 8 →
    s.byteAliasesBuffer (s.elemAddr s.pass.k) = true →
    admits s.platform .byte (s.elemAddr s.pass.k) .read = true →
    ∃ v : Byte, ∀ c : State, c = { s with
        status := { s.status with busy := false, fault := false }
        args := { s.args with
          arg0 := BitVec.ofNat 32
            (v.toNat / 2 ^ (8 - s.pass.stop.toNat) % 2 ^ (s.pass.stop.toNat - s.pass.start.toNat)) } } →
      (∀ t, exec .extend c = .next t → t.status.fault = false → engineAct s = .next { s with
        buf := t.buf, mem := t.mem, pass := { s.pass with k := s.pass.k + 1 }, freeCount := s.freeCount + 1 }) ∧
      (∀ t, exec .extend c = .next t → t.status.fault = true →
        engineAct s = .next { s.faulted t.status.fcode with result := BitVec.ofNat 32 s.pass.k }) ∧
      (∀ r, exec .extend c = .fault r → engineAct s = .fault r)) ∧
    (∀ s c : State, s.mem.wf = true → s.status.busy = true → s.pass.op = .insert → s.pass.ew = .w8 →
      s.pass.k < s.pass.count → s.pass.start.toNat < s.pass.stop.toNat → s.pass.stop.toNat ≤ 8 →
      c = { s with status := { s.status with busy := false, fault := false } } →
      (∀ t, exec .next c = .next t → t.status.fault = false →
        (admits s.platform .byte (s.elemAddr s.pass.k) .read = false →
          engineAct s = .fault (.notAdmitted .byte (s.elemAddr s.pass.k) .read)) ∧
        (admits s.platform .byte (s.elemAddr s.pass.k) .read = true →
          admits s.platform .byte (s.elemAddr s.pass.k) .write = false →
          engineAct s = .fault (.notAdmitted .byte (s.elemAddr s.pass.k) .write))) ∧
      (∀ t, exec .next c = .next t → t.status.fault = false →
        admits s.platform .byte (s.elemAddr s.pass.k) .read = true →
        admits s.platform .byte (s.elemAddr s.pass.k) .write = true →
        ∃ u, engineAct s = .next u ∧
          u = { s with
            buf := t.buf, mem := u.mem, pass := { s.pass with k := s.pass.k + 1 }, freeCount := u.freeCount } ∧
          sameMemoryExcept [byteCell s.platform (s.elemAddr s.pass.k)] s u ∧
          (s.byteAliasesBuffer (s.elemAddr s.pass.k) = false → ∀ p, p < 8 →
            ¬(s.pass.start.toNat ≤ p ∧ p < s.pass.stop.toNat) →
            (u.byteAt (s.elemAddr s.pass.k)).getMsbD p = (s.byteAt (s.elemAddr s.pass.k)).getMsbD p)) ∧
      (∀ t, exec .next c = .next t → t.status.fault = true →
        engineAct s = .next { s.faulted t.status.fcode with result := BitVec.ofNat 32 s.pass.k }) ∧
      (∀ r, exec .next c = .fault r → engineAct s = .fault r))

/-- R59, R51, R52: what a micro-step may change. An extract writes only the cells of buffer words WC and WC + 1, of
index below CAP; an insert writes only the cells of element K, and its completion none; and the host's registers, the
platform and the host's side are untouched. -/
def Obligations.PassFrame : Prop :=
  ∀ s t : State, s.status.busy = true → engineAct s = .next t →
    t.args = s.args ∧ t.platform = s.platform ∧ t.program = s.program ∧ t.schedule = s.schedule ∧
      t.observed = s.observed ∧ t.buf.base = s.buf.base ∧ t.buf.cap = s.buf.cap ∧ t.buf.bw = s.buf.bw ∧
      t.status.ovr = s.status.ovr ∧ t.pass = { s.pass with k := t.pass.k } ∧
      (s.pass.op = .extract → ∀ c, (∀ i, i = s.buf.wc.toNat ∨ i = s.buf.wc.toNat + 1 → i < s.buf.cap.toNat →
        c ∉ wordCells (s.bufAddr i)) → t.mem.get c = s.mem.get c) ∧
      (s.pass.op = .insert → sameMemoryExcept (s.elementCells s.pass.k) s t) ∧
      (s.pass.op = .insert → s.pass.count ≤ s.pass.k → t.mem = s.mem)

/-- R209: a host write of an ARG during a pass is performed at once, and the running pass is not changed by it: a
micro-step does the same whatever the ARGs hold. -/
def Obligations.PassIgnoresArgWrites : Prop :=
  (∀ (s : State) (v : Word),
    writeReg s v .arg0 = .next { s with args := { s.args with arg0 := v } } ∧
      writeReg s v .arg1 = .next { s with args := { s.args with arg1 := v } } ∧
      writeReg s v .arg2 = .next { s with args := { s.args with arg2 := v } } ∧
      writeReg s v .arg3 = .next { s with args := { s.args with arg3 := v } } ∧
      writeReg s v .arg4 = .next { s with args := { s.args with arg4 := v } } ∧
      writeReg s v .arg5 = .next { s with args := { s.args with arg5 := v } } ∧
      writeReg s v .arg6 = .next { s with args := { s.args with arg6 := v } }) ∧
    (∀ (s : State) (a : Args), s.status.busy = true →
      (∀ t, engineAct s = .next t → engineAct (s.setArgs a) = .next (t.setArgs a)) ∧
        (∀ r, engineAct s = .fault r → engineAct (s.setArgs a) = .fault r))

/-- R216: with every request admitted, a pass ends after at most `P_COUNT + 1` micro-steps, and after exactly that
many (counted from K) when it completes without a fault. The run has an empty schedule and no host steps: that the
engine then takes each step is the model's form of the weak fairness of R216 (log 2). -/
def Obligations.PassEndsWithinBound : Prop :=
  ∀ s : State, s.status.busy = true → s.status.fault = false → s.pass.k ≤ s.pass.count → s.program = [] →
    s.schedule = [] → s.allAdmitted →
    ∃ t : State, Sys2Proof.core.run (s.pass.count - s.pass.k + 1) s = .next t ∧ t.status.busy = false ∧
      (t.status.fault = false → ∀ m, m ≤ s.pass.count - s.pass.k →
        ∃ u : State, Sys2Proof.core.run m s = .next u ∧ u.status.busy = true)

/-- R163: an extract of a matrix and then an insert with the same range, shape and buffer into another matrix that
overlaps neither it nor the buffer both complete without fault; the second matrix then has the first one's bits in
`[a, b)` and its own elsewhere (positions count from the most significant bit of the element, R104). The runs have an
empty schedule and no host steps: that the engine then takes each step is the model's choice (log 2). -/
def Obligations.RoundTrip : Prop :=
  ∀ (ew : ElemWidth) (a b count words : Nat) (s : State) (m' : Word),
    s.mem.wf = true → s.accepting → s.program = [] → s.schedule = [] → s.allAdmitted → a < b → b ≤ ew.bits →
    count = elementCount ew s.args.arg1 s.args.arg2 s.args.arg3 → words = ceilDiv32 (count * (b - a)) →
    words ≤ s.args.arg5.toNat →
    (∀ i, i < words → s.wordAt (s.args.arg4 + BitVec.ofNat 32 i) = 0#32) →
    (∀ k i c, k < count → i < words → c ∈ wordCells (s.args.arg4 + BitVec.ofNat 32 i) →
      c ∉ s.matrixCells ew s.args.arg0 k ∧ c ∉ s.matrixCells ew m' k) →
    (∀ j k c, j < count → k < count → c ∈ s.matrixCells ew m' k →
      c ∉ s.matrixCells ew s.args.arg0 j ∧ (j ≠ k → c ∉ s.matrixCells ew m' j)) →
    ∃ s1 s2 s3 s4 : State,
      exec (passInstr .extract ew a b) s = .next s1 ∧ Sys2Proof.core.run (count + 1) s1 = .next s2 ∧ s2.accepting ∧
        exec (passInstr .insert ew a b) (s2.withArg0 m') = .next s3 ∧
        Sys2Proof.core.run (count + 1) s3 = .next s4 ∧ s4.accepting ∧
        ∀ k p, k < count → p < ew.bits →
          (s4.matrixElement ew m' k).getLsbD (ew.bits - 1 - p) =
            if a ≤ p ∧ p < b then (s.matrixElement ew s.args.arg0 k).getLsbD (ew.bits - 1 - p)
            else (s.matrixElement ew m' k).getLsbD (ew.bits - 1 - p)

/-! ### Faults -/

/-- R186, R187, R188: a step that raises a fault writes FAULT, FCODE and BUSY and, in a micro-step, the index in
RESULT, and no other register and no memory. Two clauses are the model's: that a faulting step draws no free value
(log 5), and that the index is P_COUNT also where K is above it, which no run reaches (log 13). -/
def Obligations.FaultsArePrecise : Prop :=
  ∀ s t : State, step s = .next t → s.status.fault = false → t.status.fault = true →
    t.buf = s.buf ∧ t.args = s.args ∧ t.pass = s.pass ∧ t.mem = s.mem ∧ t.platform = s.platform ∧
      t.freeCount = s.freeCount ∧ t.observed = s.observed ∧ t.status.busy = false ∧ t.status.ovr = s.status.ovr ∧
      1 ≤ t.status.fcode.toNat ∧ t.status.fcode.toNat ≤ 4 ∧
      t.result =
        if s.status.busy then BitVec.ofNat 32 (if s.pass.k < s.pass.count then s.pass.k else s.pass.count)
        else s.result

/-- R189, R190: in the fault state FAULT, FCODE and the frozen registers keep their values in every step, but for the
RESET command (a write of its word to CMD, in a step that is the host's) and hardware reset, which leave it; every
other CMD write is dropped. What the hidden sequencer then holds is left open (R28) and not spoken of. -/
def Obligations.FaultStateIsSticky : Prop :=
  (∀ (s : State) (v : Word), s.status.fault = true → v ≠ 0xF0000000#32 → writeReg s v .cmd = .next s.drop) ∧
    (∀ s : State, ∃ u, writeReg s 0xF0000000#32 .cmd = .next u ∧ u = { s.softReset with pass := u.pass }) ∧
  ∀ s t : State, s.status.fault = true → s.status.busy = false → step s = .next t →
    (t.status.fault = true ∧ t.status.busy = false ∧ t.status.fcode = s.status.fcode ∧ t.buf = s.buf ∧
        t.result = s.result) ∨
      (t.registersReset ∧ ((∃ ts, s.schedule = .hardReset :: ts) ∨
        ((s.schedule = [] ∨ ∃ ts, s.schedule = .host :: ts) ∧
          ∃ addr n hs, s.program = .regWrite addr n 0xF0000000#32 :: hs ∧ regAccess s.platform addr n = some .cmd)))

/-! ### Registers and memory as the host sees them -/

/-- R24: the register block: what a read of each register returns and that it changes nothing; that writes to
read-only registers and to 0x3C change nothing; that a write to CMD issues the command (an illegal word is dropped or
takes IllegalCommand, R170); and that any other width or alignment is refused. Three points are the model's: an address
outside the block is refused too (log 12), alignment is measured from REG_BASE (log 21), and a read is recorded in front
of the earlier ones (log 15). -/
def Obligations.RegisterBlock : Prop :=
  ∀ s : State,
    (∀ p ∈ [(0x00, 0#32), (0x04, s.statusWord), (0x08, s.result), (0x0C, s.buf.wc), (0x10, s.buf.bo.setWidth 32),
        (0x14, s.buf.bw.setWidth 32), (0x18, s.buf.cap), (0x1C, s.buf.base), (0x20, s.args.arg0),
        (0x24, s.args.arg1), (0x28, s.args.arg2), (0x2C, s.args.arg3), (0x30, s.args.arg4), (0x34, s.args.arg5),
        (0x38, s.args.arg6), (0x3C, 0#32)],
      hostStep (.regRead (s.platform.regBase + p.1) 4) s = .next { s with observed := p.2 :: s.observed }) ∧
    (∀ v : Word,
      (∀ off ∈ [0x04, 0x08, 0x0C, 0x10, 0x14, 0x18, 0x1C, 0x3C],
        hostStep (.regWrite (s.platform.regBase + off) 4 v) s = .next s) ∧
      (∀ p ∈ [(0x20, { s.args with arg0 := v }), (0x24, { s.args with arg1 := v }), (0x28, { s.args with arg2 := v }),
          (0x2C, { s.args with arg3 := v }), (0x30, { s.args with arg4 := v }), (0x34, { s.args with arg5 := v }),
          (0x38, { s.args with arg6 := v })],
        hostStep (.regWrite (s.platform.regBase + p.1) 4 v) s = .next { s with args := p.2 }) ∧
      (∀ i, decode v = some i → hostStep (.regWrite s.platform.regBase 4 v) s = exec i s) ∧
      (decode v = none → hostStep (.regWrite s.platform.regBase 4 v) s =
        .next (if s.status.busy || s.status.fault then { s with status := { s.status with ovr := true } }
          else s.faulted 4#4))) ∧
    (∀ (addr n : Nat) (v : Word),
      ¬(n = 4 ∧ s.platform.regBase ≤ addr ∧ (addr - s.platform.regBase) % 4 = 0 ∧ addr - s.platform.regBase < 64) →
        hostStep (.regRead addr n) s = .refused (.registerAccess addr n) ∧
          hostStep (.regWrite addr n v) s = .refused (.registerAccess addr n))

/-- R80: `poll` reads STATUS until BUSY = 0. Each turn of a `poll` at the head of the host's program records the STATUS
word and changes nothing else, and the `poll` stays at the head exactly while BUSY = 1. That a `poll` reads once a step,
and how its reads are recorded, is the model's choice (log 15). -/
def Obligations.PollReadsStatusUntilIdle : Prop :=
  ∀ (s : State) (hs : List HostStep), s.program = .poll :: hs →
    (s.status.busy = true → hostAct s = .next { s with observed := s.statusWord :: s.observed }) ∧
      (s.status.busy = false →
        hostAct s = .next { s with program := hs, observed := s.statusWord :: s.observed }) ∧
      (∀ ts, s.schedule = .host :: ts → ∃ t, step s = .next t ∧ t.observed = s.statusWord :: s.observed ∧
        (t.program = .poll :: hs ↔ s.status.busy = true) ∧ (t.program = hs ↔ s.status.busy = false))

/-- R26: the fields of STATUS as read. -/
def Obligations.StatusWordFields : Prop :=
  ∀ s : State,
    (s.statusWord.getLsbD 0 = s.status.busy) ∧ (s.statusWord.getLsbD 1 = s.status.fault) ∧
      (s.statusWord.getLsbD 2 = s.status.ovr) ∧ (s.statusWord.getLsbD 3 = true ↔ s.buf.wc = s.buf.cap) ∧
      s.statusWord.extractLsb' 4 4 = s.status.fcode ∧ s.statusWord.extractLsb' 8 24 = 0#24

/-- R61, R50, R55: a read returns the last write, through the alias as well. A host word write is what the word then
reads as, every other word reads as before, and a byte address reads the lane that PORT_ALIAS names, or as before. A host
byte write is what the byte then reads as, and so does every byte address of the same cell and the lane of the word that
PORT_ALIAS names; every other lane, word and byte reads as before. A host read records what the word, or the byte
zero-extended, reads as (how it is recorded is the model's, log 15) and changes nothing else; the engine's reads are in
the statements of EXTEND, NEXT, FILL and the micro-steps, in the same terms. -/
def Obligations.MemoryReadsLastWrite : Prop :=
  ∀ (s : State) (a : Word), s.mem.wf = true →
    (∀ v : Word, admits s.platform .word a .write = true → ∃ t, hostStep (.memWrite32 a v) s = .next t ∧
      t = { s with mem := t.mem } ∧ t.wordAt a = v ∧ (∀ b, b ≠ a → t.wordAt b = s.wordAt b) ∧
      (∀ b, t.byteAt b = match aliasOf s.platform.aliasRuns b with
        | some (w, l) => if w = a then v.extractLsb' (8 * l) 8 else s.byteAt b
        | none => s.byteAt b)) ∧
    (∀ v : Byte, admits s.platform .byte a .write = true → ∃ t, hostStep (.memWrite8 a v) s = .next t ∧
      t = { s with mem := t.mem } ∧ t.byteAt a = v ∧
      (∀ b, t.byteAt b = if byteCell s.platform b = byteCell s.platform a then v else s.byteAt b) ∧
      (∀ w l, aliasOf s.platform.aliasRuns a = some (w, l) → ∀ j : Nat, j < 4 →
        (t.wordAt w).extractLsb' (8 * j) 8 = if j = l then v else (s.wordAt w).extractLsb' (8 * j) 8) ∧
      (∀ w, (∀ l, aliasOf s.platform.aliasRuns a ≠ some (w, l)) → t.wordAt w = s.wordAt w)) ∧
    (admits s.platform .word a .read = true →
      hostStep (.memRead32 a) s = .next { s with observed := s.wordAt a :: s.observed }) ∧
    (admits s.platform .byte a .read = true →
      hostStep (.memRead8 a) s = .next { s with observed := (s.byteAt a).setWidth 32 :: s.observed })

/-! ### Whole-machine rules and invariants -/

/-- R23: which commands and micro-steps write the descriptor. -/
def Obligations.DescriptorWriters : Prop :=
  (∀ (i : Instr) (s t : State), exec i s = .next t →
    ((t.buf.base = s.buf.base ∧ t.buf.cap = s.buf.cap ∧ t.buf.bw = s.buf.bw) ∨ i = .reset ∨ (∃ bw, i = .init bw) ∨
      ∃ a b, i = .extract32 a b ∨ i = .extract8 a b ∨ i = .insert32 a b ∨ i = .insert8 a b) ∧
    ((t.buf.wc = s.buf.wc ∧ t.buf.bo = s.buf.bo) ∨ i = .reset ∨ (∃ bw, i = .init bw) ∨ i = .extend ∨ i = .next ∨
      ∃ a b, i = .extract32 a b ∨ i = .extract8 a b ∨ i = .insert32 a b ∨ i = .insert8 a b)) ∧
    (∀ s t : State, exec .fill s = .next t → t.buf = s.buf) ∧
    (∀ s t : State, engineAct s = .next t →
      t.buf.base = s.buf.base ∧ t.buf.cap = s.buf.cap ∧ t.buf.bw = s.buf.bw) ∧
    (∀ (h : HostStep) (s t : State), hostStep h s = .next t →
      (∀ addr n v, h = .regWrite addr n v → regAccess s.platform addr n ≠ some .cmd) → t.buf = s.buf)

/-- R25: no command writes an ARG; which commands write RESULT, and that no fault of a command does. -/
def Obligations.ArgAndResultWriters : Prop :=
  ∀ (i : Instr) (s t : State), exec i s = .next t →
    t.args = s.args ∧
      (t.result = s.result ∨ i = .next ∨ i = .reset ∨
        ∃ a b, i = .slice32 a b ∨ i = .slice8 a b ∨ i = .merge32 a b ∨ i = .merge8 a b) ∧
      (s.status.fault = false → t.status.fault = true → t.result = s.result)

/-- No command is refused and no micro-step is: every one has its effect, its fault or, unadmitted, no step. That the
model refuses nothing here is the model's own property (the rules R170 and R150 give every case a meaning). -/
def Obligations.NoCommandIsRefused : Prop :=
  ∀ (i : Instr) (s : State) (r : Refusal), exec i s ≠ .refused r ∧ engineAct s ≠ .refused r

/-- R22: every step keeps `WC ≤ CAP`, `1 ≤ BW ≤ 32`, and `BO = 0` whenever `WC = CAP`. -/
def Obligations.CursorRangeKept : Prop :=
  ∀ s t : State, s.cursorInRange → step s = .next t → t.cursorInRange

/-- The invariant of the engine's registers (R22, R26, R28, R151, R154) is kept by every step. -/
def Obligations.StepKeepsSafe : Prop := ∀ s t : State, s.safe → step s = .next t → t.safe

/-- Reset meets the invariants, on every platform: the registers by R30, the memory's canonical form by the model's
choice of the form (log 9) and of the empty list for power-on content (log 7). -/
def Obligations.ResetIsSafe : Prop :=
  ∀ p : Platform, (State.resetOn p).safe ∧ (State.resetOn p).mem.wf = true ∧ State.reset.safe ∧
    State.reset.mem.wf = true

/-- Memory keeps its canonical form in every step (the form is the model's choice, log 9). -/
def Obligations.MemoryStaysCanonical : Prop :=
  ∀ s t : State, s.mem.wf = true → step s = .next t → t.mem.wf = true
end

