-- ==== Sys2Proof/Laws/Memory.lean ====
section
/-! SUPPORT. The memory laws: a read after a write, what a write leaves alone, and the canonical form, which every
memory operation keeps and which makes equal contents equal data. -/

namespace Sys2Proof.Machine

open Sys2Proof.Config

namespace Memory

@[simp] theorem get_nil (a : Nat) : Memory.get [] a = unlisted := rfl

@[simp] theorem get_cons (k : Nat) (v : Byte) (m : Memory) (a : Nat) :
    Memory.get ((k, v) :: m) a = if a = k then v else Memory.get m a := rfl

@[simp] theorem getWord_nil (a : Word) : Memory.getWord [] a = 0#32 := by
  unfold Memory.getWord
  simp only [get_nil]
  decide

theorem wf_cons (k : Nat) (v : Byte) (m : Memory) :
    Memory.wf ((k, v) :: m) = true ↔
      k < cellLimit ∧ v ≠ unlisted ∧ (∀ c ∈ m, k < c.1) ∧ Memory.wf m = true := by
  simp [Memory.wf, List.all_eq_true, and_assoc]

/-- Below every listed cell nothing is listed. -/
theorem get_of_below {m : Memory} {a : Nat} (h : ∀ c ∈ m, a < c.1) : m.get a = unlisted := by
  induction m with
  | nil => rfl
  | cons c m ih =>
    obtain ⟨k, v⟩ := c
    have hk : a < k := h (k, v) (by simp)
    rw [get_cons, if_neg (by omega), ih (fun c hc => h c (by simp [hc]))]

/-- A write leaves every other cell alone, in any memory. -/
theorem get_set_other (m : Memory) {a b : Nat} (v : Byte) (h : b ≠ a) : (m.set a v).get b = m.get b := by
  induction m with
  | nil => unfold Memory.set; split <;> simp [h]
  | cons c m ih =>
    obtain ⟨k, w⟩ := c
    unfold Memory.set
    split
    · split <;> simp [h]
    · split
      · subst_vars; split <;> simp [h]
      · simp [ih]

/-- A read after a write to the same cell gives the value written. -/
theorem get_set_same {m : Memory} (hm : m.wf = true) (a : Nat) (v : Byte) : (m.set a v).get a = v := by
  induction m with
  | nil => unfold Memory.set; split <;> simp_all
  | cons c m ih =>
    obtain ⟨k, w⟩ := c
    obtain ⟨-, -, hk, hm'⟩ := (wf_cons k w m).1 hm
    unfold Memory.set
    split
    · rename_i hlt
      split
      · subst_vars
        rw [get_cons, if_neg (by omega), get_of_below (fun c hc => by have := hk c hc; omega)]
      · simp
    · split
      · subst_vars
        split
        · subst_vars; exact get_of_below hk
        · simp
      · rename_i h1 h2
        simp [h2, ih hm']

theorem get_set {m : Memory} (hm : m.wf = true) (a b : Nat) (v : Byte) :
    (m.set a v).get b = if b = a then v else m.get b := by
  split
  · subst_vars; exact get_set_same hm _ v
  · exact get_set_other m v ‹_›

/-- A write lists no cell but its own and those listed before. -/
theorem mem_set {m : Memory} {a : Nat} {v : Byte} {c : Host.Cell} (h : c ∈ m.set a v) : c = (a, v) ∨ c ∈ m := by
  induction m with
  | nil => unfold Memory.set at h; split at h <;> simp_all
  | cons d m ih =>
    obtain ⟨k, w⟩ := d
    unfold Memory.set at h
    split at h
    · split at h
      · exact .inr h
      · simpa using h
    · split at h
      · split at h
        · exact .inr (by simp [h])
        · rcases List.mem_cons.1 h with h | h
          · exact .inl h
          · exact .inr (by simp [h])
      · rcases List.mem_cons.1 h with h | h
        · exact .inr (by simp [h])
        · rcases ih h with h | h
          · exact .inl h
          · exact .inr (by simp [h])

/-- A write keeps the canonical form. -/
theorem set_wf {m : Memory} (hm : m.wf = true) {a : Nat} (ha : a < cellLimit) (v : Byte) :
    (m.set a v).wf = true := by
  induction m with
  | nil =>
    unfold Memory.set
    split
    · rfl
    · exact (wf_cons _ _ _).2 ⟨ha, ‹_›, by simp, rfl⟩
  | cons c m ih =>
    obtain ⟨k, w⟩ := c
    obtain ⟨hkl, hw, hk, hm'⟩ := (wf_cons k w m).1 hm
    unfold Memory.set
    split
    · rename_i hlt
      split
      · exact hm
      · refine (wf_cons _ _ _).2 ⟨ha, ‹_›, ?_, hm⟩
        intro c hc
        rcases List.mem_cons.1 hc with rfl | hc
        · exact hlt
        · have := hk c hc; omega
    · split
      · subst_vars
        split
        · exact hm'
        · exact (wf_cons _ _ _).2 ⟨ha, ‹_›, hk, hm'⟩
      · refine (wf_cons _ _ _).2 ⟨hkl, hw, ?_, ih hm'⟩
        intro c hc
        rcases mem_set hc with rfl | hc
        · show k < a; omega
        · exact hk c hc

/-- The canonical form: memories that read alike are the same data. -/
theorem ext_of_wf {m n : Memory} (hm : m.wf = true) (hn : n.wf = true) (h : ∀ a, m.get a = n.get a) : m = n := by
  induction m generalizing n with
  | nil =>
    cases n with
    | nil => rfl
    | cons d n =>
      obtain ⟨k, w⟩ := d
      obtain ⟨-, hw, -, -⟩ := (wf_cons k w n).1 hn
      have := h k
      simp at this
      exact absurd this.symm hw
  | cons c m ih =>
    obtain ⟨k, v⟩ := c
    obtain ⟨-, hv, hk, hm'⟩ := (wf_cons k v m).1 hm
    cases n with
    | nil =>
      have := h k
      simp at this
      exact absurd this hv
    | cons d n =>
      obtain ⟨l, w⟩ := d
      obtain ⟨-, hw, hl, hn'⟩ := (wf_cons l w n).1 hn
      have hkl : k = l := by
        rcases Nat.lt_trichotomy k l with hlt | heq | hlt
        · have := h k
          rw [get_cons, if_pos rfl, get_cons, if_neg (by omega),
            get_of_below (fun c hc => by have := hl c hc; omega)] at this
          exact absurd this hv
        · exact heq
        · have := h l
          rw [get_cons, if_neg (by omega), get_of_below (fun c hc => by have := hk c hc; omega), get_cons,
            if_pos rfl] at this
          exact absurd this.symm hw
      subst hkl
      have hvw : v = w := by simpa using h k
      subst hvw
      rw [ih hm' hn' ?_]
      intro a
      by_cases ha : a = k
      · subst ha; rw [get_of_below hk, get_of_below hl]
      · simpa [ha] using h a

/-- Writing what a cell holds changes nothing. -/
theorem set_get_same {m : Memory} (hm : m.wf = true) {a : Nat} (ha : a < cellLimit) : m.set a (m.get a) = m := by
  refine ext_of_wf (set_wf hm ha _) hm fun b => ?_
  rw [get_set hm]
  split <;> simp_all

end Memory

/-! ### Words -/

theorem mem_wordCells {c : Nat} {a : Word} : c ∈ wordCells a ↔ c / 4 = a.toNat := by
  simp only [wordCells, wordCell, List.mem_cons, List.not_mem_nil, or_false]
  omega

theorem wordCell_lt (a : Word) {l : Nat} (h : l < 4) : wordCell a l < cellLimit := by
  have := a.isLt
  unfold wordCell cellLimit
  omega

theorem byteCell_lt (p : Platform) (a : Word) : byteCell p a < cellLimit := by
  unfold byteCell
  split
  · exact wordCell_lt _ (Fin.isLt _)
  · have := a.isLt
    unfold cellLimit
    omega

/-- A byte address lies in a word exactly where PORT_ALIAS says so (R55). -/
theorem byteCell_mem_wordCells {p : Platform} {a w : Word} :
    byteCell p a ∈ wordCells w ↔ ∃ l, aliasOf p.aliasRuns a = some (w, l) := by
  rw [mem_wordCells]
  unfold byteCell
  constructor
  · intro h
    split at h
    · rename_i w' l heq
      have hl := l.isLt
      refine ⟨l, ?_⟩
      rw [heq]
      have : w' = w := by
        apply BitVec.eq_of_toNat_eq
        unfold wordCell at h
        omega
      rw [this]
    · have := w.isLt
      omega
  · rintro ⟨l, hl⟩
    rw [hl]
    have := l.isLt
    simp only [wordCell]
    omega

namespace Memory

theorem get_setWord_other (m : Memory) {a : Word} {c : Nat} (v : Word) (h : c ∉ wordCells a) :
    (m.setWord a v).get c = m.get c := by
  simp only [wordCells, List.mem_cons, List.not_mem_nil, or_false, not_or] at h
  unfold Memory.setWord
  rw [get_set_other _ _ h.2.2.2, get_set_other _ _ h.2.2.1, get_set_other _ _ h.2.1, get_set_other _ _ h.1]

theorem setWord_wf {m : Memory} (hm : m.wf = true) (a v : Word) : (m.setWord a v).wf = true := by
  unfold Memory.setWord
  exact set_wf (set_wf (set_wf (set_wf hm (wordCell_lt a (by omega)) _) (wordCell_lt a (by omega)) _)
    (wordCell_lt a (by omega)) _) (wordCell_lt a (by omega)) _

/-- Each lane of a written word. -/
theorem get_setWord_lane {m : Memory} (hm : m.wf = true) (a v : Word) {l : Nat} (h : l < 4) :
    (m.setWord a v).get (wordCell a l) = lane v l := by
  have h0 := set_wf hm (wordCell_lt a (l := 0) (by omega)) (lane v 0)
  have h1 := set_wf h0 (wordCell_lt a (l := 1) (by omega)) (lane v 1)
  have h2 := set_wf h1 (wordCell_lt a (l := 2) (by omega)) (lane v 2)
  unfold Memory.setWord
  have hl : l = 0 ∨ l = 1 ∨ l = 2 ∨ l = 3 := by omega
  rcases hl with rfl | rfl | rfl | rfl
  · rw [get_set_other _ _ (by simp [wordCell]), get_set_other _ _ (by simp [wordCell]),
      get_set_other _ _ (by simp [wordCell]), get_set_same hm]
  · rw [get_set_other _ _ (by simp [wordCell]), get_set_other _ _ (by simp [wordCell]), get_set_same h0]
  · rw [get_set_other _ _ (by simp [wordCell]), get_set_same h1]
  · rw [get_set_same h2]

theorem lanes_append (v : Word) : (lane v 3 ++ lane v 2 ++ lane v 1 ++ lane v 0 : BitVec (8 + 8 + 8 + 8)) = v := by
  apply BitVec.eq_of_getLsbD_eq
  intro i hi
  simp only [lane, BitVec.getLsbD_append, BitVec.getLsbD_extractLsb']
  split
  · simp_all
  · split
    · have : 8 * 1 + (i - 8) = i := by omega
      simp_all
    · split
      · have : 8 * 2 + (i - 8 - 8) = i := by omega
        simp_all
      · have : 8 * 3 + (i - 8 - 8 - 8) = i := by omega
        have h' : i - 8 - 8 - 8 < 8 := by omega
        simp_all

/-- Lane `l` of a word is the byte of its cell. -/
theorem getWord_lane (m : Memory) (a : Word) {l : Nat} (h : l < 4) :
    (m.getWord a).extractLsb' (8 * l) 8 = m.get (wordCell a l) := by
  have hl : l = 0 ∨ l = 1 ∨ l = 2 ∨ l = 3 := by omega
  apply BitVec.eq_of_getLsbD_eq
  intro i hi
  unfold Memory.getWord
  simp only [BitVec.getLsbD_append, BitVec.getLsbD_extractLsb', hi, decide_true, Bool.true_and]
  rcases hl with rfl | rfl | rfl | rfl
  · simp [hi]
  · rw [if_neg (by omega), if_pos (by omega)]; congr 1; omega
  · rw [if_neg (by omega), if_neg (by omega), if_pos (by omega)]; congr 1; omega
  · rw [if_neg (by omega), if_neg (by omega), if_neg (by omega)]; congr 1; omega

/-- A word read after a write to it gives the value written. -/
theorem getWord_setWord_same {m : Memory} (hm : m.wf = true) (a v : Word) : (m.setWord a v).getWord a = v := by
  unfold Memory.getWord
  rw [get_setWord_lane hm _ _ (by omega), get_setWord_lane hm _ _ (by omega), get_setWord_lane hm _ _ (by omega),
    get_setWord_lane hm _ _ (by omega)]
  exact lanes_append v

theorem getWord_congr {m n : Memory} {a : Word} (h : ∀ c ∈ wordCells a, m.get c = n.get c) :
    m.getWord a = n.getWord a := by
  unfold Memory.getWord
  rw [h _ (by simp [wordCells]), h _ (by simp [wordCells]), h _ (by simp [wordCells]), h _ (by simp [wordCells])]

/-- A word read after a write to another word gives what it gave before. -/
theorem getWord_setWord_other (m : Memory) {a b : Word} (v : Word) (h : b ≠ a) :
    (m.setWord a v).getWord b = m.getWord b := by
  refine getWord_congr fun c hc => get_setWord_other m v fun hc' => h ?_
  rw [mem_wordCells] at hc hc'
  exact BitVec.eq_of_toNat_eq (by omega)

theorem getWord_setWord {m : Memory} (hm : m.wf = true) (a b v : Word) :
    (m.setWord a v).getWord b = if b = a then v else m.getWord b := by
  split
  · subst_vars; exact getWord_setWord_same hm _ v
  · exact getWord_setWord_other m v ‹_›

/-- Writing what a word holds changes nothing. -/
theorem setWord_getWord_same {m : Memory} (hm : m.wf = true) (a : Word) : m.setWord a (m.getWord a) = m := by
  refine ext_of_wf (setWord_wf hm _ _) hm fun c => ?_
  by_cases hc : c ∈ wordCells a
  · have key : ∀ l, l < 4 → lane (m.getWord a) l = m.get (wordCell a l) := by
      intro l hl
      apply BitVec.eq_of_getLsbD_eq
      intro i hi
      have h4 : l = 0 ∨ l = 1 ∨ l = 2 ∨ l = 3 := by omega
      simp only [lane, Memory.getWord, BitVec.getLsbD_extractLsb', BitVec.getLsbD_append]
      rcases h4 with rfl | rfl | rfl | rfl
      · simp [hi]
      · rw [if_neg (by omega), if_pos (by omega)]; simp [hi]
      · rw [if_neg (by omega), if_neg (by omega), if_pos (by omega)]
        simp [hi, show 16 + i - 8 - 8 = i by omega]
      · rw [if_neg (by omega), if_neg (by omega), if_neg (by omega)]
        simp [hi, show 24 + i - 8 - 8 - 8 = i by omega]
    simp only [wordCells, List.mem_cons, List.not_mem_nil, or_false] at hc
    rcases hc with rfl | rfl | rfl | rfl <;> rw [get_setWord_lane hm _ _ (by omega), key _ (by omega)]
  · exact get_setWord_other m _ hc

end Memory

end Sys2Proof.Machine
end

