-- ==== Sys2Proof/Laws/State.lean ====
section
/-! SUPPORT. What each named update of the state does to each field. -/

namespace Sys2Proof.Machine

variable (s : State)

/-! ### `State.setMem` -/

@[simp] theorem State.setMem_buf (m : Memory) : (s.setMem m).buf = s.buf := rfl
@[simp] theorem State.setMem_args (m : Memory) : (s.setMem m).args = s.args := rfl
@[simp] theorem State.setMem_result (m : Memory) : (s.setMem m).result = s.result := rfl
@[simp] theorem State.setMem_status (m : Memory) : (s.setMem m).status = s.status := rfl
@[simp] theorem State.setMem_pass (m : Memory) : (s.setMem m).pass = s.pass := rfl
@[simp] theorem State.setMem_mem (m : Memory) : (s.setMem m).mem = m := rfl
@[simp] theorem State.setMem_platform (m : Memory) : (s.setMem m).platform = s.platform := rfl
@[simp] theorem State.setMem_program (m : Memory) : (s.setMem m).program = s.program := rfl
@[simp] theorem State.setMem_schedule (m : Memory) : (s.setMem m).schedule = s.schedule := rfl
@[simp] theorem State.setMem_observed (m : Memory) : (s.setMem m).observed = s.observed := rfl
@[simp] theorem State.setMem_freeCount (m : Memory) : (s.setMem m).freeCount = s.freeCount := rfl

/-! ### `State.setBuf` -/

@[simp] theorem State.setBuf_buf (d : Descriptor) : (s.setBuf d).buf = d := rfl
@[simp] theorem State.setBuf_args (d : Descriptor) : (s.setBuf d).args = s.args := rfl
@[simp] theorem State.setBuf_result (d : Descriptor) : (s.setBuf d).result = s.result := rfl
@[simp] theorem State.setBuf_status (d : Descriptor) : (s.setBuf d).status = s.status := rfl
@[simp] theorem State.setBuf_pass (d : Descriptor) : (s.setBuf d).pass = s.pass := rfl
@[simp] theorem State.setBuf_mem (d : Descriptor) : (s.setBuf d).mem = s.mem := rfl
@[simp] theorem State.setBuf_platform (d : Descriptor) : (s.setBuf d).platform = s.platform := rfl
@[simp] theorem State.setBuf_program (d : Descriptor) : (s.setBuf d).program = s.program := rfl
@[simp] theorem State.setBuf_schedule (d : Descriptor) : (s.setBuf d).schedule = s.schedule := rfl
@[simp] theorem State.setBuf_observed (d : Descriptor) : (s.setBuf d).observed = s.observed := rfl
@[simp] theorem State.setBuf_freeCount (d : Descriptor) : (s.setBuf d).freeCount = s.freeCount := rfl

/-! ### `State.setCursor` -/

@[simp] theorem State.setCursor_buf (wc bo : Nat) :
    (s.setCursor wc bo).buf = { s.buf with wc := BitVec.ofNat 32 wc, bo := BitVec.ofNat 5 bo } := rfl
@[simp] theorem State.setCursor_args (wc bo : Nat) : (s.setCursor wc bo).args = s.args := rfl
@[simp] theorem State.setCursor_result (wc bo : Nat) : (s.setCursor wc bo).result = s.result := rfl
@[simp] theorem State.setCursor_status (wc bo : Nat) : (s.setCursor wc bo).status = s.status := rfl
@[simp] theorem State.setCursor_pass (wc bo : Nat) : (s.setCursor wc bo).pass = s.pass := rfl
@[simp] theorem State.setCursor_mem (wc bo : Nat) : (s.setCursor wc bo).mem = s.mem := rfl
@[simp] theorem State.setCursor_platform (wc bo : Nat) : (s.setCursor wc bo).platform = s.platform := rfl
@[simp] theorem State.setCursor_program (wc bo : Nat) : (s.setCursor wc bo).program = s.program := rfl
@[simp] theorem State.setCursor_schedule (wc bo : Nat) : (s.setCursor wc bo).schedule = s.schedule := rfl
@[simp] theorem State.setCursor_observed (wc bo : Nat) : (s.setCursor wc bo).observed = s.observed := rfl
@[simp] theorem State.setCursor_freeCount (wc bo : Nat) : (s.setCursor wc bo).freeCount = s.freeCount := rfl

/-! ### `State.setResult` -/

@[simp] theorem State.setResult_buf (v : Word) : (s.setResult v).buf = s.buf := rfl
@[simp] theorem State.setResult_args (v : Word) : (s.setResult v).args = s.args := rfl
@[simp] theorem State.setResult_result (v : Word) : (s.setResult v).result = v := rfl
@[simp] theorem State.setResult_status (v : Word) : (s.setResult v).status = s.status := rfl
@[simp] theorem State.setResult_pass (v : Word) : (s.setResult v).pass = s.pass := rfl
@[simp] theorem State.setResult_mem (v : Word) : (s.setResult v).mem = s.mem := rfl
@[simp] theorem State.setResult_platform (v : Word) : (s.setResult v).platform = s.platform := rfl
@[simp] theorem State.setResult_program (v : Word) : (s.setResult v).program = s.program := rfl
@[simp] theorem State.setResult_schedule (v : Word) : (s.setResult v).schedule = s.schedule := rfl
@[simp] theorem State.setResult_observed (v : Word) : (s.setResult v).observed = s.observed := rfl
@[simp] theorem State.setResult_freeCount (v : Word) : (s.setResult v).freeCount = s.freeCount := rfl

/-! ### `State.setArgs` -/

@[simp] theorem State.setArgs_buf (a : Args) : (s.setArgs a).buf = s.buf := rfl
@[simp] theorem State.setArgs_args (a : Args) : (s.setArgs a).args = a := rfl
@[simp] theorem State.setArgs_result (a : Args) : (s.setArgs a).result = s.result := rfl
@[simp] theorem State.setArgs_status (a : Args) : (s.setArgs a).status = s.status := rfl
@[simp] theorem State.setArgs_pass (a : Args) : (s.setArgs a).pass = s.pass := rfl
@[simp] theorem State.setArgs_mem (a : Args) : (s.setArgs a).mem = s.mem := rfl
@[simp] theorem State.setArgs_platform (a : Args) : (s.setArgs a).platform = s.platform := rfl
@[simp] theorem State.setArgs_program (a : Args) : (s.setArgs a).program = s.program := rfl
@[simp] theorem State.setArgs_schedule (a : Args) : (s.setArgs a).schedule = s.schedule := rfl
@[simp] theorem State.setArgs_observed (a : Args) : (s.setArgs a).observed = s.observed := rfl
@[simp] theorem State.setArgs_freeCount (a : Args) : (s.setArgs a).freeCount = s.freeCount := rfl

/-! ### `State.setFreeCount` -/

@[simp] theorem State.setFreeCount_buf (n : Nat) : (s.setFreeCount n).buf = s.buf := rfl
@[simp] theorem State.setFreeCount_args (n : Nat) : (s.setFreeCount n).args = s.args := rfl
@[simp] theorem State.setFreeCount_result (n : Nat) : (s.setFreeCount n).result = s.result := rfl
@[simp] theorem State.setFreeCount_status (n : Nat) : (s.setFreeCount n).status = s.status := rfl
@[simp] theorem State.setFreeCount_pass (n : Nat) : (s.setFreeCount n).pass = s.pass := rfl
@[simp] theorem State.setFreeCount_mem (n : Nat) : (s.setFreeCount n).mem = s.mem := rfl
@[simp] theorem State.setFreeCount_platform (n : Nat) : (s.setFreeCount n).platform = s.platform := rfl
@[simp] theorem State.setFreeCount_program (n : Nat) : (s.setFreeCount n).program = s.program := rfl
@[simp] theorem State.setFreeCount_schedule (n : Nat) : (s.setFreeCount n).schedule = s.schedule := rfl
@[simp] theorem State.setFreeCount_observed (n : Nat) : (s.setFreeCount n).observed = s.observed := rfl
@[simp] theorem State.setFreeCount_freeCount (n : Nat) : (s.setFreeCount n).freeCount = n := rfl

/-! ### `State.takeFault` -/

@[simp] theorem State.takeFault_buf (f : EngineFault) : (s.takeFault f).buf = s.buf := rfl
@[simp] theorem State.takeFault_args (f : EngineFault) : (s.takeFault f).args = s.args := rfl
@[simp] theorem State.takeFault_result (f : EngineFault) : (s.takeFault f).result = s.result := rfl
@[simp] theorem State.takeFault_status (f : EngineFault) :
    (s.takeFault f).status = { s.status with fault := true, fcode := f.code, busy := false } := rfl
@[simp] theorem State.takeFault_pass (f : EngineFault) : (s.takeFault f).pass = s.pass := rfl
@[simp] theorem State.takeFault_mem (f : EngineFault) : (s.takeFault f).mem = s.mem := rfl
@[simp] theorem State.takeFault_platform (f : EngineFault) : (s.takeFault f).platform = s.platform := rfl
@[simp] theorem State.takeFault_program (f : EngineFault) : (s.takeFault f).program = s.program := rfl
@[simp] theorem State.takeFault_schedule (f : EngineFault) : (s.takeFault f).schedule = s.schedule := rfl
@[simp] theorem State.takeFault_observed (f : EngineFault) : (s.takeFault f).observed = s.observed := rfl
@[simp] theorem State.takeFault_freeCount (f : EngineFault) : (s.takeFault f).freeCount = s.freeCount := rfl

/-! ### `State.takePassFault` -/

@[simp] theorem State.takePassFault_buf (f : EngineFault) (n : Nat) : (s.takePassFault f n).buf = s.buf := rfl
@[simp] theorem State.takePassFault_args (f : EngineFault) (n : Nat) : (s.takePassFault f n).args = s.args := rfl
@[simp] theorem State.takePassFault_result (f : EngineFault) (n : Nat) :
    (s.takePassFault f n).result = BitVec.ofNat 32 n := rfl
@[simp] theorem State.takePassFault_status (f : EngineFault) (n : Nat) :
    (s.takePassFault f n).status = { s.status with fault := true, fcode := f.code, busy := false } := rfl
@[simp] theorem State.takePassFault_pass (f : EngineFault) (n : Nat) : (s.takePassFault f n).pass = s.pass := rfl
@[simp] theorem State.takePassFault_mem (f : EngineFault) (n : Nat) : (s.takePassFault f n).mem = s.mem := rfl
@[simp] theorem State.takePassFault_platform (f : EngineFault) (n : Nat) :
    (s.takePassFault f n).platform = s.platform := rfl
@[simp] theorem State.takePassFault_program (f : EngineFault) (n : Nat) :
    (s.takePassFault f n).program = s.program := rfl
@[simp] theorem State.takePassFault_schedule (f : EngineFault) (n : Nat) :
    (s.takePassFault f n).schedule = s.schedule := rfl
@[simp] theorem State.takePassFault_observed (f : EngineFault) (n : Nat) :
    (s.takePassFault f n).observed = s.observed := rfl
@[simp] theorem State.takePassFault_freeCount (f : EngineFault) (n : Nat) :
    (s.takePassFault f n).freeCount = s.freeCount := rfl

/-! ### `State.softReset` -/

@[simp] theorem State.softReset_buf : (s.softReset).buf = Descriptor.reset := rfl
@[simp] theorem State.softReset_args : (s.softReset).args = s.args := rfl
@[simp] theorem State.softReset_result : (s.softReset).result = 0#32 := rfl
@[simp] theorem State.softReset_status : (s.softReset).status = StatusBits.reset := rfl
@[simp] theorem State.softReset_pass : (s.softReset).pass = s.pass := rfl
@[simp] theorem State.softReset_mem : (s.softReset).mem = s.mem := rfl
@[simp] theorem State.softReset_platform : (s.softReset).platform = s.platform := rfl
@[simp] theorem State.softReset_program : (s.softReset).program = s.program := rfl
@[simp] theorem State.softReset_schedule : (s.softReset).schedule = s.schedule := rfl
@[simp] theorem State.softReset_observed : (s.softReset).observed = s.observed := rfl
@[simp] theorem State.softReset_freeCount : (s.softReset).freeCount = s.freeCount := rfl

/-! ### `State.hardReset` -/

@[simp] theorem State.hardReset_buf : (s.hardReset).buf = Descriptor.reset := rfl
@[simp] theorem State.hardReset_args : (s.hardReset).args = Args.reset := rfl
@[simp] theorem State.hardReset_result : (s.hardReset).result = 0#32 := rfl
@[simp] theorem State.hardReset_status : (s.hardReset).status = StatusBits.reset := rfl
@[simp] theorem State.hardReset_pass : (s.hardReset).pass = s.pass := rfl
@[simp] theorem State.hardReset_mem : (s.hardReset).mem = s.mem := rfl
@[simp] theorem State.hardReset_platform : (s.hardReset).platform = s.platform := rfl
@[simp] theorem State.hardReset_program : (s.hardReset).program = s.program := rfl
@[simp] theorem State.hardReset_schedule : (s.hardReset).schedule = s.schedule := rfl
@[simp] theorem State.hardReset_observed : (s.hardReset).observed = s.observed := rfl
@[simp] theorem State.hardReset_freeCount : (s.hardReset).freeCount = s.freeCount := rfl

/-! ### `State.drop` -/

@[simp] theorem State.drop_buf : (s.drop).buf = s.buf := rfl
@[simp] theorem State.drop_args : (s.drop).args = s.args := rfl
@[simp] theorem State.drop_result : (s.drop).result = s.result := rfl
@[simp] theorem State.drop_status : (s.drop).status = { s.status with ovr := true } := rfl
@[simp] theorem State.drop_pass : (s.drop).pass = s.pass := rfl
@[simp] theorem State.drop_mem : (s.drop).mem = s.mem := rfl
@[simp] theorem State.drop_platform : (s.drop).platform = s.platform := rfl
@[simp] theorem State.drop_program : (s.drop).program = s.program := rfl
@[simp] theorem State.drop_schedule : (s.drop).schedule = s.schedule := rfl
@[simp] theorem State.drop_observed : (s.drop).observed = s.observed := rfl
@[simp] theorem State.drop_freeCount : (s.drop).freeCount = s.freeCount := rfl

/-! ### `State.advanceK` -/

@[simp] theorem State.advanceK_buf : (s.advanceK).buf = s.buf := rfl
@[simp] theorem State.advanceK_args : (s.advanceK).args = s.args := rfl
@[simp] theorem State.advanceK_result : (s.advanceK).result = s.result := rfl
@[simp] theorem State.advanceK_status : (s.advanceK).status = s.status := rfl
@[simp] theorem State.advanceK_pass : (s.advanceK).pass = { s.pass with k := s.pass.k + 1 } := rfl
@[simp] theorem State.advanceK_mem : (s.advanceK).mem = s.mem := rfl
@[simp] theorem State.advanceK_platform : (s.advanceK).platform = s.platform := rfl
@[simp] theorem State.advanceK_program : (s.advanceK).program = s.program := rfl
@[simp] theorem State.advanceK_schedule : (s.advanceK).schedule = s.schedule := rfl
@[simp] theorem State.advanceK_observed : (s.advanceK).observed = s.observed := rfl
@[simp] theorem State.advanceK_freeCount : (s.advanceK).freeCount = s.freeCount := rfl

/-! ### `State.clearBusy` -/

@[simp] theorem State.clearBusy_buf : (s.clearBusy).buf = s.buf := rfl
@[simp] theorem State.clearBusy_args : (s.clearBusy).args = s.args := rfl
@[simp] theorem State.clearBusy_result : (s.clearBusy).result = s.result := rfl
@[simp] theorem State.clearBusy_status : (s.clearBusy).status = { s.status with busy := false } := rfl
@[simp] theorem State.clearBusy_pass : (s.clearBusy).pass = s.pass := rfl
@[simp] theorem State.clearBusy_mem : (s.clearBusy).mem = s.mem := rfl
@[simp] theorem State.clearBusy_platform : (s.clearBusy).platform = s.platform := rfl
@[simp] theorem State.clearBusy_program : (s.clearBusy).program = s.program := rfl
@[simp] theorem State.clearBusy_schedule : (s.clearBusy).schedule = s.schedule := rfl
@[simp] theorem State.clearBusy_observed : (s.clearBusy).observed = s.observed := rfl
@[simp] theorem State.clearBusy_freeCount : (s.clearBusy).freeCount = s.freeCount := rfl

/-! ### `State.observe` -/

@[simp] theorem State.observe_buf (v : Word) : (s.observe v).buf = s.buf := rfl
@[simp] theorem State.observe_args (v : Word) : (s.observe v).args = s.args := rfl
@[simp] theorem State.observe_result (v : Word) : (s.observe v).result = s.result := rfl
@[simp] theorem State.observe_status (v : Word) : (s.observe v).status = s.status := rfl
@[simp] theorem State.observe_pass (v : Word) : (s.observe v).pass = s.pass := rfl
@[simp] theorem State.observe_mem (v : Word) : (s.observe v).mem = s.mem := rfl
@[simp] theorem State.observe_platform (v : Word) : (s.observe v).platform = s.platform := rfl
@[simp] theorem State.observe_program (v : Word) : (s.observe v).program = s.program := rfl
@[simp] theorem State.observe_schedule (v : Word) : (s.observe v).schedule = s.schedule := rfl
@[simp] theorem State.observe_observed (v : Word) : (s.observe v).observed = v :: s.observed := rfl
@[simp] theorem State.observe_freeCount (v : Word) : (s.observe v).freeCount = s.freeCount := rfl

/-! ### `State.setProgram` -/

@[simp] theorem State.setProgram_buf (hs : List HostStep) : (s.setProgram hs).buf = s.buf := rfl
@[simp] theorem State.setProgram_args (hs : List HostStep) : (s.setProgram hs).args = s.args := rfl
@[simp] theorem State.setProgram_result (hs : List HostStep) : (s.setProgram hs).result = s.result := rfl
@[simp] theorem State.setProgram_status (hs : List HostStep) : (s.setProgram hs).status = s.status := rfl
@[simp] theorem State.setProgram_pass (hs : List HostStep) : (s.setProgram hs).pass = s.pass := rfl
@[simp] theorem State.setProgram_mem (hs : List HostStep) : (s.setProgram hs).mem = s.mem := rfl
@[simp] theorem State.setProgram_platform (hs : List HostStep) : (s.setProgram hs).platform = s.platform := rfl
@[simp] theorem State.setProgram_program (hs : List HostStep) : (s.setProgram hs).program = hs := rfl
@[simp] theorem State.setProgram_schedule (hs : List HostStep) : (s.setProgram hs).schedule = s.schedule := rfl
@[simp] theorem State.setProgram_observed (hs : List HostStep) : (s.setProgram hs).observed = s.observed := rfl
@[simp] theorem State.setProgram_freeCount (hs : List HostStep) : (s.setProgram hs).freeCount = s.freeCount := rfl

/-! ### `State.setSchedule` -/

@[simp] theorem State.setSchedule_buf (ts : List Turn) : (s.setSchedule ts).buf = s.buf := rfl
@[simp] theorem State.setSchedule_args (ts : List Turn) : (s.setSchedule ts).args = s.args := rfl
@[simp] theorem State.setSchedule_result (ts : List Turn) : (s.setSchedule ts).result = s.result := rfl
@[simp] theorem State.setSchedule_status (ts : List Turn) : (s.setSchedule ts).status = s.status := rfl
@[simp] theorem State.setSchedule_pass (ts : List Turn) : (s.setSchedule ts).pass = s.pass := rfl
@[simp] theorem State.setSchedule_mem (ts : List Turn) : (s.setSchedule ts).mem = s.mem := rfl
@[simp] theorem State.setSchedule_platform (ts : List Turn) : (s.setSchedule ts).platform = s.platform := rfl
@[simp] theorem State.setSchedule_program (ts : List Turn) : (s.setSchedule ts).program = s.program := rfl
@[simp] theorem State.setSchedule_schedule (ts : List Turn) : (s.setSchedule ts).schedule = ts := rfl
@[simp] theorem State.setSchedule_observed (ts : List Turn) : (s.setSchedule ts).observed = s.observed := rfl
@[simp] theorem State.setSchedule_freeCount (ts : List Turn) : (s.setSchedule ts).freeCount = s.freeCount := rfl

/-! ### `State.faulted` -/

@[simp] theorem State.faulted_buf (c : BitVec 4) : (s.faulted c).buf = s.buf := rfl
@[simp] theorem State.faulted_args (c : BitVec 4) : (s.faulted c).args = s.args := rfl
@[simp] theorem State.faulted_result (c : BitVec 4) : (s.faulted c).result = s.result := rfl
@[simp] theorem State.faulted_status (c : BitVec 4) :
    (s.faulted c).status = { busy := false, fault := true, ovr := s.status.ovr, fcode := c } := rfl
@[simp] theorem State.faulted_pass (c : BitVec 4) : (s.faulted c).pass = s.pass := rfl
@[simp] theorem State.faulted_mem (c : BitVec 4) : (s.faulted c).mem = s.mem := rfl
@[simp] theorem State.faulted_platform (c : BitVec 4) : (s.faulted c).platform = s.platform := rfl
@[simp] theorem State.faulted_program (c : BitVec 4) : (s.faulted c).program = s.program := rfl
@[simp] theorem State.faulted_schedule (c : BitVec 4) : (s.faulted c).schedule = s.schedule := rfl
@[simp] theorem State.faulted_observed (c : BitVec 4) : (s.faulted c).observed = s.observed := rfl
@[simp] theorem State.faulted_freeCount (c : BitVec 4) : (s.faulted c).freeCount = s.freeCount := rfl

/-! ### `State.startPass` -/

@[simp] theorem State.startPass_buf (op : PassOp) (ew : ElemWidth) (a b : Nat) :
    (s.startPass op ew a b).buf = freshDescriptor s.args.arg4 (elementCount ew s.args.arg1 s.args.arg2 s.args.arg3 * (b - a)) s.args.arg5 (b - a) := rfl
@[simp] theorem State.startPass_args (op : PassOp) (ew : ElemWidth) (a b : Nat) :
    (s.startPass op ew a b).args = s.args := rfl
@[simp] theorem State.startPass_result (op : PassOp) (ew : ElemWidth) (a b : Nat) :
    (s.startPass op ew a b).result = s.result := rfl
@[simp] theorem State.startPass_status (op : PassOp) (ew : ElemWidth) (a b : Nat) :
    (s.startPass op ew a b).status = { s.status with busy := true } := rfl
@[simp] theorem State.startPass_pass (op : PassOp) (ew : ElemWidth) (a b : Nat) :
    (s.startPass op ew a b).pass = { op := op, ew := ew, start := BitVec.ofNat 6 a, stop := BitVec.ofNat 6 b, mbase := s.args.arg0, count := elementCount ew s.args.arg1 s.args.arg2 s.args.arg3, fill := s.args.arg6, k := 0 } := rfl
@[simp] theorem State.startPass_mem (op : PassOp) (ew : ElemWidth) (a b : Nat) :
    (s.startPass op ew a b).mem = s.mem := rfl
@[simp] theorem State.startPass_platform (op : PassOp) (ew : ElemWidth) (a b : Nat) :
    (s.startPass op ew a b).platform = s.platform := rfl
@[simp] theorem State.startPass_program (op : PassOp) (ew : ElemWidth) (a b : Nat) :
    (s.startPass op ew a b).program = s.program := rfl
@[simp] theorem State.startPass_schedule (op : PassOp) (ew : ElemWidth) (a b : Nat) :
    (s.startPass op ew a b).schedule = s.schedule := rfl
@[simp] theorem State.startPass_observed (op : PassOp) (ew : ElemWidth) (a b : Nat) :
    (s.startPass op ew a b).observed = s.observed := rfl
@[simp] theorem State.startPass_freeCount (op : PassOp) (ew : ElemWidth) (a b : Nat) :
    (s.startPass op ew a b).freeCount = s.freeCount := rfl

/-! ### `State.withFetchWord` -/

@[simp] theorem State.withFetchWord_buf (n w : Nat) : (s.withFetchWord n w).buf = s.buf := rfl
@[simp] theorem State.withFetchWord_args (n w : Nat) : (s.withFetchWord n w).args = s.args := rfl
@[simp] theorem State.withFetchWord_result (n w : Nat) : (s.withFetchWord n w).result = s.result := rfl
@[simp] theorem State.withFetchWord_status (n w : Nat) : (s.withFetchWord n w).status = s.status := rfl
@[simp] theorem State.withFetchWord_pass (n w : Nat) : (s.withFetchWord n w).pass = s.pass := rfl
@[simp] theorem State.withFetchWord_mem (n w : Nat) : (s.withFetchWord n w).mem = s.mem := rfl
@[simp] theorem State.withFetchWord_platform (n w : Nat) : (s.withFetchWord n w).platform = s.platform := rfl
@[simp] theorem State.withFetchWord_program (n w : Nat) :
    (s.withFetchWord n w).program = .regWrite s.platform.regBase 4 ((BitVec.ofNat n w).setWidth 32) :: s.program := rfl
@[simp] theorem State.withFetchWord_schedule (n w : Nat) : (s.withFetchWord n w).schedule = .host :: s.schedule := rfl
@[simp] theorem State.withFetchWord_observed (n w : Nat) : (s.withFetchWord n w).observed = s.observed := rfl
@[simp] theorem State.withFetchWord_freeCount (n w : Nat) : (s.withFetchWord n w).freeCount = s.freeCount := rfl

/-! ### `State.withArg0` -/

@[simp] theorem State.withArg0_buf (x : Word) : (s.withArg0 x).buf = s.buf := rfl
@[simp] theorem State.withArg0_args (x : Word) : (s.withArg0 x).args = { s.args with arg0 := x } := rfl
@[simp] theorem State.withArg0_result (x : Word) : (s.withArg0 x).result = s.result := rfl
@[simp] theorem State.withArg0_status (x : Word) : (s.withArg0 x).status = s.status := rfl
@[simp] theorem State.withArg0_pass (x : Word) : (s.withArg0 x).pass = s.pass := rfl
@[simp] theorem State.withArg0_mem (x : Word) : (s.withArg0 x).mem = s.mem := rfl
@[simp] theorem State.withArg0_platform (x : Word) : (s.withArg0 x).platform = s.platform := rfl
@[simp] theorem State.withArg0_program (x : Word) : (s.withArg0 x).program = s.program := rfl
@[simp] theorem State.withArg0_schedule (x : Word) : (s.withArg0 x).schedule = s.schedule := rfl
@[simp] theorem State.withArg0_observed (x : Word) : (s.withArg0 x).observed = s.observed := rfl
@[simp] theorem State.withArg0_freeCount (x : Word) : (s.withArg0 x).freeCount = s.freeCount := rfl
@[simp] theorem State.withArg0_position (x : Word) : (s.withArg0 x).position = s.position := rfl
@[simp] theorem State.withArg0_bufAddr (x : Word) (i : Nat) : (s.withArg0 x).bufAddr i = s.bufAddr i := rfl
@[simp] theorem State.withArg0_wordAt (x a : Word) : (s.withArg0 x).wordAt a = s.wordAt a := rfl
@[simp] theorem State.withArg0_streamBit (x : Word) (j : Nat) : (s.withArg0 x).streamBit j = s.streamBit j := rfl

end Sys2Proof.Machine
end

