-- ==== Sys2Proof/Laws/Ops.lean ====
section
/-! SUPPORT. What each shared operation can do, said once: the parts of an atomic step, the memory ports, the three
cores, the end of a command or a micro-step, and the steps of the two agents. -/

namespace Sys2Proof.Machine

open Sys2Proof.Config

/-! ### Parts of an atomic step -/

namespace Act

variable {α β : Type}

@[simp] theorem bind_ok (a : α) (k : α → Act β) : (Act.ok a).bind k = k a := rfl
@[simp] theorem bind_raise (f : EngineFault) (k : α → Act β) : (Act.raise f).bind k = .raise f := rfl
@[simp] theorem bind_stuck (p : Port) (a : Word) (d : AccessKind) (k : α → Act β) :
    (Act.stuck p a d).bind k = .stuck p a d := rfl

theorem bind_eq_ok {x : Act α} {k : α → Act β} {b : β} : x.bind k = .ok b ↔ ∃ a, x = .ok a ∧ k a = .ok b := by
  cases x <;> simp

theorem bind_eq_raise {x : Act α} {k : α → Act β} {f : EngineFault} :
    x.bind k = .raise f ↔ x = .raise f ∨ ∃ a, x = .ok a ∧ k a = .raise f := by
  cases x <;> simp

end Act

/-! ### The memory ports -/

theorem memRead32_eq_ok {s : State} {a v : Word} :
    memRead32 s a = .ok v ↔ admits s.platform .word a .read = true ∧ s.wordAt a = v := by
  unfold memRead32; split <;> simp_all

theorem memWrite32_eq_ok {s t : State} {a v : Word} :
    memWrite32 s a v = .ok t ↔
      admits s.platform .word a .write = true ∧ s.setMem (s.mem.setWord a v) = t := by
  unfold memWrite32; split <;> simp_all

theorem memRead8_eq_ok {s : State} {a : Word} {v : Byte} :
    memRead8 s a = .ok v ↔ admits s.platform .byte a .read = true ∧ s.byteAt a = v := by
  unfold memRead8; split <;> simp_all

theorem memWrite8_eq_ok {s t : State} {a : Word} {v : Byte} :
    memWrite8 s a v = .ok t ↔
      admits s.platform .byte a .write = true ∧ s.setMem (s.mem.set (byteCell s.platform a) v) = t := by
  unfold memWrite8; split <;> simp_all

@[simp] theorem memRead32_ne_raise (s : State) (a : Word) (f : EngineFault) : memRead32 s a ≠ .raise f := by
  unfold memRead32; split <;> simp

@[simp] theorem memWrite32_ne_raise (s : State) (a v : Word) (f : EngineFault) : memWrite32 s a v ≠ .raise f := by
  unfold memWrite32; split <;> simp

@[simp] theorem memRead8_ne_raise (s : State) (a : Word) (f : EngineFault) : memRead8 s a ≠ .raise f := by
  unfold memRead8; split <;> simp

@[simp] theorem memWrite8_ne_raise (s : State) (a : Word) (v : Byte) (f : EngineFault) :
    memWrite8 s a v ≠ .raise f := by
  unfold memWrite8; split <;> simp

/-- A buffer word read changes nothing but the count of free values, and outside the case of I3 not even that. -/
theorem readBuffer_ok {s t : State} {a v : Word} (h : readBuffer s a = .ok (v, t)) :
    admits s.platform .word a .read = true ∧ (∃ n, t = s.setFreeCount n) ∧
      ((s.status.busy = false ∨ s.pass.op = .extract ∨ s.pass.ew = .w32 ∨ s.wordAliasesWritten a = false) →
        v = s.wordAt a ∧ t = s) := by
  unfold readBuffer at h
  rw [Act.bind_eq_ok] at h
  obtain ⟨w, hw, h⟩ := h
  rw [memRead32_eq_ok] at hw
  obtain ⟨hadm, rfl⟩ := hw
  split at h
  · rename_i hc
    obtain ⟨hb, ho, he, ha⟩ := hc
    simp only [Act.ok.injEq, Prod.mk.injEq] at h
    refine ⟨hadm, ⟨_, h.2.symm⟩, ?_⟩
    rintro (h' | h' | h' | h') <;> simp_all
  · simp only [Act.ok.injEq, Prod.mk.injEq] at h
    exact ⟨hadm, ⟨s.freeCount, h.2.symm⟩, fun _ => ⟨h.1.symm, h.2.symm⟩⟩

theorem readBuffer_eq_of_admitted {s : State} {a : Word} (h : admits s.platform .word a .read = true)
    (hb : s.status.busy = false ∨ s.pass.op = .extract ∨ s.pass.ew = .w32 ∨ s.wordAliasesWritten a = false) :
    readBuffer s a = .ok (s.wordAt a, s) := by
  have : memRead32 s a = .ok (s.wordAt a) := memRead32_eq_ok.2 ⟨h, rfl⟩
  unfold readBuffer
  rw [this, Act.bind_ok, if_neg]
  rintro ⟨h1, h2, h3, h4⟩
  rcases hb with h | h | h | h <;> simp_all

@[simp] theorem readBuffer_ne_raise (s : State) (a : Word) (f : EngineFault) : readBuffer s a ≠ .raise f := by
  unfold readBuffer
  intro h
  rw [Act.bind_eq_raise] at h
  rcases h with h | ⟨v, -, h⟩
  · exact memRead32_ne_raise _ _ _ h
  · split at h <;> cases h

/-- An element read changes nothing but the count of free values, and where the byte does not alias the buffer not
even that. -/
theorem readElement_ok {s t : State} {a v : Word} (h : readElement s a = .ok (v, t)) :
    (∃ n, t = s.setFreeCount n) ∧
      (s.pass.ew = .w32 → v = s.wordAt a ∧ t = s) ∧
      (s.pass.ew = .w8 → s.byteAliasesBuffer a = false → v = (s.byteAt a).setWidth 32 ∧ t = s) := by
  unfold readElement at h
  split at h
  · rename_i he
    rw [Act.bind_eq_ok] at h
    obtain ⟨w, hw, h⟩ := h
    obtain ⟨-, rfl⟩ := memRead32_eq_ok.1 hw
    simp only [Act.ok.injEq, Prod.mk.injEq] at h
    exact ⟨⟨s.freeCount, h.2.symm⟩, fun _ => ⟨h.1.symm, h.2.symm⟩, fun h' => by simp_all⟩
  · rename_i he
    rw [Act.bind_eq_ok] at h
    obtain ⟨w, hw, h⟩ := h
    obtain ⟨-, rfl⟩ := memRead8_eq_ok.1 hw
    split at h <;> simp only [Act.ok.injEq, Prod.mk.injEq] at h
    · exact ⟨⟨_, h.2.symm⟩, fun h' => by simp_all, fun _ h' => by simp_all⟩
    · exact ⟨⟨s.freeCount, h.2.symm⟩, fun h' => by simp_all, fun _ _ => ⟨h.1.symm, h.2.symm⟩⟩

@[simp] theorem readElement_ne_raise (s : State) (a : Word) (f : EngineFault) : readElement s a ≠ .raise f := by
  unfold readElement
  intro h
  split at h <;> rw [Act.bind_eq_raise] at h <;> rcases h with h | ⟨v, -, h⟩
  · exact memRead32_ne_raise _ _ _ h
  · cases h
  · exact memRead8_ne_raise _ _ _ h
  · split at h <;> cases h

/-- An element write changes the element's cells and nothing else. -/
theorem writeElement_ok {s t : State} {k : Nat} {v : Word} (h : writeElement s (s.elemAddr k) v = .ok t) :
    t = s.setMem t.mem ∧ sameMemoryExcept (s.elementCells k) s t := by
  unfold writeElement at h
  cases he : s.pass.ew <;> simp only [he] at h <;> simp only [State.elementCells, State.matrixCells, he]
  · obtain ⟨-, rfl⟩ := memWrite32_eq_ok.1 h
    exact ⟨rfl, fun c hc => Memory.get_setWord_other _ _ hc⟩
  · obtain ⟨-, rfl⟩ := memWrite8_eq_ok.1 h
    exact ⟨rfl, fun c hc => Memory.get_set_other _ _ (by simpa [State.elemAddr] using hc)⟩

@[simp] theorem writeElement_ne_raise (s : State) (a v : Word) (f : EngineFault) : writeElement s a v ≠ .raise f := by
  unfold writeElement; split <;> simp

theorem writeElement_wf {s t : State} {a v : Word} (hm : s.mem.wf = true) (h : writeElement s a v = .ok t) :
    t.mem.wf = true := by
  unfold writeElement at h
  split at h
  · obtain ⟨-, rfl⟩ := memWrite32_eq_ok.1 h
    exact Memory.setWord_wf hm _ _
  · obtain ⟨-, rfl⟩ := memWrite8_eq_ok.1 h
    exact Memory.set_wf hm (byteCell_lt _ _) _

/-! ### The cores -/

theorem requireZero_eq_ok {s : State} {i : Nat} {u : Unit} :
    requireZero s i = .ok u ↔ s.canRead i ∧ s.bufferWord i = 0#32 := by
  unfold requireZero
  rw [Act.bind_eq_ok]
  constructor
  · rintro ⟨v, hv, h⟩
    obtain ⟨hr, rfl⟩ := memRead32_eq_ok.1 hv
    split at h
    · cases h
    · exact ⟨hr, by simp_all⟩
  · rintro ⟨hr, h⟩
    exact ⟨_, memRead32_eq_ok.2 ⟨hr, rfl⟩, by simp [h]⟩

theorem requireZero_eq_raise {s : State} {i : Nat} {f : EngineFault} :
    requireZero s i = .raise f ↔ s.canRead i ∧ s.bufferWord i ≠ 0#32 ∧ f = .nonZeroCollision := by
  unfold requireZero
  rw [Act.bind_eq_raise]
  constructor
  · rintro (h | ⟨v, hv, h⟩)
    · exact absurd h (memRead32_ne_raise _ _ _)
    · obtain ⟨hr, rfl⟩ := memRead32_eq_ok.1 hv
      split at h
      · cases h; exact ⟨hr, ‹_›, rfl⟩
      · cases h
  · rintro ⟨hr, h, rfl⟩
    exact .inr ⟨_, memRead32_eq_ok.2 ⟨hr, rfl⟩, by rw [if_pos h]⟩

/-- What EXTEND_core can do when it goes on (R124): the block fits, or it straddles. -/
theorem extendCore_ok {x : Word} {s t : State} (h : extendCore x s = .ok t) :
    s.buf.wc.toNat < s.buf.cap.toNat ∧ (s.buf.bo.toNat = 0 → s.bufferWord s.buf.wc.toNat = 0#32) ∧
      ((s.buf.bo.toNat + s.buf.bw.toNat ≤ 32 ∧
          (s.buf.bo.toNat + s.buf.bw.toNat = 32 → s.buf.wc.toNat + 1 < s.buf.cap.toNat →
            s.bufferWord (s.buf.wc.toNat + 1) = 0#32) ∧
          ∃ u, u = s.setMem (s.mem.setWord (s.bufAddr s.buf.wc.toNat) (s.bufferWord s.buf.wc.toNat |||
              ((x &&& mask 32 s.buf.bw.toNat) <<< (32 - s.buf.bo.toNat - s.buf.bw.toNat)))) ∧
            t = if s.buf.bo.toNat + s.buf.bw.toNat = 32 then u.setCursor (s.buf.wc.toNat + 1) 0
              else u.setCursor s.buf.wc.toNat (s.buf.bo.toNat + s.buf.bw.toNat)) ∨
        (32 < s.buf.bo.toNat + s.buf.bw.toNat ∧ s.buf.wc.toNat + 1 < s.buf.cap.toNat ∧
          s.bufferWord (s.buf.wc.toNat + 1) = 0#32 ∧
          ∃ r, r = s.buf.bo.toNat + s.buf.bw.toNat - 32 ∧
            t = (s.setMem ((s.mem.setWord (s.bufAddr s.buf.wc.toNat) (s.bufferWord s.buf.wc.toNat |||
                  ((x &&& mask 32 s.buf.bw.toNat) >>> r))).setWord (s.bufAddr (s.buf.wc.toNat + 1))
                  ((x &&& mask 32 s.buf.bw.toNat &&& mask 32 r) <<< (32 - r)))).setCursor
                (s.buf.wc.toNat + 1) r)) := by
  unfold extendCore at h
  simp only [] at h
  split at h
  · cases h
  rename_i hwc
  rw [Act.bind_eq_ok] at h
  obtain ⟨cw, hcw, h⟩ := h
  obtain ⟨-, rfl⟩ := memRead32_eq_ok.1 hcw
  split at h
  · cases h
  rename_i hfresh
  refine ⟨by omega, fun hb => Classical.byContradiction fun hne => hfresh ⟨hb, hne⟩, ?_⟩
  split at h
  · rename_i hfit
    left
    unfold extendFitting at h
    simp only [] at h
    rw [Act.bind_eq_ok] at h
    obtain ⟨_, hchk, h⟩ := h
    rw [Act.bind_eq_ok] at h
    obtain ⟨u, hu, h⟩ := h
    obtain ⟨-, hu⟩ := memWrite32_eq_ok.1 hu
    refine ⟨hfit, ?_, u, hu.symm, ?_⟩
    · intro h32 hlt
      rw [if_pos ⟨h32, hlt⟩] at hchk
      exact (requireZero_eq_ok.1 hchk).2
    · simpa using h.symm
  · rename_i hfit
    right
    unfold extendStraddling at h
    simp only [] at h
    split at h
    · cases h
    rename_i hov
    rw [Act.bind_eq_ok] at h
    obtain ⟨nw, hnw, h⟩ := h
    obtain ⟨-, rfl⟩ := memRead32_eq_ok.1 hnw
    split at h
    · cases h
    rename_i hz
    have hz : s.bufferWord (s.buf.wc.toNat + 1) = 0#32 := by simpa using hz
    rw [Act.bind_eq_ok] at h
    obtain ⟨u, hu, h⟩ := h
    rw [Act.bind_eq_ok] at h
    obtain ⟨u', hu', h⟩ := h
    obtain ⟨-, rfl⟩ := memWrite32_eq_ok.1 hu
    obtain ⟨-, rfl⟩ := memWrite32_eq_ok.1 hu'
    refine ⟨by omega, by omega, hz, _, rfl, ?_⟩
    simp only [Act.ok.injEq] at h
    rw [← h, show s.wordAt (s.bufAddr (s.buf.wc.toNat + 1)) = 0#32 from hz, BitVec.zero_or]
    rfl

/-- EXTEND_core raises BufferOverflow or NonZeroCollision only (R182, R183). -/
theorem extendCore_raise {x : Word} {s : State} {f : EngineFault} (h : extendCore x s = .raise f) :
    f = .bufferOverflow ∨ f = .nonZeroCollision := by
  unfold extendCore at h
  simp only [] at h
  split at h
  · cases h; simp
  rw [Act.bind_eq_raise] at h
  rcases h with h | ⟨cw, -, h⟩
  · exact absurd h (memRead32_ne_raise _ _ _)
  split at h
  · cases h; simp
  split at h
  · unfold extendFitting at h
    simp only [] at h
    rw [Act.bind_eq_raise] at h
    rcases h with h | ⟨_, -, h⟩
    · split at h
      · exact .inr (requireZero_eq_raise.1 h).2.2
      · cases h
    · rw [Act.bind_eq_raise] at h
      rcases h with h | ⟨_, -, h⟩
      · exact absurd h (memWrite32_ne_raise _ _ _ _)
      · cases h
  · unfold extendStraddling at h
    simp only [] at h
    split at h
    · cases h; simp
    rw [Act.bind_eq_raise] at h
    rcases h with h | ⟨_, -, h⟩
    · exact absurd h (memRead32_ne_raise _ _ _)
    split at h
    · cases h; simp
    rw [Act.bind_eq_raise] at h
    rcases h with h | ⟨_, -, h⟩
    · exact absurd h (memWrite32_ne_raise _ _ _ _)
    rw [Act.bind_eq_raise] at h
    rcases h with h | ⟨_, -, h⟩
    · exact absurd h (memWrite32_ne_raise _ _ _ _)
    · cases h

/-- EXTEND_core changes the cursor and the cells of buffer words WC and WC + 1 only (R59). -/
theorem extendCore_frame {x : Word} {s t : State} (h : extendCore x s = .ok t) :
    t = (s.setMem t.mem).setBuf { s.buf with wc := t.buf.wc, bo := t.buf.bo } ∧
      sameMemoryExcept (wordCells (s.bufAddr s.buf.wc.toNat) ++ wordCells (s.bufAddr (s.buf.wc.toNat + 1))) s t := by
  obtain ⟨-, -, ⟨-, -, u, rfl, rfl⟩ | ⟨-, -, -, r, rfl, rfl⟩⟩ := extendCore_ok h
  · refine ⟨by split <;> rfl, fun c hc => ?_⟩
    rw [List.mem_append, not_or] at hc
    split <;> exact Memory.get_setWord_other _ _ hc.1
  · refine ⟨rfl, fun c hc => ?_⟩
    rw [List.mem_append, not_or] at hc
    exact (Memory.get_setWord_other _ _ hc.2).trans (Memory.get_setWord_other _ _ hc.1)

theorem extendCore_wf {x : Word} {s t : State} (hm : s.mem.wf = true) (h : extendCore x s = .ok t) :
    t.mem.wf = true := by
  obtain ⟨-, -, ⟨-, -, u, rfl, rfl⟩ | ⟨-, -, -, r, rfl, rfl⟩⟩ := extendCore_ok h
  · split <;> exact Memory.setWord_wf hm _ _
  · exact Memory.setWord_wf (Memory.setWord_wf hm _ _) _ _

/-- What NEXT_core can do when it goes on (R130): the words it reads are `cw` and, where the block straddles, `nw`. -/
theorem nextCore_ok {s t : State} {v : Word} (h : nextCore s = .ok (v, t)) :
    s.buf.wc.toNat < s.buf.cap.toNat ∧ ∃ cw u, readBuffer s (s.bufAddr s.buf.wc.toNat) = .ok (cw, u) ∧
      ((s.buf.bo.toNat + s.buf.bw.toNat ≤ 32 ∧
          v = slice cw s.buf.bo.toNat (s.buf.bo.toNat + s.buf.bw.toNat) ∧
          t = if s.buf.bo.toNat + s.buf.bw.toNat = 32 then u.setCursor (s.buf.wc.toNat + 1) 0
            else u.setCursor s.buf.wc.toNat (s.buf.bo.toNat + s.buf.bw.toNat)) ∨
        (32 < s.buf.bo.toNat + s.buf.bw.toNat ∧ s.buf.wc.toNat + 1 < s.buf.cap.toNat ∧
          ∃ nw u' r, readBuffer u (s.bufAddr (s.buf.wc.toNat + 1)) = .ok (nw, u') ∧
            r = s.buf.bo.toNat + s.buf.bw.toNat - 32 ∧
            v = (slice cw s.buf.bo.toNat 32 <<< r) ||| slice nw 0 r ∧
            t = u'.setCursor (s.buf.wc.toNat + 1) r)) := by
  unfold nextCore at h
  simp only [] at h
  split at h
  · cases h
  rename_i hwc
  rw [Act.bind_eq_ok] at h
  obtain ⟨⟨cw, u⟩, hcw, h⟩ := h
  refine ⟨by omega, cw, u, hcw, ?_⟩
  simp only [] at h
  split at h
  · rename_i hfit
    simp only [Act.ok.injEq, Prod.mk.injEq] at h
    exact .inl ⟨hfit, h.1.symm, h.2.symm⟩
  · rename_i hfit
    split at h
    · cases h
    rename_i hov
    rw [Act.bind_eq_ok] at h
    obtain ⟨⟨nw, u'⟩, hnw, h⟩ := h
    simp only [Act.ok.injEq, Prod.mk.injEq] at h
    exact .inr ⟨by omega, by omega, nw, u', _, hnw, rfl, h.1.symm, h.2.symm⟩

/-- NEXT_core raises BufferOverflow only (R130). -/
theorem nextCore_raise {s : State} {f : EngineFault} (h : nextCore s = .raise f) : f = .bufferOverflow := by
  unfold nextCore at h
  simp only [] at h
  split at h
  · cases h; rfl
  rw [Act.bind_eq_raise] at h
  rcases h with h | ⟨⟨cw, u⟩, -, h⟩
  · exact absurd h (readBuffer_ne_raise _ _ _)
  simp only [] at h
  split at h
  · cases h
  split at h
  · cases h; rfl
  rw [Act.bind_eq_raise] at h
  rcases h with h | ⟨⟨nw, u'⟩, -, h⟩
  · exact absurd h (readBuffer_ne_raise _ _ _)
  · cases h

/-- NEXT_core changes the cursor and, in the case of I3, the count of free values; memory is unchanged. -/
theorem nextCore_frame {s t : State} {v : Word} (h : nextCore s = .ok (v, t)) :
    t = (s.setFreeCount t.freeCount).setBuf { s.buf with wc := t.buf.wc, bo := t.buf.bo } := by
  obtain ⟨-, cw, u, hu, h⟩ := nextCore_ok h
  obtain ⟨-, ⟨n, rfl⟩, -⟩ := readBuffer_ok hu
  rcases h with ⟨-, -, rfl⟩ | ⟨-, -, nw, u', r, hu', -, -, rfl⟩
  · split <;> rfl
  · obtain ⟨-, ⟨n', rfl⟩, -⟩ := readBuffer_ok hu'
    rfl

/-- A core that goes on moves the cursor as R126 says, and keeps the register ranges of R22. -/
theorem cursor_of_advance {s t : State} {base mid : State} (hs : s.cursorInRange) (hwc : s.buf.wc.toNat < s.buf.cap.toNat)
    (hbase : base.buf = s.buf) (hmid : mid.buf = s.buf)
    (h : (s.buf.bo.toNat + s.buf.bw.toNat ≤ 32 ∧
          t = if s.buf.bo.toNat + s.buf.bw.toNat = 32 then base.setCursor (s.buf.wc.toNat + 1) 0
            else base.setCursor s.buf.wc.toNat (s.buf.bo.toNat + s.buf.bw.toNat)) ∨
        (32 < s.buf.bo.toNat + s.buf.bw.toNat ∧ s.buf.wc.toNat + 1 < s.buf.cap.toNat ∧
          t = mid.setCursor (s.buf.wc.toNat + 1) (s.buf.bo.toNat + s.buf.bw.toNat - 32))) :
    t.cursorInRange ∧ t.position = s.position + s.buf.bw.toNat ∧
      t.buf.wc.toNat = s.buf.wc.toNat + (s.buf.bo.toNat + s.buf.bw.toNat) / 32 ∧
      t.buf.bo.toNat = (s.buf.bo.toNat + s.buf.bw.toNat) % 32 := by
  obtain ⟨h1, h2, h3, -⟩ := hs
  have hbo := s.buf.bo.isLt
  have hcap := s.buf.cap.isLt
  have hwc' := s.buf.wc.isLt
  rcases h with ⟨hfit, rfl⟩ | ⟨hst, hlt, rfl⟩
  · split
    · rename_i h32
      simp only [State.cursorInRange, State.position, State.setCursor_buf, hbase, BitVec.toNat_ofNat]
      rw [Nat.mod_eq_of_lt (by omega)]
      refine ⟨⟨by omega, h2, h3, by simp⟩, by simp; omega, by omega, by simp; omega⟩
    · rename_i h32
      simp only [State.cursorInRange, State.position, State.setCursor_buf, hbase, BitVec.toNat_ofNat]
      rw [Nat.mod_eq_of_lt (a := s.buf.wc.toNat) (by omega),
        Nat.mod_eq_of_lt (a := s.buf.bo.toNat + s.buf.bw.toNat) (b := 2 ^ 5) (by omega)]
      refine ⟨⟨by omega, h2, h3, fun h => ?_⟩, by omega, by omega, trivial⟩
      have := congrArg BitVec.toNat h
      simp only [BitVec.toNat_ofNat] at this
      rw [Nat.mod_eq_of_lt (by omega)] at this
      omega
  · simp only [State.cursorInRange, State.position, State.setCursor_buf, hmid, BitVec.toNat_ofNat]
    rw [Nat.mod_eq_of_lt (by omega), Nat.mod_eq_of_lt (by omega)]
    refine ⟨⟨by omega, h2, h3, fun h => ?_⟩, by omega, by omega, by omega⟩
    have := congrArg BitVec.toNat h
    simp only [BitVec.toNat_ofNat] at this
    rw [Nat.mod_eq_of_lt (by omega)] at this
    omega

/-- R126 for EXTEND_core. -/
theorem extendCore_cursor {x : Word} {s t : State} (hs : s.cursorInRange) (h : extendCore x s = .ok t) :
    t.cursorInRange ∧ t.position = s.position + s.buf.bw.toNat ∧
      t.buf.wc.toNat = s.buf.wc.toNat + (s.buf.bo.toNat + s.buf.bw.toNat) / 32 ∧
      t.buf.bo.toNat = (s.buf.bo.toNat + s.buf.bw.toNat) % 32 := by
  obtain ⟨hwc, -, ⟨hfit, -, u, hu, ht⟩ | ⟨hst, hlt, -, r, rfl, ht⟩⟩ := extendCore_ok h
  · exact cursor_of_advance (base := u) (mid := s) hs hwc (by rw [hu]; rfl) rfl (.inl ⟨hfit, ht⟩)
  · subst ht
    exact cursor_of_advance (base := s) (mid := s.setMem ((s.mem.setWord _ _).setWord _ _)) hs hwc rfl rfl (.inr ⟨hst, hlt, rfl⟩)

/-- R126 for NEXT_core. -/
theorem nextCore_cursor {s t : State} {v : Word} (hs : s.cursorInRange) (h : nextCore s = .ok (v, t)) :
    t.cursorInRange ∧ t.position = s.position + s.buf.bw.toNat ∧
      t.buf.wc.toNat = s.buf.wc.toNat + (s.buf.bo.toNat + s.buf.bw.toNat) / 32 ∧
      t.buf.bo.toNat = (s.buf.bo.toNat + s.buf.bw.toNat) % 32 := by
  obtain ⟨hwc, cw, u, hu, h⟩ := nextCore_ok h
  obtain ⟨-, ⟨n, rfl⟩, -⟩ := readBuffer_ok hu
  rcases h with ⟨hfit, -, ht⟩ | ⟨hst, hlt, nw, u', r, hu', rfl, -, ht⟩
  · exact cursor_of_advance (base := s.setFreeCount n) (mid := s) hs hwc rfl rfl (.inl ⟨hfit, ht⟩)
  · obtain ⟨-, ⟨n', rfl⟩, -⟩ := readBuffer_ok hu'
    exact cursor_of_advance (base := s) (mid := s.setFreeCount n') hs hwc rfl rfl (.inr ⟨hst, hlt, ht⟩)

/-- What FILL_core can do when it goes on (R135). -/
theorem fillCore_ok {p : Word} {s t : State} (h : fillCore p s = .ok t) :
    (s.buf.bo.toNat = 0 ∧ t = s) ∨
      (s.buf.bo.toNat ≠ 0 ∧ s.buf.wc.toNat < s.buf.cap.toNat ∧
        t = s.setMem (s.mem.setWord (s.bufAddr s.buf.wc.toNat)
          (s.bufferWord s.buf.wc.toNat ||| (p >>> s.buf.bo.toNat)))) := by
  unfold fillCore at h
  simp only [] at h
  split at h
  · rename_i hb
    split at h
    · cases h
    rename_i hwc
    rw [Act.bind_eq_ok] at h
    obtain ⟨v, hv, h⟩ := h
    obtain ⟨-, rfl⟩ := memRead32_eq_ok.1 hv
    obtain ⟨-, rfl⟩ := memWrite32_eq_ok.1 h
    exact .inr ⟨hb, by omega, rfl⟩
  · cases h
    exact .inl ⟨by omega, rfl⟩

/-- FILL_core raises BufferOverflow only, and only with BO ≠ 0 and WC ≥ CAP (R135, R182). -/
theorem fillCore_raise {p : Word} {s : State} {f : EngineFault} (h : fillCore p s = .raise f) :
    f = .bufferOverflow ∧ s.buf.bo.toNat ≠ 0 ∧ s.buf.cap.toNat ≤ s.buf.wc.toNat := by
  unfold fillCore at h
  simp only [] at h
  split at h
  · split at h
    · cases h; exact ⟨rfl, ‹_›, ‹_›⟩
    rw [Act.bind_eq_raise] at h
    rcases h with h | ⟨v, -, h⟩
    · exact absurd h (memRead32_ne_raise _ _ _)
    · exact absurd h (memWrite32_ne_raise _ _ _ _)
  · cases h

theorem fillCore_wf {p : Word} {s t : State} (hm : s.mem.wf = true) (h : fillCore p s = .ok t) :
    t.mem.wf = true := by
  rcases fillCore_ok h with ⟨-, rfl⟩ | ⟨-, -, rfl⟩
  · exact hm
  · exact Memory.setWord_wf hm _ _

/-! ### The end of a command or a micro-step -/

theorem settle_eq_next {s t : State} {a : Act State} :
    settle s a = .next t ↔ a = .ok t ∨ ∃ f, a = .raise f ∧ t = s.takeFault f := by
  cases a <;> simp [settle, eq_comm]

theorem settlePass_eq_next {s t : State} {n : Nat} {a : Act State} :
    settlePass s n a = .next t ↔ a = .ok t ∨ ∃ f, a = .raise f ∧ t = s.takePassFault f n := by
  cases a <;> simp [settlePass, eq_comm]

theorem whenAccepted_of_accepting {s : State} (h : s.accepting) (run : Host.Outcome State Fault Refusal) :
    whenAccepted s run = run := by
  simp [whenAccepted, h.1, h.2]

theorem whenAccepted_of_closed {s : State} (h : s.status.busy = true ∨ s.status.fault = true)
    (run : Host.Outcome State Fault Refusal) : whenAccepted s run = .next s.drop := by
  rcases h with h | h <;> simp [whenAccepted, h]

theorem accepting_or_closed (s : State) : s.accepting ∨ s.status.busy = true ∨ s.status.fault = true := by
  unfold State.accepting
  cases s.status.busy <;> cases s.status.fault <;> simp

/-- What an accepted command other than RESET does, as a part of an atomic step. -/
def commandAct (i : Instr) (s : State) : Act State :=
  match i with
  | .nop => .ok s
  | .init bw =>
    if 1 ≤ bw ∧ bw ≤ 32 then .ok (s.setBuf (freshDescriptor s.args.arg1 s.args.arg0.toNat s.args.arg2 bw))
    else .raise .invalidRange
  | .extend => extendCore s.args.arg0 s
  | .next => (nextCore s).bind fun (v, t) => .ok (t.setResult v)
  | .fill => fillCore s.args.arg0 s
  | .slice32 a b => if rangeOk .w32 a b then .ok (s.setResult (sliceElem .w32 s.args.arg0 a b)) else .raise .invalidRange
  | .slice8 a b => if rangeOk .w8 a b then .ok (s.setResult (sliceElem .w8 s.args.arg0 a b)) else .raise .invalidRange
  | .merge32 a b =>
    if rangeOk .w32 a b then .ok (s.setResult (mergeElem .w32 s.args.arg0 s.args.arg1 a b)) else .raise .invalidRange
  | .merge8 a b =>
    if rangeOk .w8 a b then .ok (s.setResult (mergeElem .w8 s.args.arg0 s.args.arg1 a b)) else .raise .invalidRange
  | .extract32 a b => if rangeOk .w32 a b then .ok (s.startPass .extract .w32 a b) else .raise .invalidRange
  | .extract8 a b => if rangeOk .w8 a b then .ok (s.startPass .extract .w8 a b) else .raise .invalidRange
  | .insert32 a b => if rangeOk .w32 a b then .ok (s.startPass .insert .w32 a b) else .raise .invalidRange
  | .insert8 a b => if rangeOk .w8 a b then .ok (s.startPass .insert .w8 a b) else .raise .invalidRange
  | .reset => .ok s.softReset

/-- Every command but RESET: accept, act, settle (R170). -/
theorem exec_eq {i : Instr} (h : i ≠ .reset) (s : State) : exec i s = whenAccepted s (settle s (commandAct i s)) := by
  cases i <;> first | rfl | exact absurd rfl h

@[simp] theorem exec_reset (s : State) : exec .reset s = .next s.softReset := rfl

/-- What a command can do: it is dropped, it takes a fault, it acts, or it is RESET. -/
theorem exec_next_cases {i : Instr} {s t : State} (h : exec i s = .next t) :
    (i = .reset ∧ t = s.softReset) ∨
      (i ≠ .reset ∧ (s.status.busy = true ∨ s.status.fault = true) ∧ t = s.drop) ∨
      (i ≠ .reset ∧ s.accepting ∧ ((∃ f, commandAct i s = .raise f ∧ t = s.takeFault f) ∨ commandAct i s = .ok t)) := by
  by_cases hi : i = .reset
  · subst hi; simp only [exec_reset, Host.Outcome.next.injEq] at h; exact .inl ⟨rfl, h.symm⟩
  right
  rw [exec_eq hi] at h
  rcases accepting_or_closed s with ha | hc
  · right
    rw [whenAccepted_of_accepting ha, settle_eq_next] at h
    exact ⟨hi, ha, h.symm⟩
  · left
    rw [whenAccepted_of_closed hc] at h
    cases h
    exact ⟨hi, hc, rfl⟩

/-- What a CMD write can do (R170). -/
theorem writeCmd_next_cases {v : Word} {s t : State} (h : writeCmd v s = .next t) :
    (∃ i, decode v = some i ∧ exec i s = .next t) ∨
      (decode v = none ∧ (s.status.busy = true ∨ s.status.fault = true) ∧ t = s.drop) ∨
      (decode v = none ∧ s.accepting ∧ t = s.takeFault .illegalCommand) := by
  unfold writeCmd at h
  split at h
  · exact .inl ⟨_, ‹_›, h⟩
  · right
    rcases accepting_or_closed s with ha | hc
    · rw [whenAccepted_of_accepting ha] at h
      cases h
      exact .inr ⟨‹_›, ha, rfl⟩
    · rw [whenAccepted_of_closed hc] at h
      cases h
      exact .inl ⟨‹_›, hc, rfl⟩

/-- What a register write can do (R24): issue a command, change the ARGs, or nothing. -/
theorem writeReg_next_cases {v : Word} {r : Reg} {s t : State} (h : writeReg s v r = .next t) :
    (r = .cmd ∧ writeCmd v s = .next t) ∨ (r ≠ .cmd ∧ ∃ a, t = s.setArgs a) := by
  cases r
  case cmd => exact .inl ⟨rfl, h⟩
  all_goals
    right
    refine ⟨by simp, ?_⟩
    simp only [writeReg, Host.Outcome.next.injEq] at h
    exact ⟨_, h.symm⟩

/-- What a host step can do: a CMD write, a change of the ARGs, a read, a memory write, or `poll` again. -/
theorem hostStep_next_cases {h : HostStep} {s t : State} (hs : hostStep h s = .next t) :
    (∃ v, writeCmd v s = .next t) ∨ (∃ a, t = s.setArgs a) ∨ (∃ v, t = s.observe v) ∨
      (∃ a v, t = s.setMem (s.mem.setWord a v)) ∨
      (∃ a v, t = s.setMem (s.mem.set (byteCell s.platform a) v)) ∨
      (∃ v, t = (s.observe v).setProgram (.poll :: s.program)) := by
  unfold hostStep at hs
  split at hs
  · split at hs
    · rcases writeReg_next_cases hs with ⟨-, h⟩ | ⟨-, h⟩
      · exact .inl ⟨_, h⟩
      · exact .inr (.inl h)
    · cases hs
  · split at hs
    · simp only [Host.Outcome.next.injEq] at hs
      exact .inr (.inr (.inl ⟨_, hs.symm⟩))
    · cases hs
  · rcases settle_eq_next.1 hs with h | ⟨f, h, -⟩
    · obtain ⟨-, h⟩ := memWrite32_eq_ok.1 h
      exact .inr (.inr (.inr (.inl ⟨_, _, h.symm⟩)))
    · exact absurd h (memWrite32_ne_raise _ _ _ _)
  · rcases settle_eq_next.1 hs with h | ⟨f, h, -⟩
    · obtain ⟨-, h⟩ := memWrite8_eq_ok.1 h
      exact .inr (.inr (.inr (.inr (.inl ⟨_, _, h.symm⟩))))
    · exact absurd h (memWrite8_ne_raise _ _ _ _)
  · rcases settle_eq_next.1 hs with h | ⟨f, h, -⟩
    · obtain ⟨v, -, h⟩ := Act.bind_eq_ok.1 h
      simp only [Act.ok.injEq] at h
      exact .inr (.inr (.inl ⟨_, h.symm⟩))
    · rcases Act.bind_eq_raise.1 h with h | ⟨v, -, h⟩
      · exact absurd h (memRead32_ne_raise _ _ _)
      · cases h
  · rcases settle_eq_next.1 hs with h | ⟨f, h, -⟩
    · obtain ⟨v, -, h⟩ := Act.bind_eq_ok.1 h
      simp only [Act.ok.injEq] at h
      exact .inr (.inr (.inl ⟨_, h.symm⟩))
    · rcases Act.bind_eq_raise.1 h with h | ⟨v, -, h⟩
      · exact absurd h (memRead8_ne_raise _ _ _)
      · cases h
  · simp only [Host.Outcome.next.injEq] at hs
    split at hs
    · exact .inr (.inr (.inr (.inr (.inr ⟨_, hs.symm⟩))))
    · exact .inr (.inr (.inl ⟨_, hs.symm⟩))

theorem hostAct_next_cases {s t : State} (h : hostAct s = .next t) :
    (s.program = [] ∧ t = s) ∨
      ∃ hd tl, s.program = hd :: tl ∧ hostStep hd (s.setProgram tl) = .next t := by
  unfold hostAct at h
  split at h
  · cases h; exact .inl ⟨‹_›, rfl⟩
  · exact .inr ⟨_, _, ‹_›, h⟩

/-- What a micro-step can do (R150, R187): it acts, or it takes a fault that records the index. -/
theorem microStep_next_cases {s t : State} (h : microStep s = .next t) :
    (s.pass.k < s.pass.count ∧ s.pass.op = .extract ∧ extractElement s = .ok t) ∨
      (s.pass.k < s.pass.count ∧ s.pass.op = .insert ∧ insertElement s = .ok t) ∨
      (s.pass.count ≤ s.pass.k ∧ s.pass.op = .extract ∧ extractCompletion s = .ok t) ∨
      (s.pass.count ≤ s.pass.k ∧ s.pass.op = .insert ∧ insertCompletion s = .ok t) ∨
      ∃ f, t = s.takePassFault f (if s.pass.k < s.pass.count then s.pass.k else s.pass.count) := by
  unfold microStep at h
  split at h
  · rename_i hk
    rcases settlePass_eq_next.1 h with h | ⟨f, -, rfl⟩
    · split at h
      · exact .inl ⟨hk, ‹_›, h⟩
      · exact .inr (.inl ⟨hk, ‹_›, h⟩)
    · exact .inr (.inr (.inr (.inr ⟨f, by rw [if_pos hk]⟩)))
  · rename_i hk
    rcases settlePass_eq_next.1 h with h | ⟨f, -, rfl⟩
    · split at h
      · exact .inr (.inr (.inl ⟨by omega, ‹_›, h⟩))
      · exact .inr (.inr (.inr (.inl ⟨by omega, ‹_›, h⟩)))
    · exact .inr (.inr (.inr (.inr ⟨f, by rw [if_neg hk]⟩)))

theorem engineAct_next_cases {s t : State} (h : engineAct s = .next t) :
    (s.status.busy = false ∧ t = s) ∨ (s.status.busy = true ∧ microStep s = .next t) := by
  unfold engineAct at h
  split at h
  · exact .inr ⟨‹_›, h⟩
  · rename_i hb
    cases h
    exact .inl ⟨by simpa using hb, rfl⟩

theorem passIfStuck_next_cases {s t : State} {o : Host.Outcome State Fault Refusal} (h : passIfStuck s o = .next t) :
    o = .next t ∨ ((∃ r, o = .fault r) ∧ t = s) := by
  cases o <;> simp_all [passIfStuck, eq_comm]

/-- What a step can do: nothing, a host step, a micro-step, or a hardware reset; the turn taken leaves the schedule. -/
theorem step_next_cases {s t : State} (h : step s = .next t) :
    ∃ u, u = s.setSchedule s.schedule.tail ∧
      (t = u ∨ (∃ hd tl, u.program = hd :: tl ∧ hostStep hd (u.setProgram tl) = .next t) ∨
        (u.status.busy = true ∧ microStep u = .next t) ∨ t = u.hardReset) := by
  have host : ∀ u : State, hostAct u = .next t →
      t = u ∨ (∃ hd tl, u.program = hd :: tl ∧ hostStep hd (u.setProgram tl) = .next t) := by
    intro u hu
    rcases hostAct_next_cases hu with ⟨-, h⟩ | h
    · exact .inl h
    · exact .inr h
  refine ⟨_, rfl, ?_⟩
  unfold step at h
  split at h
  · rename_i tn ts heq
    rw [heq, List.tail_cons]
    unfold takeTurn at h
    split at h
    · rcases passIfStuck_next_cases h with h | ⟨-, h⟩
      · rcases host _ h with h | h
        · exact .inl h
        · exact .inr (.inl h)
      · exact .inl h
    · rcases passIfStuck_next_cases h with h | ⟨-, h⟩
      · rcases engineAct_next_cases h with ⟨-, h⟩ | h
        · exact .inl h
        · exact .inr (.inr (.inl h))
      · exact .inl h
    · simp only [Host.Outcome.next.injEq] at h
      exact .inr (.inr (.inr h.symm))
  · rename_i heq
    have hu : s.setSchedule s.schedule.tail = s := by rw [heq]; cases s; simp_all [State.setSchedule]
    rw [hu]
    have pass : ∀ {x : Host.Outcome State Fault Refusal}, x = hostAct s → x = .next t →
        t = s ∨ (∃ hd tl, s.program = hd :: tl ∧ hostStep hd (s.setProgram tl) = .next t) ∨
          (s.status.busy = true ∧ microStep s = .next t) ∨ t = s.hardReset := by
      intro x hx hxt
      rcases host s (hx ▸ hxt) with h | h
      · exact .inl h
      · exact .inr (.inl h)
    unfold fairTurn at h
    split at h
    · rename_i hb
      split at h
      · rename_i hm
        simp only [Host.Outcome.next.injEq] at h
        subst h
        exact .inr (.inr (.inl ⟨hb, hm⟩))
      · split at h
        · cases h
        · exact pass rfl h
      · cases h
    · exact pass rfl h

end Sys2Proof.Machine
end

