-- ==== Sys2Proof/Laws/Admission.lean ====
section
/-! SUPPORT. What the platform's MEM_ADMIT (spec/20_memory.md R56) does to each access: a request it does not admit
leaves the step stuck, and what an access, a core or a micro-step writes lies in cells whose write it admits. -/

namespace Sys2Proof.Machine

open Sys2Proof.Config

/-! ### A request that is not admitted -/

theorem memRead32_of_unadmitted {s : State} {a : Word} (h : admits s.platform .word a .read = false) :
    memRead32 s a = .stuck .word a .read := by
  unfold memRead32; rw [h]; rfl

theorem memWrite32_of_unadmitted {s : State} {a : Word} (v : Word) (h : admits s.platform .word a .write = false) :
    memWrite32 s a v = .stuck .word a .write := by
  unfold memWrite32; rw [h]; rfl

theorem memRead8_of_unadmitted {s : State} {a : Word} (h : admits s.platform .byte a .read = false) :
    memRead8 s a = .stuck .byte a .read := by
  unfold memRead8; rw [h]; rfl

theorem memWrite8_of_unadmitted {s : State} {a : Word} (v : Byte) (h : admits s.platform .byte a .write = false) :
    memWrite8 s a v = .stuck .byte a .write := by
  unfold memWrite8; rw [h]; rfl

theorem readBuffer_of_unadmitted {s : State} {a : Word} (h : admits s.platform .word a .read = false) :
    readBuffer s a = .stuck .word a .read := by
  unfold readBuffer; rw [memRead32_of_unadmitted h]; rfl

/-! ### What is written is admitted -/

/-- A changed cell is one that the platform lets be written. -/
def writesAdmitted (s t : State) : Prop := ∀ c, t.mem.get c ≠ s.mem.get c → s.writable c

theorem writesAdmitted_of_mem {s t : State} (h : t.mem = s.mem) : writesAdmitted s t := fun c hc => by
  rw [h] at hc; exact absurd rfl hc

theorem writesAdmitted_trans {s t u : State} (hp : t.platform = s.platform) (h1 : writesAdmitted s t)
    (h2 : writesAdmitted t u) : writesAdmitted s u := fun c hc => by
  by_cases h : t.mem.get c = s.mem.get c
  · have h3 := h2 c (h ▸ hc)
    unfold State.writable at h3 ⊢
    rwa [hp] at h3
  · exact h1 c h

/-- Only the memories and the platform matter. -/
theorem writesAdmitted_congr {s t s' t' : State} (hp : s'.platform = s.platform) (hs : s'.mem = s.mem)
    (ht : t'.mem = t.mem) (h : writesAdmitted s t) : writesAdmitted s' t' := fun c hc => by
  rw [hs, ht] at hc
  have h3 := h c hc
  unfold State.writable at h3 ⊢
  rwa [hp]

theorem memWrite32_writesAdmitted {s t : State} {a v : Word} (h : memWrite32 s a v = .ok t) : writesAdmitted s t := by
  obtain ⟨ha, rfl⟩ := memWrite32_eq_ok.1 h
  exact fun c hc => .inl ⟨a, by_contra fun hn => hc (Memory.get_setWord_other _ _ hn), ha⟩

theorem memWrite8_writesAdmitted {s t : State} {a : Word} {v : Byte} (h : memWrite8 s a v = .ok t) :
    writesAdmitted s t := by
  obtain ⟨ha, rfl⟩ := memWrite8_eq_ok.1 h
  exact fun c hc => .inr ⟨a, by_contra fun hn => hc (Memory.get_set_other _ _ hn), ha⟩

theorem writeElement_writesAdmitted {s t : State} {a v : Word} (h : writeElement s a v = .ok t) :
    writesAdmitted s t := by
  unfold writeElement at h
  split at h
  · exact memWrite32_writesAdmitted h
  · exact memWrite8_writesAdmitted h

theorem fillCore_writesAdmitted {p : Word} {s t : State} (h : fillCore p s = .ok t) : writesAdmitted s t := by
  unfold fillCore at h
  simp only [] at h
  split at h
  · split at h
    · cases h
    · obtain ⟨v, -, h⟩ := Act.bind_eq_ok.1 h
      exact memWrite32_writesAdmitted h
  · cases h; exact writesAdmitted_of_mem rfl

theorem extendCore_writesAdmitted {x : Word} {s t : State} (h : extendCore x s = .ok t) : writesAdmitted s t := by
  unfold extendCore at h
  simp only [] at h
  split at h
  · cases h
  obtain ⟨cw, -, h⟩ := Act.bind_eq_ok.1 h
  split at h
  · cases h
  split at h
  · unfold extendFitting at h
    simp only [] at h
    obtain ⟨-, -, h⟩ := Act.bind_eq_ok.1 h
    obtain ⟨u, hu, h⟩ := Act.bind_eq_ok.1 h
    cases h
    exact writesAdmitted_congr rfl rfl (by split <;> rfl) (memWrite32_writesAdmitted hu)
  · unfold extendStraddling at h
    simp only [] at h
    split at h
    · cases h
    obtain ⟨nw, -, h⟩ := Act.bind_eq_ok.1 h
    split at h
    · cases h
    obtain ⟨u, hu, h⟩ := Act.bind_eq_ok.1 h
    obtain ⟨v, hv, h⟩ := Act.bind_eq_ok.1 h
    cases h
    have hp : u.platform = s.platform := by obtain ⟨-, rfl⟩ := memWrite32_eq_ok.1 hu; rfl
    exact writesAdmitted_congr (t := v) rfl rfl rfl
      (writesAdmitted_trans hp (memWrite32_writesAdmitted hu) (memWrite32_writesAdmitted hv))

end Sys2Proof.Machine
end

