-- ==== Sys2Proof/Laws/Datapath.lean ====
section
/-! SUPPORT. The bits of the datapath functions, counted from the least significant (spec/40_slice_merge.md R101,
R105). -/

namespace Sys2Proof.Machine

theorem mask_toNat {N n : Nat} (h : n ≤ N) : (mask N n).toNat = 2 ^ n - 1 := by
  have := Nat.pow_le_pow_right (n := 2) (by omega) h
  have := Nat.two_pow_pos n
  simp only [mask, BitVec.toNat_ofNat]
  exact Nat.mod_eq_of_lt (by omega)

theorem getLsbD_mask {N n : Nat} (h : n ≤ N) (i : Nat) : (mask N n).getLsbD i = decide (i < n) := by
  rw [← BitVec.testBit_toNat, mask_toNat h, Nat.testBit_two_pow_sub_one]

theorem getLsbD_slice {N s t : Nat} (v : BitVec N) (h : t - s ≤ N) (i : Nat) :
    (slice v s t).getLsbD i = (decide (i < t - s) && v.getLsbD (N - t + i)) := by
  simp only [slice, BitVec.getLsbD_and, BitVec.getLsbD_ushiftRight, getLsbD_mask h, Bool.and_comm]

/-- A slice as a number (R101). -/
theorem slice_toNat {N s t : Nat} (v : BitVec N) (h : t - s ≤ N) :
    (slice v s t).toNat = v.toNat / 2 ^ (N - t) % 2 ^ (t - s) := by
  simp only [slice, BitVec.toNat_and, BitVec.toNat_ushiftRight, mask_toNat h, Nat.shiftRight_eq_div_pow,
    Nat.and_two_pow_sub_one_eq_mod]

theorem getLsbD_and_mask {n : Nat} (h : n ≤ 32) (v : Word) (i : Nat) :
    (v &&& mask 32 n).getLsbD i = (decide (i < n) && v.getLsbD i) := by
  rw [BitVec.getLsbD_and, getLsbD_mask h, Bool.and_comm]

/-- Inside the range a merge has the block's bits, outside the element's (R105). -/
theorem getLsbD_merge {N s t : Nat} (e : BitVec N) (b : Word) (hst : s ≤ t) (htN : t ≤ N) (i : Nat) :
    (merge e b s t).getLsbD i =
      if N - t ≤ i ∧ i < N - s then b.getLsbD (i - (N - t)) else e.getLsbD i := by
  have hw : t - s ≤ N := by omega
  simp only [merge, BitVec.getLsbD_xor, BitVec.getLsbD_shiftLeft, getLsbD_slice _ hw, BitVec.getLsbD_and,
    BitVec.getLsbD_setWidth, getLsbD_mask hw]
  by_cases hi : i < N
  · by_cases h1 : i < N - t
    · rw [if_neg (by omega)]; simp [h1]
    · by_cases h2 : i < N - s
      · rw [if_pos ⟨by omega, h2⟩]
        have e1 : N - t + (i - (N - t)) = i := by omega
        have e2 : i - (N - t) < t - s := by omega
        have e3 : i - (N - t) < N := by omega
        simp [hi, h1, e1, e2, e3]
      · rw [if_neg (by omega)]
        have e2 : ¬ i - (N - t) < t - s := by omega
        simp [e2]
  · rw [if_neg (by omega)]
    simp [hi]

end Sys2Proof.Machine
end

