-- ==== Sys2Proof/Laws/Stream.lean ====
section
/-! SUPPORT. The buffer as a stream of bits (spec/20_memory.md R54): what the three cores of spec/41_buffer_cursor.md
do to it, and when they go on. -/

namespace Sys2Proof.Machine

/-! ### Buffer words -/

theorem bufAddr_inj {s : State} {i j : Nat} (hi : i < 2 ^ 32) (hj : j < 2 ^ 32) (h : s.bufAddr i = s.bufAddr j) :
    i = j := by
  have := congrArg BitVec.toNat (add_left_cancel (show s.buf.base + BitVec.ofNat 32 i = s.buf.base + BitVec.ofNat 32 j from h))
  rwa [BitVec.toNat_ofNat, BitVec.toNat_ofNat, Nat.mod_eq_of_lt hi, Nat.mod_eq_of_lt hj] at this

theorem bufAddr_congr {s t : State} (h : t.buf.base = s.buf.base) (i : Nat) : t.bufAddr i = s.bufAddr i := by
  simp [State.bufAddr, h]

/-- Stream bit `32 * i + p` is the bit at MSB-first position `p` of word `i`. -/
theorem streamBit_eq (s : State) {j i p : Nat} (h : j = 32 * i + p) (hp : p < 32) :
    s.streamBit j = (s.bufferWord i).getLsbD (31 - p) := by
  unfold State.streamBit
  rw [show j / 32 = i by omega, show j % 32 = p by omega]

/-- Equal buffer words give equal stream bits. -/
theorem streamBit_congr {s t : State} {j : Nat} (h : t.bufferWord (j / 32) = s.bufferWord (j / 32)) :
    t.streamBit j = s.streamBit j := by
  unfold State.streamBit; rw [h]

theorem bo_lt (s : State) : s.buf.bo.toNat < 32 := s.buf.bo.isLt

theorem cap_lt (s : State) : s.buf.cap.toNat < 2 ^ 32 := s.buf.cap.isLt

/-! ### EXTEND_core -/

/-- EXTEND_core writes the block at the cursor, most significant bit first, and changes no other bit of the buffer
where the bits beyond the cursor are zero (R21, R54, R124). -/
theorem extendCore_stream {x : Word} {s t : State} (hm : s.mem.wf = true) (hc : s.cursorInRange)
    (h : extendCore x s = .ok t) (hz : ∀ j, s.position ≤ j → j < 32 * s.buf.cap.toNat → s.streamBit j = false)
    {j : Nat} (hj : j < 32 * s.buf.cap.toNat) :
    t.streamBit j =
      if j < s.position then s.streamBit j
      else if j < s.position + s.buf.bw.toNat then x.getLsbD (s.buf.bw.toNat - 1 - (j - s.position)) else false := by
  have hcap := cap_lt s
  have hb := bo_lt s
  obtain ⟨-, hw1, hw2, -⟩ := hc
  obtain ⟨hwc, -, hcase⟩ := extendCore_ok h
  have hbase : t.buf.base = s.buf.base := by rw [(extendCore_frame h).1]; rfl
  have hpos : s.position = 32 * s.buf.wc.toNat + s.buf.bo.toNat := rfl
  have hout : ¬ j < s.position → s.streamBit j = false := fun hlt => hz j (by omega) hj
  have hw : t.bufferWord (j / 32) = t.mem.getWord (s.bufAddr (j / 32)) := by
    unfold State.bufferWord State.wordAt; rw [bufAddr_congr hbase]
  rcases hcase with ⟨hfit, -, u, hu, ht⟩ | ⟨hst, hlt, hnw, r, hr, ht⟩
  · have hmem : t.mem = s.mem.setWord (s.bufAddr s.buf.wc.toNat) (s.bufferWord s.buf.wc.toNat |||
        ((x &&& mask 32 s.buf.bw.toNat) <<< (32 - s.buf.bo.toNat - s.buf.bw.toNat))) := by
      rw [ht, hu]; split <;> rfl
    rw [hmem, Memory.getWord_setWord hm] at hw
    by_cases hi : j / 32 = s.buf.wc.toNat
    · rw [if_pos (by rw [hi])] at hw
      have hs := streamBit_eq s (j := j) (i := s.buf.wc.toNat) (p := j % 32) (by omega) (by omega)
      have e : t.streamBit j = (t.bufferWord (j / 32)).getLsbD (31 - j % 32) := rfl
      rw [e, hw, BitVec.getLsbD_or, ← hs, BitVec.getLsbD_shiftLeft, getLsbD_and_mask hw2]
      by_cases h1 : j < s.position
      · have a1 : ¬ 31 - j % 32 - (32 - s.buf.bo.toNat - s.buf.bw.toNat) < s.buf.bw.toNat := by omega
        simp [h1, a1]
      · rw [hout h1]
        by_cases h2 : j < s.position + s.buf.bw.toNat
        · have a1 : 31 - j % 32 - (32 - s.buf.bo.toNat - s.buf.bw.toNat) = s.buf.bw.toNat - 1 - (j - s.position) := by
            omega
          have a2 : ¬ 31 - j % 32 < 32 - s.buf.bo.toNat - s.buf.bw.toNat := by omega
          have a3 : s.buf.bw.toNat - 1 - (j - s.position) < s.buf.bw.toNat := by omega
          have a4 : 31 - j % 32 < 32 := by omega
          simp only [h1, h2, a1, a2, a3, a4, if_true, if_false, decide_true, decide_false, Bool.not_false, Bool.and_true,
            Bool.true_and, Bool.false_or]
        · have a2 : 31 - j % 32 < 32 - s.buf.bo.toNat - s.buf.bw.toNat := by omega
          simp [h1, h2, a2]
    · rw [if_neg (fun h' => hi (bufAddr_inj (by omega) (by omega) h'))] at hw
      rw [streamBit_congr hw]
      by_cases h1 : j < s.position
      · rw [if_pos h1]
      · rw [if_neg h1, if_neg (by omega), hout h1]
  · have hmem : t.mem = (s.mem.setWord (s.bufAddr s.buf.wc.toNat) (s.bufferWord s.buf.wc.toNat |||
        ((x &&& mask 32 s.buf.bw.toNat) >>> r))).setWord (s.bufAddr (s.buf.wc.toNat + 1))
        ((x &&& mask 32 s.buf.bw.toNat &&& mask 32 r) <<< (32 - r)) := by
      rw [ht]; rfl
    rw [hmem, Memory.getWord_setWord (Memory.setWord_wf hm _ _), Memory.getWord_setWord hm] at hw
    have e : t.streamBit j = (t.bufferWord (j / 32)).getLsbD (31 - j % 32) := rfl
    by_cases hi : j / 32 = s.buf.wc.toNat
    · rw [if_neg (fun h' => absurd (bufAddr_inj (by omega) (by omega) h') (by omega)), if_pos (by rw [hi])] at hw
      have hs := streamBit_eq s (j := j) (i := s.buf.wc.toNat) (p := j % 32) (by omega) (by omega)
      rw [e, hw, BitVec.getLsbD_or, ← hs, BitVec.getLsbD_ushiftRight, getLsbD_and_mask hw2]
      by_cases h1 : j < s.position
      · have a1 : ¬ r + (31 - j % 32) < s.buf.bw.toNat := by omega
        simp [h1, a1]
      · rw [hout h1, if_neg h1, if_pos (by omega)]
        have a1 : r + (31 - j % 32) = s.buf.bw.toNat - 1 - (j - s.position) := by omega
        have a3 : s.buf.bw.toNat - 1 - (j - s.position) < s.buf.bw.toNat := by omega
        simp [a1, a3]
    · by_cases hi' : j / 32 = s.buf.wc.toNat + 1
      · rw [if_pos (by rw [hi'])] at hw
        rw [e, hw, BitVec.getLsbD_shiftLeft, getLsbD_and_mask (by omega), getLsbD_and_mask hw2, if_neg (by omega)]
        by_cases h2 : j < s.position + s.buf.bw.toNat
        · rw [if_pos h2]
          have a1 : 31 - j % 32 - (32 - r) = s.buf.bw.toNat - 1 - (j - s.position) := by omega
          have a2 : ¬ 31 - j % 32 < 32 - r := by omega
          have a3 : s.buf.bw.toNat - 1 - (j - s.position) < s.buf.bw.toNat := by omega
          have a4 : s.buf.bw.toNat - 1 - (j - s.position) < r := by omega
          have a5 : 31 - j % 32 < 32 := by omega
          simp [a1, a2, a3, a4, a5]
        · rw [if_neg h2]
          have a2 : 31 - j % 32 < 32 - r := by omega
          simp [a2]
      · rw [if_neg (fun h' => hi' (bufAddr_inj (by omega) (by omega) h')),
          if_neg (fun h' => hi (bufAddr_inj (by omega) (by omega) h'))] at hw
        rw [streamBit_congr hw]
        by_cases h1 : j < s.position
        · rw [if_pos h1]
        · rw [if_neg h1, if_neg (by omega), hout h1]

/-- What EXTEND_core read, the platform answers (R56). -/
theorem extendCore_reads {x : Word} {s t : State} (h : extendCore x s = .ok t) :
    s.canRead s.buf.wc.toNat ∧ (32 < s.buf.bo.toNat + s.buf.bw.toNat → s.canRead (s.buf.wc.toNat + 1)) := by
  unfold extendCore at h
  simp only [] at h
  split at h
  · cases h
  obtain ⟨cw, hcw, h⟩ := Act.bind_eq_ok.1 h
  refine ⟨(memRead32_eq_ok.1 hcw).1, fun hst => ?_⟩
  split at h
  · cases h
  split at h
  · omega
  unfold extendStraddling at h
  simp only [] at h
  split at h
  · cases h
  obtain ⟨nw, hnw, -⟩ := Act.bind_eq_ok.1 h
  exact (memRead32_eq_ok.1 hnw).1

/-- A buffer word whose stream bits are all zero is zero. -/
theorem bufferWord_eq_zero {s : State} {i : Nat} (h : ∀ p, p < 32 → s.streamBit (32 * i + p) = false) :
    s.bufferWord i = 0#32 := by
  apply BitVec.eq_of_getLsbD_eq
  intro n hn
  have := h (31 - n) (by omega)
  rw [streamBit_eq s rfl (by omega), show 31 - (31 - n) = n by omega] at this
  simpa using this

/-- EXTEND_core goes on where the block fits into the buffer, the bits beyond the cursor are zero and the platform
answers (R124). -/
theorem extendCore_goes_on {s : State} (x : Word) (hc : s.cursorInRange)
    (hfit : s.position + s.buf.bw.toNat ≤ 32 * s.buf.cap.toNat)
    (hz : ∀ j, s.position ≤ j → j < 32 * s.buf.cap.toNat → s.streamBit j = false)
    (hr : ∀ i, i < s.buf.cap.toNat → s.canRead i ∧ s.canWrite i) : ∃ t, extendCore x s = .ok t := by
  have hb := bo_lt s
  obtain ⟨-, hw1, hw2, -⟩ := hc
  have hpos : s.position = 32 * s.buf.wc.toNat + s.buf.bo.toNat := rfl
  have hwc : s.buf.wc.toNat < s.buf.cap.toNat := by omega
  have rd : ∀ i, i < s.buf.cap.toNat → memRead32 s (s.bufAddr i) = .ok (s.bufferWord i) :=
    fun i hi => memRead32_eq_ok.2 ⟨(hr i hi).1, rfl⟩
  have zero : ∀ i, s.position ≤ 32 * i → i < s.buf.cap.toNat → s.bufferWord i = 0#32 :=
    fun i h1 h2 => bufferWord_eq_zero fun p hp => hz _ (by omega) (by omega)
  have wr : ∀ (u : State) (i : Nat) (v : Word), u.platform = s.platform → i < s.buf.cap.toNat →
      ∃ t, memWrite32 u (s.bufAddr i) v = .ok t ∧ t.platform = s.platform :=
    fun u i v hu hi => ⟨_, memWrite32_eq_ok.2 ⟨by rw [hu]; exact (hr i hi).2, rfl⟩, hu⟩
  unfold extendCore
  simp only []
  rw [if_neg (by omega), rd _ hwc, Act.bind_ok, if_neg (by
    rintro ⟨h1, h2⟩
    exact h2 (zero _ (by omega) hwc))]
  split
  · unfold extendFitting
    simp only []
    split
    · rename_i h32
      have hq : requireZero s (s.buf.wc.toNat + 1) = .ok () :=
        requireZero_eq_ok.2 ⟨(hr _ h32.2).1, zero _ (by omega) h32.2⟩
      obtain ⟨u, hu, -⟩ := wr s s.buf.wc.toNat (s.bufferWord s.buf.wc.toNat |||
        ((x &&& mask 32 s.buf.bw.toNat) <<< (32 - s.buf.bo.toNat - s.buf.bw.toNat))) rfl hwc
      rw [hq, Act.bind_ok, hu, Act.bind_ok]
      exact ⟨_, rfl⟩
    · obtain ⟨u, hu, -⟩ := wr s s.buf.wc.toNat (s.bufferWord s.buf.wc.toNat |||
        ((x &&& mask 32 s.buf.bw.toNat) <<< (32 - s.buf.bo.toNat - s.buf.bw.toNat))) rfl hwc
      rw [Act.bind_ok, hu, Act.bind_ok]
      exact ⟨_, rfl⟩
  · unfold extendStraddling
    simp only []
    have hlt : s.buf.wc.toNat + 1 < s.buf.cap.toNat := by omega
    obtain ⟨u, hu, hp⟩ := wr s s.buf.wc.toNat (s.bufferWord s.buf.wc.toNat |||
      ((x &&& mask 32 s.buf.bw.toNat) >>> (s.buf.bo.toNat + s.buf.bw.toNat - 32))) rfl hwc
    rw [if_neg (by omega), rd _ hlt, Act.bind_ok, if_neg (not_not_intro (zero _ (by omega) hlt)), hu, Act.bind_ok]
    obtain ⟨u', hu', -⟩ := wr u (s.buf.wc.toNat + 1) (s.bufferWord (s.buf.wc.toNat + 1) |||
      ((x &&& mask 32 s.buf.bw.toNat &&& mask 32 (s.buf.bo.toNat + s.buf.bw.toNat - 32)) <<<
        (32 - (s.buf.bo.toNat + s.buf.bw.toNat - 32)))) hp hlt
    rw [hu', Act.bind_ok]
    exact ⟨_, rfl⟩

/-! ### NEXT_core -/

/-- No read of the running pass returns a free value: the pass, if one runs, is a 32-bit one or an extract, or no word
of the buffer aliases a matrix byte it has written (R210). -/
abbrev State.readsBufferItself (s : State) : Prop :=
  s.status.busy = false ∨ s.pass.op = .extract ∨ s.pass.ew = .w32 ∨
    ∀ i, i < s.buf.cap.toNat → s.wordAliasesWritten (s.bufAddr i) = false

theorem readBuffer_of_itself {s : State} (h : s.readsBufferItself) {i : Nat} (hi : i < s.buf.cap.toNat)
    (hr : s.canRead i) : readBuffer s (s.bufAddr i) = .ok (s.bufferWord i, s) := by
  refine readBuffer_eq_of_admitted hr ?_
  rcases h with h | h | h | h
  · exact .inl h
  · exact .inr (.inl h)
  · exact .inr (.inr (.inl h))
  · exact .inr (.inr (.inr (h i hi)))

/-- NEXT_core reads the block at the cursor, most significant bit first (R54, R130). -/
theorem nextCore_stream {s t : State} {v : Word} (hc : s.cursorInRange) (ha : s.readsBufferItself)
    (h : nextCore s = .ok (v, t)) (i : Nat) :
    v.getLsbD i = (decide (i < s.buf.bw.toNat) && s.streamBit (s.position + s.buf.bw.toNat - 1 - i)) := by
  have hb := bo_lt s
  obtain ⟨-, hw1, hw2, -⟩ := hc
  have hpos : s.position = 32 * s.buf.wc.toNat + s.buf.bo.toNat := rfl
  obtain ⟨hwc, cw, u, hu, hcase⟩ := nextCore_ok h
  have h1 := readBuffer_of_itself ha hwc (readBuffer_ok hu).1
  rw [hu] at h1
  obtain ⟨hcw, hus⟩ : cw = s.bufferWord s.buf.wc.toNat ∧ u = s := by simpa using h1
  subst cw u
  rcases hcase with ⟨hfit, rfl, -⟩ | ⟨hst, hlt, nw, u', r, hu', hr, rfl, -⟩
  · rw [getLsbD_slice _ (by omega)]
    by_cases hi : i < s.buf.bw.toNat
    · rw [streamBit_eq s (i := s.buf.wc.toNat) (p := s.buf.bo.toNat + s.buf.bw.toNat - 1 - i) (by omega) (by omega)]
      have a2 : 32 - (s.buf.bo.toNat + s.buf.bw.toNat) + i = 31 - (s.buf.bo.toNat + s.buf.bw.toNat - 1 - i) := by omega
      simp [hi, a2]
    · simp [hi]
  · have h2 := readBuffer_of_itself ha hlt (readBuffer_ok hu').1
    rw [hu'] at h2
    obtain ⟨hnw, hus⟩ : nw = s.bufferWord (s.buf.wc.toNat + 1) ∧ u' = s := by simpa using h2
    subst nw u'
    rw [BitVec.getLsbD_or, BitVec.getLsbD_shiftLeft, getLsbD_slice _ (by omega), getLsbD_slice _ (by omega)]
    by_cases hi : i < r
    · rw [streamBit_eq s (i := s.buf.wc.toNat + 1) (p := r - 1 - i) (by omega) (by omega)]
      have a1 : i < r - 0 := by omega
      have a2 : 32 - r + i = 31 - (r - 1 - i) := by omega
      have a3 : i < s.buf.bw.toNat := by omega
      simp [hi, a2, a3]
    · have a1 : ¬ i < r - 0 := by omega
      by_cases hi' : i < s.buf.bw.toNat
      · rw [streamBit_eq s (i := s.buf.wc.toNat) (p := s.buf.bo.toNat + s.buf.bw.toNat - 1 - i) (by omega) (by omega)]
        have a2 : i - r = 31 - (s.buf.bo.toNat + s.buf.bw.toNat - 1 - i) := by omega
        have a3 : 31 - (s.buf.bo.toNat + s.buf.bw.toNat - 1 - i) < 32 - s.buf.bo.toNat := by omega
        have a4 : i < 32 := by omega
        simp [hi, hi', a2, a3, a4]
      · have a3 : ¬ i - r < 32 - s.buf.bo.toNat := by omega
        simp [hi, hi', a3]

/-- NEXT_core goes on where the buffer still holds a block and the platform answers (R130). -/
theorem nextCore_goes_on {s : State} (hc : s.cursorInRange) (ha : s.readsBufferItself)
    (hfit : s.position + s.buf.bw.toNat ≤ 32 * s.buf.cap.toNat) (h0 : s.canRead s.buf.wc.toNat)
    (h1 : 32 < s.buf.bo.toNat + s.buf.bw.toNat → s.canRead (s.buf.wc.toNat + 1)) :
    ∃ v t, nextCore s = .ok (v, t) ∧ t.freeCount = s.freeCount := by
  have hb := bo_lt s
  obtain ⟨-, hw1, hw2, -⟩ := hc
  have hpos : s.position = 32 * s.buf.wc.toNat + s.buf.bo.toNat := rfl
  have hwc : s.buf.wc.toNat < s.buf.cap.toNat := by omega
  unfold nextCore
  simp only []
  rw [if_neg (by omega), readBuffer_of_itself ha hwc h0, Act.bind_ok]
  simp only []
  split
  · exact ⟨_, _, rfl, by split <;> rfl⟩
  · have hlt : s.buf.wc.toNat + 1 < s.buf.cap.toNat := by omega
    rw [if_neg (by omega), readBuffer_of_itself ha hlt (h1 (by omega)), Act.bind_ok]
    exact ⟨_, _, rfl, rfl⟩

/-! ### FILL_core -/

/-- FILL_core changes no bit before the cursor (R136). -/
theorem fillCore_stream {p : Word} {s t : State} (hm : s.mem.wf = true) (h : fillCore p s = .ok t) {j : Nat}
    (hj : j < s.position) (hlt : j < 2 ^ 37) : t.streamBit j = s.streamBit j := by
  have hb := bo_lt s
  have hcap := cap_lt s
  have hpos : s.position = 32 * s.buf.wc.toNat + s.buf.bo.toNat := rfl
  rcases fillCore_ok h with ⟨-, rfl⟩ | ⟨hb0, hwc, rfl⟩
  · rfl
  have hw : (s.setMem (s.mem.setWord (s.bufAddr s.buf.wc.toNat)
      (s.bufferWord s.buf.wc.toNat ||| (p >>> s.buf.bo.toNat)))).bufferWord (j / 32) =
      (s.mem.setWord (s.bufAddr s.buf.wc.toNat)
        (s.bufferWord s.buf.wc.toNat ||| (p >>> s.buf.bo.toNat))).getWord (s.bufAddr (j / 32)) := rfl
  rw [Memory.getWord_setWord hm] at hw
  by_cases hi : j / 32 = s.buf.wc.toNat
  · rw [if_pos (by rw [hi])] at hw
    unfold State.streamBit
    rw [hw, hi, BitVec.getLsbD_or, BitVec.getLsbD_ushiftRight, BitVec.getLsbD_of_ge p _ (by omega), Bool.or_false]
  · rw [if_neg (fun h' => hi (bufAddr_inj (by omega) (by omega) h'))] at hw
    exact streamBit_congr hw

/-- FILL_core goes on within the cursor's range where the platform answers (R135). -/
theorem fillCore_goes_on {s : State} (p : Word) (hc : s.cursorInRange)
    (hr : s.buf.wc.toNat < s.buf.cap.toNat → s.canRead s.buf.wc.toNat ∧ s.canWrite s.buf.wc.toNat) :
    ∃ t, fillCore p s = .ok t := by
  unfold fillCore
  simp only []
  split
  · rename_i hb
    have hlt : s.buf.wc.toNat < s.buf.cap.toNat := by
      rcases Nat.lt_or_ge s.buf.wc.toNat s.buf.cap.toNat with h | h
      · exact h
      · have := hc.2.2.2 (BitVec.eq_of_toNat_eq (by have := hc.1; omega))
        exact absurd (by simp [this]) hb
    have rd : memRead32 s (s.bufAddr s.buf.wc.toNat) = .ok (s.bufferWord s.buf.wc.toNat) :=
      memRead32_eq_ok.2 ⟨(hr hlt).1, rfl⟩
    rw [if_neg (by omega), rd, Act.bind_ok]
    exact ⟨_, memWrite32_eq_ok.2 ⟨(hr hlt).2, rfl⟩⟩
  · exact ⟨_, rfl⟩

end Sys2Proof.Machine
end

