-- ==== Sys2Proof/Laws/Pass.lean ====
section
/-! SUPPORT. Micro-steps and runs of them (spec/42_matrix_pass.md), and which cells a matrix element occupies
(spec/20_memory.md R53, R55). -/

namespace Sys2Proof.Machine

/-! ### Runs -/

theorem run_succ {n : Nat} {s t : State} (h : step s = .next t) :
    Sys2Proof.core.run (n + 1) s = Sys2Proof.core.run n t := by
  have h' : Sys2Proof.core.step s = .next t := h
  simp only [Host.Core.run, h']

theorem run_add {n m : Nat} {s t : State} (h : Sys2Proof.core.run n s = .next t) :
    Sys2Proof.core.run (n + m) s = Sys2Proof.core.run m t := by
  induction n generalizing s with
  | zero => cases h; rw [Nat.zero_add]
  | succ n ih =>
    rw [show n + 1 + m = (n + m) + 1 by omega]
    cases hs : step s with
    | next u => rw [run_succ hs] at h ⊢; exact ih h
    | fault r =>
      have h' : Sys2Proof.core.step s = .fault r := hs
      simp only [Host.Core.run, h'] at h; cases h
    | refused r =>
      have h' : Sys2Proof.core.step s = .refused r := hs
      simp only [Host.Core.run, h'] at h; cases h

/-- With nothing scheduled, the step of a busy engine is its micro-step. -/
theorem step_of_microStep {s t : State} (hs : s.schedule = []) (hb : s.status.busy = true)
    (h : microStep s = .next t) : step s = .next t := by
  simp only [step, hs, fairTurn, hb, if_true, h]

/-- What a micro-step can do, in terms of the cores of spec/41_buffer_cursor.md. -/
theorem microStep_core_cases {s t : State} (h : microStep s = .next t) :
    (∃ x n u, s.pass.k < s.pass.count ∧ s.pass.op = .extract ∧ extendCore x (s.setFreeCount n) = .ok u ∧
        t = u.advanceK) ∨
      (∃ b n u v, s.pass.k < s.pass.count ∧ s.pass.op = .insert ∧ nextCore s = .ok (b, u) ∧
        (∃ a e, writeElement (u.setFreeCount n) a e = .ok v) ∧ v = (u.setFreeCount n).setMem v.mem ∧ t = v.advanceK) ∨
      (∃ u, s.pass.count ≤ s.pass.k ∧ s.pass.op = .extract ∧ fillCore s.pass.fill s = .ok u ∧
        t = (u.setResult u.buf.cap).clearBusy) ∨
      (s.pass.count ≤ s.pass.k ∧ s.pass.op = .insert ∧
        t = (s.setResult (BitVec.ofNat 32 s.pass.count)).clearBusy) ∨
      ∃ f, t = s.takePassFault f (if s.pass.k < s.pass.count then s.pass.k else s.pass.count) := by
  rcases microStep_next_cases h with ⟨hk, hop, h⟩ | ⟨hk, hop, h⟩ | ⟨hk, hop, h⟩ | ⟨hk, hop, h⟩ | ⟨f, rfl⟩
  · left
    obtain ⟨⟨e, u⟩, hu, h⟩ := Act.bind_eq_ok.1 h
    obtain ⟨v, hv, h⟩ := Act.bind_eq_ok.1 h
    cases h
    obtain ⟨⟨n, rfl⟩, -⟩ := readElement_ok hu
    exact ⟨_, n, v, hk, hop, hv, rfl⟩
  · right; left
    obtain ⟨⟨b, u⟩, hu, h⟩ := Act.bind_eq_ok.1 h
    obtain ⟨⟨e, v⟩, hv, h⟩ := Act.bind_eq_ok.1 h
    obtain ⟨w, hw, h⟩ := Act.bind_eq_ok.1 h
    cases h
    obtain ⟨⟨n, rfl⟩, -⟩ := readElement_ok hv
    refine ⟨b, n, u, w, hk, hop, hu, ⟨_, _, hw⟩, ?_, rfl⟩
    unfold writeElement at hw
    split at hw
    · obtain ⟨-, rfl⟩ := memWrite32_eq_ok.1 hw; rfl
    · obtain ⟨-, rfl⟩ := memWrite8_eq_ok.1 hw; rfl
  · right; right; left
    obtain ⟨u, hu, h⟩ := Act.bind_eq_ok.1 h
    cases h
    exact ⟨u, hk, hop, hu, rfl⟩
  · cases h
    exact .inr (.inr (.inr (.inl ⟨hk, hop, rfl⟩)))
  · exact .inr (.inr (.inr (.inr ⟨f, rfl⟩)))

/-! ### Elements -/

theorem sliceElem_bit (ew : ElemWidth) (v : Word) {a b : Nat} (hb : b ≤ ew.bits) (i : Nat) :
    (sliceElem ew v a b).getLsbD i = (decide (i < b - a) && v.getLsbD (ew.bits - b + i)) := by
  cases ew <;> simp only [ElemWidth.bits] at * <;> simp only [sliceElem]
  · rw [getLsbD_slice _ (by omega)]
  · rw [BitVec.getLsbD_setWidth, getLsbD_slice _ (by omega), BitVec.getLsbD_setWidth]
    by_cases h : i < b - a
    · simp [h, show i < 32 by omega, show 8 - b + i < 8 by omega]
    · simp [h]

theorem mergeElem_bit (ew : ElemWidth) (e v : Word) {a b : Nat} (hab : a < b) (hb : b ≤ ew.bits) {p : Nat}
    (hp : p < ew.bits) :
    (mergeElem ew e v a b).getLsbD (ew.bits - 1 - p) =
      if a ≤ p ∧ p < b then v.getLsbD (b - 1 - p) else e.getLsbD (ew.bits - 1 - p) := by
  cases ew <;> simp only [ElemWidth.bits] at * <;> simp only [mergeElem]
  · rw [getLsbD_merge _ _ (by omega) hb]
    by_cases h : a ≤ p ∧ p < b
    · rw [if_pos h, if_pos (by omega)]; congr 1; omega
    · rw [if_neg h, if_neg (by omega)]
  · rw [BitVec.getLsbD_setWidth, getLsbD_merge _ _ (by omega) hb]
    by_cases h : a ≤ p ∧ p < b
    · rw [if_pos h, if_pos (by omega)]; simp [show 8 - 1 - p < 32 by omega]; congr 1; omega
    · rw [if_neg h, if_neg (by omega), BitVec.getLsbD_setWidth]
      simp [show 8 - 1 - p < 32 by omega, show 8 - 1 - p < 8 by omega]

theorem matrixCells_congr {s u : State} (hp : u.platform = s.platform) (ew : ElemWidth) (m : Word) (k : Nat) :
    u.matrixCells ew m k = s.matrixCells ew m k := by
  cases ew <;> simp [State.matrixCells, hp]

/-- An element reads the same where its cells do. -/
theorem matrixElement_congr {s u : State} (hp : u.platform = s.platform) {ew : ElemWidth} {m : Word} {k : Nat}
    (h : ∀ c ∈ s.matrixCells ew m k, u.mem.get c = s.mem.get c) :
    u.matrixElement ew m k = s.matrixElement ew m k := by
  cases ew
  · exact Memory.getWord_congr h
  · unfold State.matrixElement State.byteAt
    simp only []
    rw [hp, h _ (by simp [State.matrixCells])]

/-- A byte whose cell lies in no buffer word does not alias the buffer (R210). -/
theorem byteAliasesBuffer_eq_false {u : State} {a : Word}
    (h : ∀ i, i < u.buf.cap.toNat → byteCell u.platform a ∉ wordCells (u.bufAddr i)) :
    u.byteAliasesBuffer a = false := by
  unfold State.byteAliasesBuffer
  cases hA : aliasOf u.platform.aliasRuns a with
  | none => rfl
  | some p =>
    obtain ⟨w, l⟩ := p
    simp only [decide_eq_false_iff_not]
    refine fun hlt => h _ hlt (byteCell_mem_wordCells.2 ⟨l, ?_⟩)
    rw [hA]
    unfold State.bufAddr
    rw [BitVec.ofNat_toNat, BitVec.setWidth_eq, BitVec.add_comm, BitVec.sub_add_cancel]

/-- A buffer whose cells no element below K occupies is read as it is (R210). -/
theorem readsBufferItself_of_disjoint {u : State}
    (h : ∀ k i c, k < u.pass.k → i < u.buf.cap.toNat → c ∈ wordCells (u.bufAddr i) → c ∉ u.elementCells k) :
    u.readsBufferItself := by
  cases hew : u.pass.ew
  · exact .inr (.inr (.inl hew))
  · refine .inr (.inr (.inr fun i hi => ?_))
    by_contra hne
    have ht : u.wordAliasesWritten (u.bufAddr i) = true := by simpa using hne
    unfold State.wordAliasesWritten at ht
    rw [List.any_eq_true] at ht
    obtain ⟨r, -, ht⟩ := ht
    rw [Bool.and_eq_true, decide_eq_true_eq] at ht
    obtain ⟨h1, h2⟩ := ht
    cases hA : aliasOf u.platform.aliasRuns (runByte r (u.bufAddr i)) with
    | none => rw [hA] at h2; cases h2
    | some p =>
      obtain ⟨w', l⟩ := p
      rw [hA] at h2
      simp only [decide_eq_true_eq] at h2
      subst h2
      have e1 : u.pass.mbase + BitVec.ofNat 32 (runByte r (u.bufAddr i) - u.pass.mbase).toNat =
          runByte r (u.bufAddr i) := by
        rw [BitVec.ofNat_toNat, BitVec.setWidth_eq, BitVec.add_comm, BitVec.sub_add_cancel]
      refine h _ i (byteCell u.platform (runByte r (u.bufAddr i))) h1 hi (byteCell_mem_wordCells.2 ⟨l, hA⟩) ?_
      simp only [State.elementCells, State.matrixCells, hew, e1, List.mem_singleton]

end Sys2Proof.Machine
end

