-- ==== Sys2Proof/Laws/Passive.lean ====
section
/-! SUPPORT. What the cores of spec/41_buffer_cursor.md and the micro-steps of spec/42_matrix_pass.md do not read: with
STATUS and the ARGs replaced they do the same (R78, R209). -/

namespace Sys2Proof.Machine

namespace Act

variable {α β γ : Type}

/-- A function applied to what a part of a step answers. -/
def map (f : α → β) (x : Act α) : Act β := x.bind fun a => .ok (f a)

@[simp] theorem map_ok (f : α → β) (a : α) : (Act.ok a).map f = .ok (f a) := rfl
@[simp] theorem map_raise (f : α → β) (e : EngineFault) : (Act.raise e).map f = .raise e := rfl
@[simp] theorem map_stuck (f : α → β) (p : Config.Port) (a : Word) (k : Config.AccessKind) :
    (Act.stuck p a k).map f = .stuck p a k := rfl

theorem map_bind (f : β → γ) (x : Act α) (k : α → Act β) : (x.bind k).map f = x.bind fun a => (k a).map f := by
  cases x <;> rfl

theorem bind_map (f : α → β) (x : Act α) (k : β → Act γ) : (x.map f).bind k = x.bind fun a => k (f a) := by
  cases x <;> rfl

theorem map_ite (f : α → β) (c : Prop) [Decidable c] (x y : Act α) :
    (if c then x else y).map f = if c then x.map f else y.map f := by
  split <;> rfl

end Act

/-- STATUS and the ARGs replaced. -/
def State.over (s : State) (st : StatusBits) (a : Args) : State := { s with status := st, args := a }

@[simp] theorem State.over_buf (s : State) (st : StatusBits) (a : Args) : (s.over st a).buf = s.buf := rfl
@[simp] theorem State.over_args (s : State) (st : StatusBits) (a : Args) : (s.over st a).args = a := rfl
@[simp] theorem State.over_result (s : State) (st : StatusBits) (a : Args) : (s.over st a).result = s.result := rfl
@[simp] theorem State.over_status (s : State) (st : StatusBits) (a : Args) : (s.over st a).status = st := rfl
@[simp] theorem State.over_pass (s : State) (st : StatusBits) (a : Args) : (s.over st a).pass = s.pass := rfl
@[simp] theorem State.over_mem (s : State) (st : StatusBits) (a : Args) : (s.over st a).mem = s.mem := rfl
@[simp] theorem State.over_platform (s : State) (st : StatusBits) (a : Args) :
    (s.over st a).platform = s.platform := rfl
@[simp] theorem State.over_freeCount (s : State) (st : StatusBits) (a : Args) :
    (s.over st a).freeCount = s.freeCount := rfl
@[simp] theorem State.over_bufAddr (s : State) (st : StatusBits) (a : Args) (i : Nat) :
    (s.over st a).bufAddr i = s.bufAddr i := rfl
@[simp] theorem State.over_elemAddr (s : State) (st : StatusBits) (a : Args) (k : Nat) :
    (s.over st a).elemAddr k = s.elemAddr k := rfl
@[simp] theorem memRead32_over (s : State) (st : StatusBits) (a : Args) (x : Word) :
    memRead32 (s.over st a) x = memRead32 s x := rfl
@[simp] theorem requireZero_over (s : State) (st : StatusBits) (a : Args) (i : Nat) :
    requireZero (s.over st a) i = requireZero s i := rfl
@[simp] theorem State.over_setCursor (s : State) (st : StatusBits) (a : Args) (wc bo : Nat) :
    (s.over st a).setCursor wc bo = (s.setCursor wc bo).over st a := rfl

theorem State.over_ite (c : Prop) [Decidable c] (s t : State) (st : StatusBits) (a : Args) :
    (if c then s else t).over st a = if c then s.over st a else t.over st a := by
  split <;> rfl

theorem memWrite32_over (s : State) (st : StatusBits) (a : Args) (x v : Word) :
    memWrite32 (s.over st a) x v = (memWrite32 s x v).map fun t => t.over st a := by
  unfold memWrite32; rw [Act.map_ite]; rfl

theorem memWrite8_over (s : State) (st : StatusBits) (a : Args) (x : Word) (v : Byte) :
    memWrite8 (s.over st a) x v = (memWrite8 s x v).map fun t => t.over st a := by
  unfold memWrite8; rw [Act.map_ite]; rfl

/-- EXTEND_core reads neither STATUS nor an ARG. -/
theorem extendCore_over (x : Word) (s : State) (st : StatusBits) (a : Args) :
    extendCore x (s.over st a) = (extendCore x s).map fun t => t.over st a := by
  unfold extendCore extendFitting extendStraddling
  simp only [Act.map_ite, Act.map_bind, Act.map_raise, Act.map_ok, memWrite32_over, Act.bind_map, State.over_buf,
    State.over_bufAddr, memRead32_over, requireZero_over, State.over_setCursor, State.over_ite]
  rfl

/-- EXTEND_core does not read the count of free values. -/
theorem extendCore_setFreeCount (x : Word) (s : State) (n : Nat) :
    extendCore x (s.setFreeCount n) = (extendCore x s).map fun t => t.setFreeCount n := by
  have hbuf : (s.setFreeCount n).buf = s.buf := rfl
  have haddr : ∀ i, (s.setFreeCount n).bufAddr i = s.bufAddr i := fun _ => rfl
  have hread : ∀ y, memRead32 (s.setFreeCount n) y = memRead32 s y := fun _ => rfl
  have hzero : ∀ i, requireZero (s.setFreeCount n) i = requireZero s i := fun _ => rfl
  have hwrite : ∀ (t : State) y v, memWrite32 (t.setFreeCount n) y v = (memWrite32 t y v).map fun u => u.setFreeCount n := by
    intro t y v
    unfold memWrite32; rw [Act.map_ite]; rfl
  have hcursor : ∀ (t : State) wc bo, (t.setFreeCount n).setCursor wc bo = (t.setCursor wc bo).setFreeCount n :=
    fun _ _ _ => rfl
  have hite : ∀ (c : Prop) [Decidable c] (t u : State),
      (if c then t else u).setFreeCount n = if c then t.setFreeCount n else u.setFreeCount n := by
    intro c _ t u
    split <;> rfl
  unfold extendCore extendFitting extendStraddling
  simp only [Act.map_ite, Act.map_bind, Act.map_raise, Act.map_ok, hwrite, Act.bind_map, hbuf, haddr, hread, hzero,
    hcursor, hite]

/-- FILL_core reads neither STATUS nor an ARG. -/
theorem fillCore_over (p : Word) (s : State) (st : StatusBits) (a : Args) :
    fillCore p (s.over st a) = (fillCore p s).map fun t => t.over st a := by
  unfold fillCore
  simp only [Act.map_ite, Act.map_bind, Act.map_raise, Act.map_ok, memWrite32_over, State.over_buf, State.over_bufAddr,
    memRead32_over]

/-- Outside the case of I3 a buffer word is read from memory. -/
theorem readBuffer_of_unaliased {s : State} {a : Word}
    (h : s.status.busy = false ∨ s.pass.op = .extract ∨ s.pass.ew = .w32 ∨ s.wordAliasesWritten a = false) :
    readBuffer s a = (memRead32 s a).bind fun v => .ok (v, s) := by
  unfold readBuffer
  refine congrArg _ (funext fun v => if_neg ?_)
  rintro ⟨h1, h2, h3, h4⟩
  rcases h with h | h | h | h <;> simp_all

/-- NEXT_core reads no ARG, and no STATUS outside the case of I3. -/
theorem nextCore_over (s : State) (st : StatusBits) (a : Args) (hst : st.busy = false)
    (h0 : s.status.busy = false ∨ s.pass.op = .extract ∨ s.pass.ew = .w32 ∨
      s.wordAliasesWritten (s.bufAddr s.buf.wc.toNat) = false)
    (h1 : s.status.busy = false ∨ s.pass.op = .extract ∨ s.pass.ew = .w32 ∨
      s.wordAliasesWritten (s.bufAddr (s.buf.wc.toNat + 1)) = false) :
    nextCore (s.over st a) = (nextCore s).map fun t => (t.1, t.2.over st a) := by
  have e : ∀ x, readBuffer (s.over st a) x = (memRead32 s x).bind fun v => .ok (v, s.over st a) :=
    fun x => readBuffer_of_unaliased (s := s.over st a) (.inl hst)
  unfold nextCore
  simp only [e, readBuffer_of_unaliased h0, State.over_buf, State.over_bufAddr]
  cases memRead32 s (s.bufAddr s.buf.wc.toNat) with
  | raise f => simp only [Act.bind_raise, Act.map_ite, Act.map_raise]
  | stuck p x k => simp only [Act.bind_stuck, Act.map_ite, Act.map_raise, Act.map_stuck]
  | ok cw =>
    simp only [Act.bind_ok, e, readBuffer_of_unaliased h1, Act.map_ite, Act.map_raise, Act.map_ok]
    cases memRead32 s (s.bufAddr (s.buf.wc.toNat + 1)) <;>
      simp only [Act.bind_ok, Act.bind_raise, Act.bind_stuck, Act.map_ok, Act.map_raise, Act.map_stuck,
        State.over_setCursor, State.over_ite] <;> rfl

/-! ### The ARGs alone replaced -/

theorem State.setArgs_eq_over (s : State) (a : Args) : s.setArgs a = s.over s.status a := rfl

theorem readBuffer_setArgs (s : State) (a : Args) (x : Word) :
    readBuffer (s.setArgs a) x = (readBuffer s x).map fun t => (t.1, t.2.setArgs a) := by
  unfold readBuffer
  simp only [Act.map_bind, Act.map_ite, Act.map_ok]
  rfl

theorem readElement_setArgs (s : State) (a : Args) (x : Word) :
    readElement (s.setArgs a) x = (readElement s x).map fun t => (t.1, t.2.setArgs a) := by
  unfold readElement
  simp only [State.setArgs_pass]
  cases s.pass.ew <;> simp only [Act.map_bind, Act.map_ite, Act.map_ok] <;> rfl

theorem writeElement_setArgs (s : State) (a : Args) (x v : Word) :
    writeElement (s.setArgs a) x v = (writeElement s x v).map fun t => t.setArgs a := by
  unfold writeElement
  simp only [State.setArgs_pass]
  cases s.pass.ew <;> simp only [memWrite32, memWrite8, Act.map_ite] <;> rfl

theorem extendCore_setArgs (x : Word) (s : State) (a : Args) :
    extendCore x (s.setArgs a) = (extendCore x s).map fun t => t.setArgs a := by
  have h : (extendCore x s).map (fun t => t.over s.status a) = (extendCore x s).map fun t => t.setArgs a := by
    cases hx : extendCore x s with
    | ok t => simp only [Act.map_ok]; rw [(extendCore_frame hx).1]; rfl
    | raise f => rfl
    | stuck p b k => rfl
  rw [State.setArgs_eq_over, extendCore_over, h]

theorem fillCore_setArgs (p : Word) (s : State) (a : Args) :
    fillCore p (s.setArgs a) = (fillCore p s).map fun t => t.setArgs a := by
  have h : (fillCore p s).map (fun t => t.over s.status a) = (fillCore p s).map fun t => t.setArgs a := by
    cases hx : fillCore p s with
    | ok t => rcases fillCore_ok hx with ⟨-, rfl⟩ | ⟨-, -, rfl⟩ <;> rfl
    | raise f => rfl
    | stuck q b k => rfl
  rw [State.setArgs_eq_over, fillCore_over, h]

/-- NEXT_core reads no ARG. -/
theorem nextCore_setArgs (s : State) (a : Args) :
    nextCore (s.setArgs a) = (nextCore s).map fun t => (t.1, t.2.setArgs a) := by
  unfold nextCore
  simp only [readBuffer_setArgs, Act.map_bind, Act.bind_map, Act.map_ite, Act.map_raise, Act.map_ok,
    State.setArgs_buf, show ∀ i, (s.setArgs a).bufAddr i = s.bufAddr i from fun _ => rfl,
    show ∀ (c : Prop) [Decidable c] (u v : State), (if c then u else v).setArgs a =
      if c then u.setArgs a else v.setArgs a from fun c _ u v => by split <;> rfl]
  rfl

end Sys2Proof.Machine
end

