-- ==== Sys2Proof/Laws/PerInstr.lean ====
section
/-! SUPPORT. One family of facts per command: the word it is encoded as is one of the words of its row of the opcode
table (spec/30_encoding.md R75's match and mask). -/

namespace Sys2Proof.Laws

/-- `and` acts field by field on a word of five fields. -/
theorem and_fields (o o' : BitVec 4) (e e' : BitVec 2) (s s' t t' : BitVec 6) (z z' : BitVec 14) :
    ((o ++ e ++ s ++ t ++ z : Word) &&& (o' ++ e' ++ s' ++ t' ++ z' : Word)) =
      (o &&& o') ++ (e &&& e') ++ (s &&& s') ++ (t &&& t') ++ (z &&& z') := by
  rw [← BitVec.and_append, ← BitVec.and_append, ← BitVec.and_append, ← BitVec.and_append]

/-- Masking away START and STOP leaves the word with both zero. -/
theorem packFields_and_range_mask (opc ewc start stop : Nat) :
    packFields opc ewc start stop &&& 0xFC003FFF#32 = packFields opc ewc 0 0 := by
  have h : (0xFC003FFF#32 : Word) = BitVec.allOnes 4 ++ BitVec.allOnes 2 ++ 0#6 ++ 0#6 ++ BitVec.allOnes 14 := by
    decide
  rw [h]
  exact (and_fields _ _ _ _ _ _ _ _ _ _).trans (by
    simp only [BitVec.and_allOnes, BitVec.and_zero]; rfl)

/-- Masking away STOP leaves the word with it zero. -/
theorem packFields_and_stop_mask (opc ewc stop : Nat) :
    packFields opc ewc 0 stop &&& 0xFFF03FFF#32 = packFields opc ewc 0 0 := by
  have h : (0xFFF03FFF#32 : Word) =
      BitVec.allOnes 4 ++ BitVec.allOnes 2 ++ BitVec.allOnes 6 ++ 0#6 ++ BitVec.allOnes 14 := by decide
  rw [h]
  exact (and_fields _ _ _ _ _ _ _ _ _ _).trans (by
    simp only [BitVec.and_allOnes, BitVec.and_zero]; rfl)

namespace MatchesRow

/-- The mask of the command's row (R75). -/
def mask : Instr → Word
  | .nop => 0xFFFFFFFF#32
  | .init _ => 0xFFF03FFF#32
  | .extend => 0xFFFFFFFF#32
  | .next => 0xFFFFFFFF#32
  | .fill => 0xFFFFFFFF#32
  | .slice32 _ _ => 0xFC003FFF#32
  | .slice8 _ _ => 0xFC003FFF#32
  | .merge32 _ _ => 0xFC003FFF#32
  | .merge8 _ _ => 0xFC003FFF#32
  | .extract32 _ _ => 0xFC003FFF#32
  | .extract8 _ _ => 0xFC003FFF#32
  | .insert32 _ _ => 0xFC003FFF#32
  | .insert8 _ _ => 0xFC003FFF#32
  | .reset => 0xFFFFFFFF#32

/-- The match value of the command's row (R75). -/
def value : Instr → Word
  | .nop => 0x00000000#32
  | .init _ => 0x10000000#32
  | .extend => 0x20000000#32
  | .next => 0x30000000#32
  | .fill => 0x40000000#32
  | .slice32 _ _ => 0x50000000#32
  | .slice8 _ _ => 0x54000000#32
  | .merge32 _ _ => 0x60000000#32
  | .merge8 _ _ => 0x64000000#32
  | .extract32 _ _ => 0x70000000#32
  | .extract8 _ _ => 0x74000000#32
  | .insert32 _ _ => 0x80000000#32
  | .insert8 _ _ => 0x84000000#32
  | .reset => 0xF0000000#32

/-- The command's word matches its row (R75). -/
def Statement (i : Instr) : Prop := encode i &&& mask i = value i

theorem nop : Statement .nop := by unfold Statement; decide
theorem init (bw : Nat) : Statement (.init bw) := packFields_and_stop_mask _ _ _
theorem extend : Statement .extend := by unfold Statement; decide
theorem next : Statement .next := by unfold Statement; decide
theorem fill : Statement .fill := by unfold Statement; decide
theorem slice32 (start stop : Nat) : Statement (.slice32 start stop) := packFields_and_range_mask _ _ _ _
theorem slice8 (start stop : Nat) : Statement (.slice8 start stop) := packFields_and_range_mask _ _ _ _
theorem merge32 (start stop : Nat) : Statement (.merge32 start stop) := packFields_and_range_mask _ _ _ _
theorem merge8 (start stop : Nat) : Statement (.merge8 start stop) := packFields_and_range_mask _ _ _ _
theorem extract32 (start stop : Nat) : Statement (.extract32 start stop) := packFields_and_range_mask _ _ _ _
theorem extract8 (start stop : Nat) : Statement (.extract8 start stop) := packFields_and_range_mask _ _ _ _
theorem insert32 (start stop : Nat) : Statement (.insert32 start stop) := packFields_and_range_mask _ _ _ _
theorem insert8 (start stop : Nat) : Statement (.insert8 start stop) := packFields_and_range_mask _ _ _ _
theorem reset : Statement .reset := by unfold Statement; decide

end MatchesRow

end Sys2Proof.Laws
end

