-- ==== Sys2Proof/Tests/Slice0.lean ====
section
/-! SUPPORT. Tests. Expected values are the vectors of spec/95_test_vectors.md (V…) or are worked out by hand from the
rule named. The witnesses at the end show that the hypotheses of each obligation can be met together. -/

namespace Sys2Proof.Tests

open Sys2Proof.Machine Sys2Proof.Config

/-! ### Well-formed commands -/

theorem test_wf_init_refuses_64 : ¬ (Instr.init 64).wellFormed := by decide
theorem test_wf_slice32_refuses_start_64 : ¬ (Instr.slice32 64 0).wellFormed := by decide
theorem test_wf_slice32_refuses_stop_64 : ¬ (Instr.slice32 0 64).wellFormed := by decide
theorem test_wf_slice8_refuses_start_64 : ¬ (Instr.slice8 64 0).wellFormed := by decide
theorem test_wf_slice8_refuses_stop_64 : ¬ (Instr.slice8 0 64).wellFormed := by decide
theorem test_wf_merge32_refuses_start_64 : ¬ (Instr.merge32 64 0).wellFormed := by decide
theorem test_wf_merge32_refuses_stop_64 : ¬ (Instr.merge32 0 64).wellFormed := by decide
theorem test_wf_merge8_refuses_start_64 : ¬ (Instr.merge8 64 0).wellFormed := by decide
theorem test_wf_merge8_refuses_stop_64 : ¬ (Instr.merge8 0 64).wellFormed := by decide
theorem test_wf_extract32_refuses_start_64 : ¬ (Instr.extract32 64 0).wellFormed := by decide
theorem test_wf_extract32_refuses_stop_64 : ¬ (Instr.extract32 0 64).wellFormed := by decide
theorem test_wf_extract8_refuses_start_64 : ¬ (Instr.extract8 64 0).wellFormed := by decide
theorem test_wf_extract8_refuses_stop_64 : ¬ (Instr.extract8 0 64).wellFormed := by decide
theorem test_wf_insert32_refuses_start_64 : ¬ (Instr.insert32 64 0).wellFormed := by decide
theorem test_wf_insert32_refuses_stop_64 : ¬ (Instr.insert32 0 64).wellFormed := by decide
theorem test_wf_insert8_refuses_start_64 : ¬ (Instr.insert8 64 0).wellFormed := by decide
theorem test_wf_insert8_refuses_stop_64 : ¬ (Instr.insert8 0 64).wellFormed := by decide

/-! ### Decoding: words of R75's table, of R79 and of V-E, written out; then the Illegal words of V-E -/

theorem test_decode_nop : decode 0x00000000#32 = some .nop := by decide
theorem test_decode_init : decode 0x10014000#32 = some (.init 5) := by decide
theorem test_decode_init_63 : decode 0x100FC000#32 = some (.init 63) := by decide
theorem test_decode_extend : decode 0x20000000#32 = some .extend := by decide
theorem test_decode_next : decode 0x30000000#32 = some .next := by decide
theorem test_decode_fill : decode 0x40000000#32 = some .fill := by decide
theorem test_decode_slice32 : decode 0b01010001110010000000000000000000#32 = some (.slice32 28 32) := by decide
theorem test_decode_slice8 : decode 0x54620000#32 = some (.slice8 6 8) := by decide
theorem test_decode_merge32 : decode 0x60860000#32 = some (.merge32 8 24) := by decide
theorem test_decode_merge8 : decode 0x64314000#32 = some (.merge8 3 5) := by decide
theorem test_decode_extract32 : decode 0x71C80000#32 = some (.extract32 28 32) := by decide
theorem test_decode_extract8 : decode 0x74214000#32 = some (.extract8 2 5) := by decide
theorem test_decode_insert32 : decode 0x81B80000#32 = some (.insert32 27 32) := by decide
theorem test_decode_insert8 : decode 0x84214000#32 = some (.insert8 2 5) := by decide
theorem test_decode_reset : decode 0xF0000000#32 = some .reset := by decide
theorem test_illegal_opc_9 : decode 0x90000000#32 = none := by decide
theorem test_illegal_opc_e : decode 0xE0000000#32 = none := by decide
theorem test_illegal_nop_z : decode 0x00000001#32 = none := by decide
theorem test_illegal_extend_stop : decode 0x20004000#32 = none := by decide
theorem test_illegal_fill_start : decode 0x40100000#32 = none := by decide
theorem test_illegal_nop_ewc : decode 0x0C000000#32 = none := by decide
theorem test_illegal_slice_ewc_2 : decode 0x58000000#32 = none := by decide
theorem test_illegal_init_start : decode 0x11010000#32 = none := by decide
theorem test_illegal_slice_z : decode 0x50080001#32 = none := by decide
theorem test_illegal_reset_z : decode 0xF0000001#32 = none := by decide
theorem test_decode_table_word : decodeTableWord 32 0x51C80000 = some (.slice32 28 32) := by decide

/-! ### States -/

/-- The state an outcome answers. -/
def next? : Host.Outcome State Fault Refusal → Option State
  | .next t => some t
  | .fault _ => none
  | .refused _ => none

/-- The machine after reset with ARG0 and ARG1 written. -/
def withArgs (a0 a1 : Word) : State := State.reset.setArgs { Args.reset with arg0 := a0, arg1 := a1 }

/-- The machine after reset with a cursor over the two words at 0x200, these words in it, and ARG0 written. -/
def withCursor (wc bo bw : Nat) (a0 w0 w1 : Word) : State :=
  { (withArgs a0 0#32) with
    buf := { base := 0x200#32, cap := 2#32, wc := BitVec.ofNat 32 wc, bo := BitVec.ofNat 5 bo, bw := BitVec.ofNat 6 bw }
    mem := (Memory.setWord [] 0x200#32 w0).setWord 0x201#32 w1 }

/-- The cursor, the two words, RESULT and STATUS after a command. -/
def outcome (s : State) (i : Instr) : Option (Nat × Nat × Word × Word × Word × Word) :=
  (next? (exec i s)).map fun t =>
    (t.buf.wc.toNat, t.buf.bo.toNat, t.wordAt 0x200#32, t.wordAt 0x201#32, t.result, t.statusWord)

/-! ### One command each -/

/-- V47. -/
theorem test_nop_changes_nothing : next? (exec .nop (withArgs 1#32 2#32)) = some (withArgs 1#32 2#32) := by decide
/-- V20. -/
theorem test_init_v20 : (next? (exec (.init 5) (State.reset.setArgs { Args.reset with
    arg0 := 35#32, arg1 := 0x40#32, arg2 := 2#32 }))).map (·.buf) =
      some { base := 0x40#32, cap := 2#32, wc := 0#32, bo := 0#5, bw := 5#6 } := by decide
/-- V25. -/
theorem test_init_v25 : (next? (exec (.init 33) (withArgs 8#32 8#32))).map (fun t => (t.buf, t.statusWord)) =
    some (Descriptor.reset, 0x1A#32) := by decide
/-- V26, the block that straddles. -/
theorem test_extend_v26 : outcome (withCursor 0 30 5 7#32 0x08864298#32 0#32) .extend =
    some (1, 3, 0x08864298#32, 0xE0000000#32, 0#32, 0#32) := by decide
/-- V33 (c): the straddle into a word that is not zero writes nothing. -/
theorem test_extend_v33c : outcome (withCursor 0 24 24 0xABCDEF#32 0xABCDEF00#32 0x80000000#32) .extend =
    some (0, 24, 0xABCDEF00#32, 0x80000000#32, 0#32, 0x32#32) := by decide
/-- V30, the seventh NEXT. -/
theorem test_next_v30 : outcome (withCursor 0 30 5 0#32 0x08864298#32 0xF5555555#32) .next =
    some (1, 3, 0x08864298#32, 0xF5555555#32, 7#32, 0#32) := by decide
/-- V32 (f), for NEXT: a straddle out of the last word. -/
theorem test_next_overflow : outcome (withCursor 1 16 24 0#32 0xFFFFFFFF#32 0xFFFF0000#32) .next =
    some (1, 16, 0xFFFFFFFF#32, 0xFFFF0000#32, 0#32, 0x22#32) := by decide
/-- V27. -/
theorem test_fill_v27 : outcome (withCursor 1 3 5 0xAAAAAAAA#32 0x08864298#32 0xE0000000#32) .fill =
    some (1, 3, 0x08864298#32, 0xF5555555#32, 0#32, 0#32) := by decide
/-- V28: one bit of padding. -/
theorem test_fill_v28 : outcome (withCursor 0 31 31 0x80000000#32 0#32 0#32) .fill =
    some (0, 31, 1#32, 0#32, 0#32, 0#32) := by decide
/-- V7. -/
theorem test_slice32_v7 : (next? (exec (.slice32 8 24) (withArgs 0xDEADBEEF#32 0#32))).map (·.result) =
    some 0xADBE#32 := by decide
/-- V17. -/
theorem test_slice32_v17 : (next? (exec (.slice32 5 5) (withArgs 1#32 0#32))).map (·.statusWord) =
    some 0x1A#32 := by decide
/-- V8. -/
theorem test_slice8_v8 : (next? (exec (.slice8 0 8) (withArgs 0xFFFFFF5A#32 0#32))).map (·.result) =
    some 0x5A#32 := by decide
/-- V19. -/
theorem test_slice8_v19 : (next? (exec (.slice8 0 9) (withArgs 1#32 0#32))).map (·.statusWord) =
    some 0x1A#32 := by decide
/-- V12. -/
theorem test_merge32_v12 : (next? (exec (.merge32 28 32) (withArgs 0x12345678#32 0x1F#32))).map (·.result) =
    some 0x1234567F#32 := by decide
/-- V14. -/
theorem test_merge32_v14 : (next? (exec (.merge32 0 32) (withArgs 0x12345678#32 0#32))).map (·.result) =
    some 0#32 := by decide
/-- R107's example. -/
theorem test_merge8_example : (next? (exec (.merge8 3 5) (withArgs 0xA5#32 3#32))).map (·.result) =
    some 0xBD#32 := by decide
/-- V16. -/
theorem test_merge8_v16 : (next? (exec (.merge8 0 4) (withArgs 0xFFFFFF5A#32 0xF#32))).map (·.result) =
    some 0xFA#32 := by decide

/-- The machine after reset with the arguments of a pass over 1 x 1 x 2 elements at 0x100 and a buffer of one word at
0x200, one word and two bytes in memory. -/
def passState (w : Word) (b0 b1 : Byte) : State :=
  { State.reset with
    args :=
      { arg0 := 0x100#32, arg1 := 1#32, arg2 := 2#32, arg3 := 1#32, arg4 := 0x200#32, arg5 := 1#32
        arg6 := 0xCAFEBABE#32 }
    mem := ((Memory.setWord [] 0x200#32 w).set (byteCell Platform.plain 0x100#32) b0).set
      (byteCell Platform.plain 0x101#32) b1 }

/-- V-A's first part has BUSY alone in STATUS; the count is 1 x 2 and 2 x 32 bits need two words, cut to LEN = 1. -/
theorem test_extract32_first_part : (next? (exec (.extract32 0 32) (passState 0#32 0#8 0#8))).map (fun t =>
    (t.buf.cap, t.buf.bw, t.pass.count, t.statusWord)) = some (1#32, 32#6, 2, 1#32) := by decide
/-- V40. -/
theorem test_extract8_v40 : (next? (exec (.extract8 0 9) (passState 0#32 0#8 0#8))).map (·.statusWord) =
    some 0x1A#32 := by decide
/-- V40. -/
theorem test_insert32_v40 : (next? (exec (.insert32 4 4) (passState 0#32 0#8 0#8))).map (·.statusWord) =
    some 0x1A#32 := by decide
/-- V39. -/
theorem test_insert32_v39 : ((next? (exec (.insert32 0 32) (State.reset))).map (·.statusWord)) = some 9#32 := by decide
/-- V37's first two steps: the first byte lies in the word's most significant byte. -/
theorem test_extract8_first_element : ((next? (exec (.extract8 0 8) (passState 0#32 0x11#8 0x22#8))).bind fun t =>
    next? (engineAct t)).map (fun t => (t.wordAt 0x200#32, t.buf.bo.toNat, t.pass.k)) =
      some (0x11000000#32, 8, 1) := by decide
/-- V38's first two steps. -/
theorem test_insert8_first_element : ((next? (exec (.insert8 4 8) (passState 0x5A000000#32 0xFF#8 0xFF#8))).bind
    fun t => next? (engineAct t)).map (fun t => (t.byteAt 0x100#32, t.byteAt 0x101#32)) =
      some (0xF5#8, 0xFF#8) := by decide
/-- V46. -/
theorem test_reset_leaves_fault : (next? (exec .reset (State.reset.takePassFault .bufferOverflow 8))).map (fun t =>
    (t.statusWord, t.result)) = some (8#32, 0#32) := by decide
/-- V45's frame: RESET keeps the ARGs and abandons the pass. -/
theorem test_reset_during_pass : (next? (exec .reset ((passState 1#32 0#8 0#8).startPass .extract .w32 0 32))).map
    (fun t => (t.args, t.mem, t.buf, t.status.busy)) =
      some ((passState 1#32 0#8 0#8).args, (passState 1#32 0#8 0#8).mem, Descriptor.reset, false) := by decide

/-! ### The probe and the host's side -/

/-- The pseudo-instructions of R80, and an assembler line of R79. -/
theorem test_pseudo_steps : argsSteps Platform.plain [1#32, 2#32] ++ runSteps Platform.plain (.init 5) =
    [.regWrite 0x20 4 1#32, .regWrite 0x24 4 2#32, .regWrite 0 4 0x10014000#32, .poll] := by decide

theorem test_asm_text : asmText (.slice32 28 32) = "SLICE32 28, 32" := by decide

/-- The first step after reset runs the probe's word (V2). -/
theorem test_probe_runs_slice32 : (next? (step ((withArgs 0x12345678#32 0#32).withFetchWord 32 0x51C80000))).map
    (·.result) = some 8#32 := by decide
/-- V-E: an Illegal word written from reset. -/
theorem test_illegal_word : (next? (hostStep (.regWrite 0 4 0x90000000#32) State.reset)).map (·.statusWord) =
    some 0x4A#32 := by decide
/-- R24: an unaligned access is refused. -/
theorem test_unaligned_access_refused : next? (hostStep (.regRead 2 4) State.reset) = none := by decide
/-- R24: STATUS after reset. -/
theorem test_status_after_reset : (next? (hostStep (.regRead 4 4) State.reset)).map (·.observed) = some [8#32] := by
  decide

/-! ### Witnesses: the hypotheses of each obligation, met together by concrete states, each clause at a boundary -/

/-- A platform that does not read buffer word 0 of the buffers above, whose byte 0x1000 names lane 3 of word 0x200, and
whose byte 0x2000 names lane 3 of word 0x201. -/
def oddPlatform : Platform :=
  { regBase := 0x40000000
    holes := [{ port := .word, kind := .read, first := 0x200, last := 0x200 }]
    aliasRuns := [{ byte0 := 0x1000, word0 := 0x200, count := 1, lane := 3 },
      { byte0 := 0x2000, word0 := 0x201, count := 1, lane := 3 }] }

/-- A state, on that platform. -/
def onOdd (s : State) : State := { s with platform := oddPlatform }

/-- A pass over two elements at 0x100 with a buffer of two words at 0x200, before element `k`, the element range being
the whole element. -/
def passing (op : PassOp) (ew : ElemWidth) (k : Nat) (w0 w1 : Word) : State :=
  { (withCursor (k * ew.bits / 32) (k * ew.bits % 32) ew.bits 0#32 w0 w1) with
    status := { StatusBits.reset with busy := true }
    pass :=
      { op := op, ew := ew, start := 0#6, stop := BitVec.ofNat 6 ew.bits, mbase := 0x100#32, count := 2, fill := 0#32
        k := k } }

/-- A state, on a platform that does not answer this kind of request on this port at this one address. -/
def lacking (port : Port) (kind : AccessKind) (addr : Nat) (s : State) : State :=
  { s with platform := { Platform.plain with holes := [{ port := port, kind := kind, first := addr, last := addr }] } }

/-- The state faulted with OVR set. -/
def dropped : State := (State.reset.takeFault .invalidRange).drop

theorem test_witness_decodeOfEncode :
    (Instr.init 63).wellFormed ∧ (Instr.slice32 0 63).wellFormed ∧ (Instr.insert8 63 0).wellFormed := by decide

theorem test_witness_decodedWordIsItsEncoding : decode 0x57FFC000#32 = some (.slice8 63 63) := by decide

theorem test_witness_illegalWordsExactly : decode 0xE0000000#32 = none ∧ State.reset.accepting := by decide

theorem test_witness_stepRuns_hostTurn :
    ∃ (s t : State), s.program = .regWrite s.platform.regBase 4 0x50080000#32 :: [] ∧
      decode 0x50080000#32 = some (.slice32 0 32) ∧ s.schedule = .host :: [] ∧
      exec (.slice32 0 32) ((s.setProgram []).setSchedule []) = .next t :=
  ⟨(State.reset.setProgram [.regWrite 0 4 0x50080000#32]).setSchedule [.host], _, rfl, by decide, rfl, rfl⟩

theorem test_witness_stepRuns_stuck :
    ∃ (s : State) (r : Fault), s.program = .regWrite s.platform.regBase 4 0x20000000#32 :: [] ∧
      decode 0x20000000#32 = some .extend ∧ s.schedule = .host :: [] ∧
      exec .extend ((s.setProgram []).setSchedule []) = .fault r :=
  ⟨((onOdd (withCursor 0 0 32 0#32 0#32 0#32)).setProgram [.regWrite 0x40000000 4 0x20000000#32]).setSchedule [.host],
    _, rfl, by decide, rfl, rfl⟩

theorem test_witness_stepRuns_idle :
    ∃ s : State, s.program = .regWrite s.platform.regBase 4 0#32 :: [] ∧ decode 0#32 = some .nop ∧ s.schedule = [] ∧
      s.status.busy = false :=
  ⟨State.reset.setProgram [.regWrite 0 4 0#32], rfl, by decide, rfl, rfl⟩

theorem test_witness_stepRuns_probe :
    ∃ t, decodeTableWord 32 0x50080000 = some (.slice32 0 32) ∧ exec (.slice32 0 32) State.reset = .next t :=
  ⟨_, by decide, rfl⟩

/-- A host turn on a host step that completes, one that is refused, and one with no host step left. -/
theorem test_witness_stepRuns_hostSteps : ∃ (s t u v : State) (r : Refusal),
    s.schedule = .host :: [] ∧ s.program = .memWrite8 7#32 1#8 :: [] ∧
    hostStep (.memWrite8 7#32 1#8) ((s.setProgram []).setSchedule []) = .next t ∧
    u.schedule = .host :: [] ∧ u.program = .regRead 2 4 :: [] ∧
    hostStep (.regRead 2 4) ((u.setProgram []).setSchedule []) = .refused r ∧
    v.schedule = .host :: [] ∧ v.program = [] :=
  ⟨(State.reset.setProgram [.memWrite8 7#32 1#8]).setSchedule [.host], _,
    (State.reset.setProgram [.regRead 2 4]).setSchedule [.host], State.reset.setSchedule [.host], _,
    rfl, rfl, rfl, rfl, rfl, rfl, rfl, rfl⟩

/-- An engine turn of a running pass, and one of an idle engine. -/
theorem test_witness_stepRuns_engineTurn : ∃ s t u : State, s.schedule = .engine :: [] ∧ s.status.busy = true ∧
    engineAct (s.setSchedule []) = .next t ∧ t.pass.k = 2 ∧ u.schedule = .engine :: [] ∧ u.status.busy = false :=
  ⟨(passing .insert .w32 1 3#32 4#32).setSchedule [.engine], _, State.reset.setSchedule [.engine], rfl, rfl, rfl, rfl,
    rfl, rfl⟩

/-- With nothing scheduled: a micro-step that goes on, and one that is blocked while the host has a step. -/
theorem test_witness_stepRuns_unscheduled : ∃ (s t u : State) (r : Fault), s.schedule = [] ∧ s.status.busy = true ∧
    microStep s = .next t ∧ u.schedule = [] ∧ u.status.busy = true ∧ microStep u = .fault r ∧
    u.program = .poll :: [] ∧ State.reset.schedule = [] ∧ State.reset.status.busy = false ∧
    State.reset.program = [] :=
  ⟨passing .insert .w32 1 3#32 4#32, _, (onOdd (passing .insert .w32 0 0#32 0#32)).setProgram [.poll], _, rfl, rfl, rfl,
    rfl, rfl, rfl, rfl, rfl, rfl, rfl⟩

theorem test_witness_unadmitted_command :
    ∃ s : State, s.accepting ∧ s.buf.wc.toNat < s.buf.cap.toNat ∧ ¬ s.canRead s.buf.wc.toNat ∧ s.buf.bo ≠ 0#5 :=
  ⟨onOdd (withCursor 0 31 32 0#32 0#32 0#32), by decide⟩

/-- What the clauses on the writes and on word WC + 1 ask of the state. -/
abbrev midBuffer (s : State) : Prop :=
  s.accepting ∧ s.buf.bw.toNat ≤ 32 ∧ s.buf.wc.toNat < s.buf.cap.toNat ∧ s.canRead s.buf.wc.toNat

theorem test_witness_unadmitted_write : ∃ s : State, midBuffer s ∧ s.buf.bo.toNat ≠ 0 ∧
    s.buf.bo.toNat + s.buf.bw.toNat = 32 ∧ s.buf.wc.toNat + 1 < s.buf.cap.toNat ∧ s.canRead (s.buf.wc.toNat + 1) ∧
    s.bufferWord (s.buf.wc.toNat + 1) = 0#32 ∧ ¬ s.canWrite s.buf.wc.toNat :=
  ⟨lacking .word .write 0x200 (withCursor 0 31 1 0#32 0#32 0#32), by decide⟩

theorem test_witness_unadmitted_nextRead : ∃ s u : State, midBuffer s ∧ s.buf.bo.toNat + s.buf.bw.toNat = 32 ∧
    s.buf.bo.toNat ≠ 0 ∧ s.buf.wc.toNat + 1 < s.buf.cap.toNat ∧ ¬ s.canRead (s.buf.wc.toNat + 1) ∧
    midBuffer u ∧ u.buf.bo.toNat + u.buf.bw.toNat = 33 ∧ u.buf.wc.toNat + 1 < u.buf.cap.toNat ∧
    ¬ u.canRead (u.buf.wc.toNat + 1) :=
  ⟨lacking .word .read 0x201 (withCursor 0 31 1 0#32 0#32 0#32),
    lacking .word .read 0x201 (withCursor 0 31 2 0#32 0#32 0#32), by decide⟩

theorem test_witness_unadmitted_straddleWrite : ∃ s u : State, midBuffer s ∧
    32 < s.buf.bo.toNat + s.buf.bw.toNat ∧ s.buf.wc.toNat + 1 < s.buf.cap.toNat ∧ s.canRead (s.buf.wc.toNat + 1) ∧
    s.bufferWord (s.buf.wc.toNat + 1) = 0#32 ∧ ¬ s.canWrite s.buf.wc.toNat ∧
    midBuffer u ∧ 32 < u.buf.bo.toNat + u.buf.bw.toNat ∧ u.buf.wc.toNat + 1 < u.buf.cap.toNat ∧
    u.canRead (u.buf.wc.toNat + 1) ∧ u.bufferWord (u.buf.wc.toNat + 1) = 0#32 ∧ u.canWrite u.buf.wc.toNat ∧
    ¬ u.canWrite (u.buf.wc.toNat + 1) :=
  ⟨lacking .word .write 0x200 (withCursor 0 31 32 0#32 0#32 0#32),
    lacking .word .write 0x201 (withCursor 0 1 32 0#32 0#32 0#32), by decide⟩

theorem test_witness_unadmitted_hostAccess :
    (∀ kind : AccessKind, kind = .read ∨ kind = .write →
      admits (lacking .word kind 0x200 State.reset).platform .word 0x200#32 kind = false ∧
        admits (lacking .byte kind 0x200 State.reset).platform .byte 0x200#32 kind = false) ∧
      admits (lacking .word .read 0x200 State.reset).platform .word 0x201#32 .read = true := by
  refine ⟨?_, by decide⟩
  rintro kind (rfl | rfl) <;> decide

theorem test_witness_admittedChanges : ∃ (s t : State), step s = .next t ∧
    t.mem.get (wordCell 0x200#32 1) ≠ s.mem.get (wordCell 0x200#32 1) :=
  ⟨State.reset.setProgram [.memWrite32 0x200#32 0xFF00#32], _, rfl, by decide⟩

theorem test_witness_unadmitted_hostTurn :
    ∃ (s : State) (r : Fault), s.schedule = .host :: [] ∧ hostAct (s.setSchedule []) = .fault r :=
  ⟨((onOdd State.reset).setProgram [.memRead32 0x200#32]).setSchedule [.host], _, rfl, rfl⟩

theorem test_witness_unadmitted_engineTurn :
    ∃ (s : State) (r : Fault), s.schedule = .engine :: [] ∧ s.status.busy = true ∧
      microStep (s.setSchedule []) = .fault r :=
  ⟨(onOdd (passing .insert .w32 0 0#32 0#32)).setSchedule [.engine], _, rfl, rfl, rfl⟩

theorem test_witness_unadmitted_stuck :
    ∃ (s : State) (r : Fault), s.schedule = [] ∧ s.program = [] ∧ s.status.busy = true ∧ microStep s = .fault r :=
  ⟨onOdd (passing .insert .w32 0 0#32 0#32), _, rfl, rfl, rfl, rfl⟩

theorem test_witness_dropped :
    (passing .insert .w32 0 0#32 0#32).status.busy = true ∧ dropped.status.fault = true ∧
      (0xF0000001#32 : Word) ≠ 0xF0000000#32 := by decide

theorem test_witness_ovrStays : ∃ t, dropped.status.ovr = true ∧ step dropped = .next t := ⟨_, rfl, rfl⟩

theorem test_witness_nop :
    State.reset.accepting ∧ dropped.status.fault = true ∧ (1#32 : Word).extractLsb' 28 4 = 0#4 ∧ (1#32 : Word) ≠ 0#32 := by
  decide

theorem test_witness_resetCommand :
    ∃ t, (0xF0000001#32 : Word).extractLsb' 28 4 = 0xF#4 ∧ dropped.status.fault = true ∧
      writeReg dropped 0xF0000001#32 .cmd = .next t :=
  ⟨_, by decide, rfl, rfl⟩

theorem test_witness_hardwareReset : (State.reset.setSchedule [.hardReset]).schedule = .hardReset :: [] := rfl

theorem test_witness_ranges : (0 < 8 ∧ 8 ≤ 8) ∧ (7 < 8 ∧ 8 ≤ 8) ∧ (0 < 32 ∧ 32 ≤ 32) ∧ (31 < 32 ∧ 32 ≤ 32) ∧
    ¬(8 < 8) ∧ ¬(9 ≤ 8) ∧ ¬(33 ≤ 32) ∧ State.reset.accepting := by decide

theorem test_witness_init : State.reset.accepting ∧ (1 ≤ (1#6).toNat ∧ (1#6).toNat ≤ 32) ∧
    (1 ≤ (32#6).toNat ∧ (32#6).toNat ≤ 32) ∧ ¬(1 ≤ (0#6).toNat) ∧ ¬((33#6).toNat ≤ 32) := by decide

/-- What every clause of the EXTEND statement asks of the state. -/
abbrev extendable (s : State) : Prop :=
  s.mem.wf = true ∧ s.accepting ∧ 1 ≤ s.buf.bw.toNat ∧ s.buf.bw.toNat ≤ 32

theorem test_witness_extend_full : ∃ s : State, extendable s ∧ s.buf.cap.toNat ≤ s.buf.wc.toNat :=
  ⟨withCursor 2 0 32 0#32 0#32 0#32, by decide⟩

theorem test_witness_extend_collision : ∃ s : State, extendable s ∧ s.buf.wc.toNat < s.buf.cap.toNat ∧
    s.canRead s.buf.wc.toNat ∧ s.buf.bo.toNat = 0 ∧ s.bufferWord s.buf.wc.toNat ≠ 0#32 :=
  ⟨withCursor 1 0 1 0#32 0#32 1#32, by decide⟩

theorem test_witness_extend_nextCollision : ∃ s : State, extendable s ∧ s.buf.wc.toNat < s.buf.cap.toNat ∧
    s.canRead s.buf.wc.toNat ∧ s.buf.bo.toNat + s.buf.bw.toNat = 32 ∧
    (s.buf.bo.toNat = 0 → s.bufferWord s.buf.wc.toNat = 0#32) ∧ s.buf.wc.toNat + 1 < s.buf.cap.toNat ∧
    s.canRead (s.buf.wc.toNat + 1) ∧ s.bufferWord (s.buf.wc.toNat + 1) ≠ 0#32 :=
  ⟨withCursor 0 0 32 0#32 0#32 1#32, by decide⟩

/-- What the clause of the EXTEND that fits asks of the state. -/
abbrev extendFits (s : State) : Prop :=
  extendable s ∧ s.buf.wc.toNat < s.buf.cap.toNat ∧ s.canRead s.buf.wc.toNat ∧
    s.buf.bo.toNat + s.buf.bw.toNat ≤ 32 ∧ (s.buf.bo.toNat = 0 → s.bufferWord s.buf.wc.toNat = 0#32) ∧
    (s.buf.bo.toNat + s.buf.bw.toNat = 32 → s.buf.wc.toNat + 1 < s.buf.cap.toNat →
      s.canRead (s.buf.wc.toNat + 1) ∧ s.bufferWord (s.buf.wc.toNat + 1) = 0#32) ∧ s.canWrite s.buf.wc.toNat

theorem test_witness_extend_fits : extendFits (withCursor 0 31 1 1#32 2#32 0#32) ∧
    extendFits (withCursor 1 0 32 1#32 2#32 0#32) ∧ extendFits (withCursor 0 0 31 1#32 0#32 5#32) := by decide

theorem test_witness_extend_straddleFull : ∃ s : State, extendable s ∧ s.buf.wc.toNat < s.buf.cap.toNat ∧
    s.canRead s.buf.wc.toNat ∧ 32 < s.buf.bo.toNat + s.buf.bw.toNat ∧ s.buf.cap.toNat ≤ s.buf.wc.toNat + 1 :=
  ⟨withCursor 1 1 32 0#32 0#32 0#32, by decide⟩

/-- What the clauses of the EXTEND that straddles ask of the state, but for the next word. -/
abbrev extendStraddles (s : State) : Prop :=
  extendable s ∧ s.buf.wc.toNat < s.buf.cap.toNat ∧ s.canRead s.buf.wc.toNat ∧
    32 < s.buf.bo.toNat + s.buf.bw.toNat ∧ s.buf.wc.toNat + 1 < s.buf.cap.toNat ∧ s.canRead (s.buf.wc.toNat + 1) ∧
    s.canWrite s.buf.wc.toNat ∧ s.canWrite (s.buf.wc.toNat + 1)

theorem test_witness_extend_straddles :
    extendStraddles (withCursor 0 31 2 0#32 0#32 1#32) ∧
      (withCursor 0 31 2 0#32 0#32 1#32).bufferWord 1 ≠ 0#32 ∧ extendStraddles (withCursor 0 31 32 0#32 2#32 0#32) ∧
      (withCursor 0 31 32 0#32 2#32 0#32).bufferWord 1 = 0#32 := by decide

/-- The clauses of NEXT: no word, a block that fits exactly, a straddle out of the last word, a straddle. -/
theorem test_witness_next : extendable (withCursor 2 0 32 0#32 0#32 0#32) ∧
    extendFits (withCursor 1 0 32 1#32 2#32 0#32) ∧
    (withCursor 1 1 32 0#32 0#32 0#32).canRead 1 ∧ extendStraddles (withCursor 0 1 32 0#32 2#32 0#32) := by decide

theorem test_witness_cursorAdvance : ∃ t, (withCursor 0 31 32 7#32 0#32 0#32).cursorInRange ∧
    (withCursor 0 31 32 7#32 0#32 0#32).accepting ∧ exec .extend (withCursor 0 31 32 7#32 0#32 0#32) = .next t ∧
    t.status.fault = false :=
  ⟨_, by decide, by decide, rfl, rfl⟩

theorem test_witness_cursorAdvance_mix : ∃ t0 t, State.reset.accepting ∧
    initWith 64#32 0x200#32 2#32 32 State.reset = .next t0 ∧
    commandAll [(.extend, 7#32), (.next, 0#32)] t0 = some t :=
  ⟨_, _, by decide, rfl, rfl⟩

theorem test_witness_bitsBeyond : ∃ s t : State, s.mem.wf = true ∧ s.cursorInRange ∧ s.accepting ∧
    exec .extend s = .next t ∧ t.status.fault = false ∧
    (∀ j, s.position ≤ j → j < 32 * s.buf.cap.toNat → s.streamBit j = false) := by
  refine ⟨{ (withCursor 0 0 32 7#32 0#32 0#32) with mem := [] }, _, by decide, by decide, by decide, rfl, rfl,
    fun j _ _ => ?_⟩
  show (Memory.getWord [] _).getLsbD _ = false
  simp

theorem test_witness_fill : ∃ s : State, s.mem.wf = true ∧ s.accepting ∧ s.buf.bo.toNat ≠ 0 ∧
    s.buf.wc.toNat < s.buf.cap.toNat ∧ s.canRead s.buf.wc.toNat ∧ s.canWrite s.buf.wc.toNat :=
  ⟨withCursor 1 31 32 0xFFFFFFFF#32 0#32 0#32, by decide⟩

/-- The clause no run reaches: BO is not 0 and there is no current word. -/
theorem test_witness_fill_overflow : ∃ s : State, s.mem.wf = true ∧ s.accepting ∧ s.buf.bo.toNat ≠ 0 ∧
    s.buf.cap.toNat ≤ s.buf.wc.toNat :=
  ⟨withCursor 2 1 32 0#32 0#32 0#32, by decide⟩

theorem test_witness_fillIsLocal : ∃ s t : State, s.mem.wf = true ∧ s.accepting ∧ exec .fill s = .next t ∧
    t.status.fault = false ∧ s.buf.bo ≠ 0#5 :=
  ⟨withCursor 1 31 32 0xFFFFFFFF#32 0#32 0#32, _, by decide, by decide, rfl, rfl, by decide⟩

/-- Two blocks of 32 bits, a FILL between, from zeroed storage. -/
theorem test_witness_mirror : ∃ (s t0 t t' t1 : State), s.mem.wf = true ∧ s.accepting ∧
    initWith 64#32 0x200#32 2#32 32 s = .next t0 ∧ (∀ i, i < t0.buf.cap.toNat → t0.bufferWord i = 0#32) ∧
    extendAll [7#32, 9#32] t0 = some t ∧ exec .fill (t.withArg0 1#32) = .next t' ∧ t'.status.fault = false ∧
    initWith 64#32 0x200#32 2#32 32 t' = .next t1 :=
  ⟨State.reset, _, _, _, _, by decide, by decide, rfl,
    fun _ _ => Memory.getWord_nil _, rfl, rfl, rfl, rfl⟩

theorem test_witness_passFirstPart : State.reset.accepting ∧ (31 < 32 ∧ 32 ≤ 32) ∧ ¬(0 < 33 ∧ 33 ≤ 32) ∧
    (0 < 8 ∧ 8 ≤ 8) ∧ ¬(0 < 9 ∧ 9 ≤ 8) := by decide

theorem test_witness_emptyPass : State.reset.accepting ∧
    State.reset.args.arg1.toNat * State.reset.args.arg2.toNat = 0 ∧
    State.reset.args.arg1.toNat * State.reset.args.arg2.toNat * State.reset.args.arg3.toNat = 0 := by decide

theorem test_witness_extractElement32 : ∃ (s : State) (t : State), s.status.busy = true ∧ s.pass.op = .extract ∧
    s.pass.k < s.pass.count ∧ s.pass.start.toNat < s.pass.stop.toNat ∧ s.pass.stop.toNat ≤ s.pass.ew.bits ∧
    s.pass.ew = .w32 ∧ admits s.platform .word (s.elemAddr s.pass.k) .read = true ∧
    exec .extend { s with
      status := { s.status with busy := false, fault := false }
      args := { s.args with arg0 := s.wordAt (s.elemAddr s.pass.k) } } = .next t ∧ t.status.fault = false :=
  ⟨passing .extract .w32 1 3#32 0#32, _, by decide, by decide, by decide, by decide, by decide, by decide, by decide,
    rfl, rfl⟩

theorem test_witness_extractElement8 : ∃ s : State, s.status.busy = true ∧ s.pass.op = .extract ∧
    s.pass.k < s.pass.count ∧ s.pass.start.toNat < s.pass.stop.toNat ∧ s.pass.stop.toNat ≤ s.pass.ew.bits ∧
    s.pass.ew = .w8 ∧ admits s.platform .byte (s.elemAddr s.pass.k) .read = true ∧
    s.byteAliasesBuffer (s.elemAddr s.pass.k) = false :=
  ⟨passing .extract .w8 1 0x11000000#32 0#32, by decide⟩

theorem test_witness_extractElement_unadmitted : ∃ s u : State, s.status.busy = true ∧ s.pass.op = .extract ∧
    s.pass.k < s.pass.count ∧ s.pass.ew = .w32 ∧ admits s.platform .word (s.elemAddr s.pass.k) .read = false ∧
    u.status.busy = true ∧ u.pass.op = .extract ∧ u.pass.k < u.pass.count ∧ u.pass.ew = .w8 ∧
    admits u.platform .byte (u.elemAddr u.pass.k) .read = false :=
  ⟨lacking .word .read 0x101 (passing .extract .w32 1 0#32 0#32),
    lacking .byte .read 0x100 (passing .extract .w8 0 0#32 0#32), by decide⟩

/-- The micro-step faults: the block would need a word that the buffer does not have. -/
theorem test_witness_extractElement_faults : ∃ s t : State, s.status.busy = true ∧ s.pass.op = .extract ∧
    exec .extend { s with status := { s.status with busy := false, fault := false } } = .next t ∧
    t.status.fault = true :=
  ⟨passing .extract .w32 0 3#32 0#32, _, by decide, by decide, rfl, rfl⟩

/-- The micro-step does not occur: the platform does not read the buffer word. -/
theorem test_witness_extractElement_stuck : ∃ (s : State) (r : Fault), s.status.busy = true ∧
    s.pass.op = .extract ∧ exec .extend { s with status := { s.status with busy := false, fault := false } } = .fault r :=
  ⟨onOdd (passing .extract .w32 0 3#32 0#32), _, by decide, by decide, rfl⟩

theorem test_witness_insertElement32 : ∃ s t : State, s.mem.wf = true ∧ s.status.busy = true ∧ s.pass.op = .insert ∧
    s.pass.k < s.pass.count ∧ s.pass.start.toNat < s.pass.stop.toNat ∧ s.pass.stop.toNat ≤ s.pass.ew.bits ∧
    s.pass.ew = .w32 ∧ admits s.platform .word (s.elemAddr s.pass.k) .read = true ∧
    admits s.platform .word (s.elemAddr s.pass.k) .write = true ∧
    exec .next { s with status := { s.status with busy := false, fault := false } } = .next t ∧
    t.status.fault = false :=
  ⟨passing .insert .w32 1 3#32 4#32, _, by decide, by decide, by decide, by decide, by decide, by decide, by decide,
    by decide, by decide, rfl, rfl⟩

theorem test_witness_insertElement8 : ∃ s t : State, s.mem.wf = true ∧ s.status.busy = true ∧ s.pass.op = .insert ∧
    s.pass.k < s.pass.count ∧ s.pass.start.toNat < s.pass.stop.toNat ∧ s.pass.stop.toNat ≤ s.pass.ew.bits ∧
    s.pass.ew = .w8 ∧ s.wordAliasesWritten (s.bufAddr s.buf.wc.toNat) = false ∧
    s.wordAliasesWritten (s.bufAddr (s.buf.wc.toNat + 1)) = false ∧ s.byteAliasesBuffer (s.elemAddr s.pass.k) = false ∧
    admits s.platform .byte (s.elemAddr s.pass.k) .read = true ∧
    admits s.platform .byte (s.elemAddr s.pass.k) .write = true ∧
    exec .next { s with status := { s.status with busy := false, fault := false } } = .next t ∧
    t.status.fault = false :=
  ⟨passing .insert .w8 1 3#32 4#32, _, by decide, by decide, by decide, by decide, by decide, by decide, by decide,
    by decide, by decide, by decide, by decide, by decide, rfl, rfl⟩

/-- An insert element micro-step whose NEXT succeeds and whose element the platform does not answer on this port. -/
abbrev insertBlocked (s : State) (port : Port) (kind : AccessKind) : Prop :=
  s.mem.wf = true ∧ s.status.busy = true ∧ s.pass.op = .insert ∧ s.pass.k < s.pass.count ∧
    s.pass.start.toNat < s.pass.stop.toNat ∧ s.pass.stop.toNat ≤ s.pass.ew.bits ∧
    s.byteAliasesBuffer (s.elemAddr s.pass.k) = false ∧
    (next? (exec .next { s with status := { s.status with busy := false, fault := false } })).map (·.status.fault) =
      some false ∧
    admits s.platform port (s.elemAddr s.pass.k) kind = false ∧
    (kind = .write → admits s.platform port (s.elemAddr s.pass.k) .read = true)

theorem test_witness_insertElement_unadmitted :
    insertBlocked (lacking .word .read 0x101 (passing .insert .w32 1 3#32 4#32)) .word .read ∧
      insertBlocked (lacking .word .write 0x101 (passing .insert .w32 1 3#32 4#32)) .word .write ∧
      insertBlocked (lacking .byte .read 0x101 (passing .insert .w8 1 3#32 4#32)) .byte .read ∧
      insertBlocked (lacking .byte .write 0x101 (passing .insert .w8 1 3#32 4#32)) .byte .write ∧
      (passing .insert .w8 1 3#32 4#32).wordAliasesWritten 0x200#32 = false ∧
      (passing .insert .w8 1 3#32 4#32).wordAliasesWritten 0x201#32 = false := by decide

theorem test_witness_insertElement_faults : ∃ s t : State, s.mem.wf = true ∧ s.status.busy = true ∧
    s.pass.op = .insert ∧ s.pass.k < s.pass.count ∧
    exec .next { s with status := { s.status with busy := false, fault := false } } = .next t ∧
    t.status.fault = true :=
  ⟨{ (passing .insert .w32 1 3#32 4#32) with buf := { Descriptor.reset with base := 0x200#32 } }, _, by decide,
    by decide, by decide, by decide, rfl, rfl⟩

theorem test_witness_insertElement_stuck : ∃ (s : State) (r : Fault), s.mem.wf = true ∧ s.status.busy = true ∧
    s.pass.op = .insert ∧ exec .next { s with status := { s.status with busy := false, fault := false } } = .fault r :=
  ⟨onOdd (passing .insert .w32 0 3#32 4#32), _, by decide, by decide, by decide, rfl⟩

/-- Both completions, each with the FILL before it that succeeds, pads nothing or pads the tail. -/
theorem test_witness_completion : ∃ s t : State, s.status.busy = true ∧ s.status.fault = false ∧
    s.pass.k = s.pass.count ∧ s.passConsistent ∧ s.pass.op = .extract ∧
    exec .fill { s with status := { s.status with busy := false }, args := { s.args with arg0 := s.pass.fill } } =
      .next t ∧ t.status.fault = false :=
  ⟨{ (passing .extract .w8 2 3#32 0#32) with buf := { (withCursor 0 16 8 0#32 0#32 0#32).buf with cap := 1#32 } }, _,
    by decide, by decide, by decide, by decide, by decide, rfl, rfl⟩

/-- The completion that no run reaches: the FILL finds no current word. -/
theorem test_witness_completion_faults : ∃ s t : State, s.status.busy = true ∧ s.status.fault = false ∧
    s.pass.k = s.pass.count ∧ s.passConsistent ∧ s.pass.op = .extract ∧
    exec .fill { s with status := { s.status with busy := false }, args := { s.args with arg0 := s.pass.fill } } =
      .next t ∧ t.status.fault = true :=
  ⟨{ (passing .extract .w8 2 3#32 0#32) with buf := { (withCursor 0 16 8 0#32 0#32 0#32).buf with cap := 0#32 } }, _,
    by decide, by decide, by decide, by decide, by decide, rfl, rfl⟩

theorem test_witness_completion_stuck : ∃ (s : State) (r : Fault), s.status.busy = true ∧ s.status.fault = false ∧
    s.pass.k = s.pass.count ∧ s.passConsistent ∧ s.pass.op = .extract ∧
    exec .fill { s with status := { s.status with busy := false }, args := { s.args with arg0 := s.pass.fill } } =
      .fault r :=
  ⟨onOdd { (passing .extract .w8 2 3#32 0#32) with
      buf := { (withCursor 0 16 8 0#32 0#32 0#32).buf with cap := 1#32 } }, _,
    by decide, by decide, by decide, by decide, by decide, rfl⟩

theorem test_witness_completion_insert : ∃ s : State, s.status.busy = true ∧ s.status.fault = false ∧
    s.pass.k = s.pass.count ∧ s.passConsistent ∧ s.pass.op = .insert :=
  ⟨passing .insert .w32 2 3#32 4#32, by decide⟩

/-- Byte 0x1000 aliases buffer word 0x200; once element 0 at 0x2000 is written, word 0x201 aliases it. -/
theorem test_witness_aliasedReads :
    (onOdd (passing .insert .w8 1 0#32 0#32)).pass.ew = .w8 ∧
      (onOdd (passing .insert .w8 1 0#32 0#32)).byteAliasesBuffer 0x1000#32 = true ∧
      admits oddPlatform .byte 0x1000#32 .read = true ∧ admits oddPlatform .word 0x201#32 .read = true ∧
      State.wordAliasesWritten { (onOdd (passing .insert .w8 1 0#32 0#32)) with
        pass := { (passing .insert .w8 1 0#32 0#32).pass with mbase := 0x2000#32 } } 0x201#32 = true := by decide

/-- A platform whose byte 0x1000 names lane 3 of word 0x200. -/
def aliasingPlatform : Platform :=
  { regBase := 0, holes := [], aliasRuns := [{ byte0 := 0x1000, word0 := 0x200, count := 1, lane := 3 }] }

/-- An 8-bit pass before its element 1, on that platform, over a matrix at this byte address. -/
def passingAliased (op : PassOp) (base : Word) : State :=
  { (passing op .w8 1 0#32 0#32) with
    platform := aliasingPlatform
    pass := { (passing op .w8 1 0#32 0#32).pass with mbase := base } }

theorem test_witness_aliasedExtract : ∃ s t : State, s.status.busy = true ∧ s.pass.op = .extract ∧ s.pass.ew = .w8 ∧
    s.pass.k < s.pass.count ∧ s.pass.start.toNat < s.pass.stop.toNat ∧ s.pass.stop.toNat ≤ 8 ∧
    s.byteAliasesBuffer (s.elemAddr s.pass.k) = true ∧
    admits s.platform .byte (s.elemAddr s.pass.k) .read = true ∧
    exec .extend { s with status := { s.status with busy := false, fault := false } } = .next t ∧
    t.status.fault = false :=
  ⟨passingAliased .extract 0xFFF#32, _, by decide, by decide, by decide, by decide, by decide, by decide, by decide,
    by decide, rfl, rfl⟩

theorem test_witness_aliasedInsert : ∃ s t : State, s.mem.wf = true ∧ s.status.busy = true ∧ s.pass.op = .insert ∧
    s.pass.ew = .w8 ∧ s.pass.k < s.pass.count ∧ s.pass.start.toNat < s.pass.stop.toNat ∧ s.pass.stop.toNat ≤ 8 ∧
    s.wordAliasesWritten (s.bufAddr s.buf.wc.toNat) = true ∧ s.byteAliasesBuffer (s.elemAddr s.pass.k) = false ∧
    exec .next { s with status := { s.status with busy := false, fault := false } } = .next t ∧
    t.status.fault = false ∧ admits s.platform .byte (s.elemAddr s.pass.k) .read = true ∧
    admits s.platform .byte (s.elemAddr s.pass.k) .write = true :=
  ⟨passingAliased .insert 0x1000#32, _, by decide, by decide, by decide, by decide, by decide, by decide, by decide,
    by decide, by decide, rfl, rfl, by decide, by decide⟩

/-- An 8-bit insert before its element 1, whose buffer aliases the element it has written, on a platform that does not
answer this kind of request for element 1. -/
def aliasedLacking (kind : AccessKind) : State :=
  { (passingAliased .insert 0x1000#32) with
    platform := { aliasingPlatform with holes := [{ port := .byte, kind := kind, first := 0x1001, last := 0x1001 }] } }

theorem test_witness_aliasedInsert_unadmitted :
    insertBlocked (aliasedLacking .read) .byte .read ∧ insertBlocked (aliasedLacking .write) .byte .write ∧
      (aliasedLacking .read).wordAliasesWritten 0x200#32 = true := by decide

theorem test_witness_passFrame : ∃ s t u v : State, s.status.busy = true ∧ s.pass.op = .extract ∧
    engineAct s = .next t ∧ u.status.busy = true ∧ u.pass.op = .insert ∧ engineAct u = .next v ∧
    s.pass.k < s.pass.count ∧ u.pass.k < u.pass.count :=
  ⟨passing .extract .w32 1 3#32 0#32, _, passing .insert .w32 0 3#32 0#32, _, by decide, by decide, rfl, by decide,
    by decide, rfl, by decide, by decide⟩

theorem test_witness_passIgnoresArgs : ∃ (s t u : State) (r : Fault), s.status.busy = true ∧ engineAct s = .next t ∧
    u.status.busy = true ∧ engineAct u = .fault r :=
  ⟨passing .extract .w32 1 3#32 0#32, _, onOdd (passing .insert .w32 0 0#32 0#32), _, by decide, rfl, by decide, rfl⟩

theorem test_witness_passEnds : ∃ s : State, s.status.busy = true ∧ s.status.fault = false ∧
    s.pass.k ≤ s.pass.count ∧ s.program = [] ∧ s.schedule = [] ∧ s.allAdmitted :=
  ⟨passing .insert .w32 0 0#32 0#32, rfl, rfl, by decide, rfl, rfl, fun _ _ _ => rfl⟩

/-- One element of 32 bits, at 0x100, extracted to a buffer of one word at 0x200 and inserted at 0x300. -/
def roundTripState : State :=
  { State.reset with
    args :=
      { arg0 := 0x100#32, arg1 := 1#32, arg2 := 1#32, arg3 := 0#32, arg4 := 0x200#32, arg5 := 1#32, arg6 := 9#32 }
    mem := Memory.setWord [] 0x100#32 0x12345678#32 }

theorem test_witness_roundTrip : ∃ (s : State) (m' : Word), s.mem.wf = true ∧ s.accepting ∧ s.program = [] ∧
    s.schedule = [] ∧ s.allAdmitted ∧ (0 < 32 ∧ 32 ≤ ElemWidth.w32.bits) ∧
    1 = elementCount .w32 s.args.arg1 s.args.arg2 s.args.arg3 ∧ 1 = ceilDiv32 (1 * (32 - 0)) ∧
    1 ≤ s.args.arg5.toNat ∧ (∀ i, i < 1 → s.wordAt (s.args.arg4 + BitVec.ofNat 32 i) = 0#32) ∧
    (∀ k i c, k < 1 → i < 1 → c ∈ wordCells (s.args.arg4 + BitVec.ofNat 32 i) →
      c ∉ s.matrixCells .w32 s.args.arg0 k ∧ c ∉ s.matrixCells .w32 m' k) ∧
    (∀ j k c, j < 1 → k < 1 → c ∈ s.matrixCells .w32 m' k →
      c ∉ s.matrixCells .w32 s.args.arg0 j ∧ (j ≠ k → c ∉ s.matrixCells .w32 m' j)) := by
  refine ⟨roundTripState, 0x300#32, by decide, by decide, rfl, rfl, fun _ _ _ => rfl, by decide, by decide, by decide,
    by decide, fun i hi => ?_, fun k i c hk hi hc => ?_, fun j k c hj hk hc => ?_⟩
  · obtain rfl : i = 0 := by omega
    decide
  · obtain rfl : i = 0 := by omega
    obtain rfl : k = 0 := by omega
    have h : ∀ c ∈ wordCells 0x200#32, c ∉ wordCells 0x100#32 ∧ c ∉ wordCells 0x300#32 := by decide
    exact h c hc
  · obtain rfl : j = 0 := by omega
    obtain rfl : k = 0 := by omega
    have h : ∀ c ∈ wordCells 0x300#32, c ∉ wordCells 0x100#32 := by decide
    exact ⟨h c hc, fun h => absurd rfl h⟩

/-- Two elements of 8 bits, at byte addresses 0x100 and 0x101, whose low five bits go through a buffer of one word at
0x200 into the bytes at 0x300 and 0x301. -/
def roundTripBytes : State :=
  { State.reset with
    args :=
      { arg0 := 0x100#32, arg1 := 1#32, arg2 := 2#32, arg3 := 1#32, arg4 := 0x200#32, arg5 := 1#32, arg6 := 9#32 }
    mem := (Memory.set [] (byteCell Platform.plain 0x100#32) 0x5A#8).set (byteCell Platform.plain 0x301#32) 0xFF#8 }

theorem test_witness_roundTrip8 : ∃ (s : State) (m' : Word), s.mem.wf = true ∧ s.accepting ∧ s.program = [] ∧
    s.schedule = [] ∧ s.allAdmitted ∧ (3 < 8 ∧ 8 ≤ ElemWidth.w8.bits) ∧
    2 = elementCount .w8 s.args.arg1 s.args.arg2 s.args.arg3 ∧ 1 = ceilDiv32 (2 * (8 - 3)) ∧
    1 ≤ s.args.arg5.toNat ∧ (∀ i, i < 1 → s.wordAt (s.args.arg4 + BitVec.ofNat 32 i) = 0#32) ∧
    (∀ k i c, k < 2 → i < 1 → c ∈ wordCells (s.args.arg4 + BitVec.ofNat 32 i) →
      c ∉ s.matrixCells .w8 s.args.arg0 k ∧ c ∉ s.matrixCells .w8 m' k) ∧
    (∀ j k c, j < 2 → k < 2 → c ∈ s.matrixCells .w8 m' k →
      c ∉ s.matrixCells .w8 s.args.arg0 j ∧ (j ≠ k → c ∉ s.matrixCells .w8 m' j)) := by
  have hbuf : ∀ k, k < 2 → ∀ i, i < 1 → ∀ c ∈ wordCells (roundTripBytes.args.arg4 + BitVec.ofNat 32 i),
      c ∉ roundTripBytes.matrixCells .w8 0x100#32 k ∧ c ∉ roundTripBytes.matrixCells .w8 0x300#32 k := by decide
  have hmat : ∀ j, j < 2 → ∀ k, k < 2 → ∀ c ∈ roundTripBytes.matrixCells .w8 0x300#32 k,
      c ∉ roundTripBytes.matrixCells .w8 0x100#32 j ∧ (j ≠ k → c ∉ roundTripBytes.matrixCells .w8 0x300#32 j) := by
    decide
  exact ⟨roundTripBytes, 0x300#32, by decide, by decide, rfl, rfl, fun _ _ _ => rfl, by decide, by decide, by decide,
    by decide, by decide, fun k i c hk hi hc => hbuf k hk i hi c hc, fun j k c hj hk hc => hmat j hj k hk c hc⟩

/-- A command that faults, and a micro-step that does. -/
theorem test_witness_faultsArePrecise : ∃ s t u v : State, step s = .next t ∧ s.status.fault = false ∧
    t.status.fault = true ∧ s.status.busy = false ∧ step u = .next v ∧ u.status.fault = false ∧
    v.status.fault = true ∧ u.status.busy = true :=
  ⟨State.reset.setProgram [.regWrite 0 4 0x20000000#32], _, passing .extract .w32 0 3#32 0#32, _, rfl, rfl, rfl, rfl,
    rfl, rfl, rfl, rfl⟩

theorem test_witness_faultIsSticky : ∃ s t : State, s.status.fault = true ∧ s.status.busy = false ∧
    step s = .next t ∧ t.status.fault = true :=
  ⟨dropped, _, rfl, rfl, rfl, rfl⟩

/-- Both ways out of the fault state. -/
theorem test_witness_faultIsSticky_reset : ∃ s t u v : State, s.status.fault = true ∧ s.status.busy = false ∧
    s.schedule = [] ∧ s.program = .regWrite 0 4 0xF0000000#32 :: [] ∧ regAccess s.platform 0 4 = some .cmd ∧
    step s = .next t ∧ t.registersReset ∧ u.status.fault = true ∧ u.status.busy = false ∧ u.schedule = .hardReset :: [] ∧ step u = .next v ∧
    v.registersReset :=
  ⟨dropped.setProgram [.regWrite 0 4 0xF0000000#32], _, dropped.setSchedule [.hardReset], _, rfl, rfl, rfl, rfl,
    rfl, rfl, ⟨rfl, rfl, rfl⟩, rfl, rfl, rfl, rfl, ⟨rfl, rfl, rfl⟩⟩

theorem test_witness_poll : ∃ s u : State, s.program = .poll :: [] ∧ s.status.busy = true ∧
    s.schedule = .host :: [] ∧ u.program = .poll :: [.poll] ∧ u.status.busy = false ∧ u.schedule = .host :: [] :=
  ⟨((passing .insert .w32 0 0#32 0#32).setProgram [.poll]).setSchedule [.host],
    (State.reset.setProgram [.poll, .poll]).setSchedule [.host], rfl, rfl, rfl, rfl, rfl, rfl⟩

theorem test_witness_registerBlock : decode 0xF0000000#32 = some .reset ∧ decode 0xF0000001#32 = none ∧
    ¬(2 = 4 ∧ 0 ≤ 0 ∧ (0 - 0) % 4 = 0 ∧ 0 - 0 < 64) ∧ ¬(4 = 4 ∧ 0 ≤ 64 ∧ (64 - 0) % 4 = 0 ∧ 64 - 0 < 64) := by decide

theorem test_witness_memoryReadsLastWrite : State.reset.mem.wf = true ∧
    admits (onOdd State.reset).platform .word 0x200#32 .write = true ∧
    admits (onOdd State.reset).platform .byte 0x1000#32 .write = true ∧
    aliasOf (onOdd State.reset).platform.aliasRuns 0x1000#32 = some (0x200#32, 3) ∧
    aliasOf (onOdd State.reset).platform.aliasRuns 0x1001#32 = none ∧
    admits (onOdd State.reset).platform .word 0x1FF#32 .read = true ∧
    admits (onOdd State.reset).platform .byte 0x200#32 .read = true := by decide

theorem test_witness_descriptorWriters : ∃ t u v w : State, exec .fill State.reset = .next t ∧
    exec (.init 5) State.reset = .next w ∧
    engineAct (passing .insert .w32 0 3#32 0#32) = .next u ∧ hostStep (.regWrite 0x20 4 7#32) State.reset = .next v ∧
    regAccess State.reset.platform 0x20 4 ≠ some .cmd :=
  ⟨_, _, _, _, rfl, rfl, rfl, rfl, by decide⟩

theorem test_witness_argAndResultWriters : ∃ t u : State, exec (.slice8 0 8) State.reset = .next t ∧
    exec .extend State.reset = .next u ∧ State.reset.status.fault = false ∧ u.status.fault = true :=
  ⟨_, _, rfl, rfl, rfl, rfl⟩

theorem test_witness_invariants : ∃ s t : State, s.cursorInRange ∧ s.safe ∧ s.mem.wf = true ∧ step s = .next t ∧
    s.status.busy = true ∧ s.pass.k = 1 :=
  ⟨passing .insert .w32 1 3#32 4#32, _, by decide, by decide, by decide, rfl, rfl, rfl⟩

end Sys2Proof.Tests
end

/-! ## Proofs: the turns of host and engine (spec/00_scope.md R15) -/

namespace Sys2Proof.Machine

section Turns

variable {s : State} {t : State} {r : Fault} {h : HostStep} {hs : List HostStep} {ts : List Turn}

/-! ### The acts of the two agents -/

theorem hostAct_of_done (hp : s.program = []) : hostAct s = .next s := by
  simp only [hostAct, hp]

theorem hostAct_of_cons (hp : s.program = h :: hs) : hostAct s = hostStep h (s.setProgram hs) := by
  simp only [hostAct, hp]

theorem engineAct_of_busy (hb : s.status.busy = true) : engineAct s = microStep s := if_pos hb

theorem engineAct_of_idle (hb : s.status.busy = false) : engineAct s = .next s := by
  simp only [engineAct, hb, Bool.false_eq_true, if_false]

/-- An aligned host write of a word to the block's first register issues the command that the word decodes to (R170). -/
theorem hostStep_regWrite_cmd {w : Word} {i : Instr} (hw : decode w = some i) :
    hostStep (.regWrite s.platform.regBase 4 w) s = exec i s := by
  have hcmd : regAccess s.platform s.platform.regBase 4 = some .cmd := by simp [regAccess, regAtOffset]
  simp only [hostStep, hcmd, writeReg, writeCmd, hw]

/-! ### A turn passes exactly where its agent is stuck (R56) -/

@[simp] theorem passIfStuck_next : passIfStuck s (.next t) = .next t := rfl
@[simp] theorem passIfStuck_fault : passIfStuck s (.fault r) = .next s := rfl
@[simp] theorem passIfStuck_refused (q : Refusal) : passIfStuck s (.refused q) = .refused q := rfl

/-! ### Scheduled turns -/

theorem step_of_hostTurn (hsch : s.schedule = .host :: ts) :
    step s = passIfStuck (s.setSchedule ts) (hostAct (s.setSchedule ts)) := by
  simp only [step, hsch, takeTurn]

theorem step_of_hostTurn_cons (hsch : s.schedule = .host :: ts) (hp : s.program = h :: hs) :
    step s = passIfStuck (s.setSchedule ts) (hostStep h ((s.setProgram hs).setSchedule ts)) := by
  have hact := hostAct_of_cons (s := s.setSchedule ts) hp
  rw [step_of_hostTurn hsch, hact]
  rfl

theorem step_of_hostTurn_done (hsch : s.schedule = .host :: ts) (hp : s.program = []) :
    step s = .next (s.setSchedule ts) := by
  have hact := hostAct_of_done (s := s.setSchedule ts) hp
  rw [step_of_hostTurn hsch, hact, passIfStuck_next]

/-- A host turn on a CMD write runs the command in the state whose turn and host step have been taken (R15, R170). -/
theorem step_of_hostTurn_cmd {w : Word} {i : Instr} (hsch : s.schedule = .host :: ts)
    (hp : s.program = .regWrite s.platform.regBase 4 w :: hs) (hw : decode w = some i) :
    step s = passIfStuck (s.setSchedule ts) (exec i ((s.setProgram hs).setSchedule ts)) := by
  have hcmd := hostStep_regWrite_cmd (s := (s.setProgram hs).setSchedule ts) hw
  rw [step_of_hostTurn_cons hsch hp, ← hcmd]
  rfl

theorem step_of_engineTurn (hsch : s.schedule = .engine :: ts) :
    step s = passIfStuck (s.setSchedule ts) (engineAct (s.setSchedule ts)) := by
  simp only [step, hsch, takeTurn]

theorem step_of_engineTurn_idle (hsch : s.schedule = .engine :: ts) (hb : s.status.busy = false) :
    step s = .next (s.setSchedule ts) := by
  have hact := engineAct_of_idle (s := s.setSchedule ts) hb
  rw [step_of_engineTurn hsch, hact, passIfStuck_next]

/-- `withFetchWord` puts a CMD write and a host turn before what the state had, and the step takes both off again. -/
theorem step_withFetchWord {n w : Nat} {i : Instr} (hw : decodeTableWord n w = some i) :
    step (s.withFetchWord n w) = passIfStuck ((s.withFetchWord n w).setSchedule s.schedule) (exec i s) :=
  step_of_hostTurn_cmd (s := s.withFetchWord n w) (State.withFetchWord_schedule s n w)
    (State.withFetchWord_program s n w) hw

/-! ### Nothing scheduled -/

theorem step_of_unscheduled_idle (hsch : s.schedule = []) (hb : s.status.busy = false) : step s = hostAct s := by
  simp only [step, hsch, fairTurn, hb, Bool.false_eq_true, if_false]

/-- Where the micro-step of a busy engine is blocked, a host that has a step takes it (R56). -/
theorem step_of_unscheduled_blocked (hsch : s.schedule = []) (hb : s.status.busy = true) (hm : microStep s = .fault r)
    (hp : s.program = h :: hs) : step s = hostStep h (s.setProgram hs) := by
  simp only [step, hsch, fairTurn, hb, if_true, hm, hp, hostAct_of_cons hp]

theorem step_of_unscheduled_cmd {w : Word} {i : Instr} (hsch : s.schedule = []) (hb : s.status.busy = false)
    (hp : s.program = .regWrite s.platform.regBase 4 w :: hs) (hw : decode w = some i) :
    step s = exec i (s.setProgram hs) := by
  have hcmd := hostStep_regWrite_cmd (s := s.setProgram hs) hw
  rw [step_of_unscheduled_idle hsch hb, hostAct_of_cons hp, ← hcmd]
  rfl

end Turns

/-- Settles O5: each clause is the equation of its turn, read off at the outcome the clause supposes. -/
theorem stepRunsDecodedCommand : Obligations.StepRunsDecodedCommand := by
  refine ⟨?cmdWrite, ?probe, ?hostTurn, ?engineTurn, ?unscheduled⟩
  case cmdWrite =>
    refine fun s w i hs hp hw => ⟨fun ts hsch => ?_, fun hsch hb => step_of_unscheduled_cmd hsch hb hp hw⟩
    have hstep := step_of_hostTurn_cmd hsch hp hw
    exact ⟨fun t ht => by rw [hstep, ht, passIfStuck_next], fun r hr => by rw [hstep, hr, passIfStuck_fault]⟩
  case probe =>
    intro s n w i t hw hx
    rw [step_withFetchWord hw, hx, passIfStuck_next]
  case hostTurn =>
    refine fun s ts hsch => ⟨step_of_hostTurn_done hsch, fun h hs hp => ?_⟩
    have hstep := step_of_hostTurn_cons hsch hp
    exact ⟨fun t ht => by rw [hstep, ht, passIfStuck_next], fun r hr => by rw [hstep, hr, passIfStuck_fault],
      fun q hq => by rw [hstep, hq, passIfStuck_refused]⟩
  case engineTurn =>
    refine fun s ts hsch => ⟨fun t ht => ?_, engineAct_of_busy (s := s.setSchedule ts), step_of_engineTurn_idle hsch⟩
    rw [step_of_engineTurn hsch, ht, passIfStuck_next]
  case unscheduled =>
    refine fun s hsch => ⟨fun hb t => step_of_microStep hsch hb, fun hb r h hs => step_of_unscheduled_blocked hsch hb,
      fun hb hp => ?_, fun hb h hs hp => ?_⟩
    · rw [step_of_unscheduled_idle hsch hb, hostAct_of_done hp]
    · rw [step_of_unscheduled_idle hsch hb, hostAct_of_cons hp]

end Sys2Proof.Machine

/-! ## Proofs: the engine's registers (spec/10_state.md)

First what a command, a host step and a micro-step do to the registers, each said once; then the invariants of every
step, and the statements about the register block. -/

namespace Sys2Proof.Machine

section Registers

variable {s t : State} {i : Instr} {f : EngineFault}

/-! ### The registers an invariant speaks of -/

/-- `t` has the descriptor, the STATUS bits and the sequencer of `s`. -/
structure SameRegisters (s t : State) : Prop where
  buf : t.buf = s.buf
  status : t.status = s.status
  pass : t.pass = s.pass

/-! ### What an accepted command does -/

theorem Act.ite_ok_raise_eq_ok {α : Type} {c : Prop} [Decidable c] {a b : α} :
    (if c then Act.ok a else .raise f) = .ok b ↔ c ∧ a = b := by
  split <;> simp_all

theorem rangeOk_iff {ew : ElemWidth} {a b : Nat} : rangeOk ew a b = true ↔ a < b ∧ b ≤ ew.bits :=
  decide_eq_true_iff

/-- A command of the datapath, SLICE or MERGE in either width (R100). -/
def isDatapath (i : Instr) : Prop :=
  ∃ a b, i = .slice32 a b ∨ i = .slice8 a b ∨ i = .merge32 a b ∨ i = .merge8 a b

/-- A pass command (R150). -/
def isPass (i : Instr) : Prop :=
  ∃ a b, i = .extract32 a b ∨ i = .extract8 a b ∨ i = .insert32 a b ∨ i = .insert8 a b

theorem isPass_passInstr (op : PassOp) (ew : ElemWidth) (a b : Nat) : isPass (passInstr op ew a b) :=
  ⟨a, b, by cases op <;> cases ew <;> simp [passInstr]⟩

/-- The command `i`, which is not RESET, acts on `s` and leaves `t`: one case per kind of command, with what its check
has established. What value a command of the datapath computes is left open. -/
inductive Acts (s : State) : Instr → State → Prop
  | nop : Acts s .nop s
  | init {bw : Nat} (h1 : 1 ≤ bw) (h2 : bw ≤ 32) :
      Acts s (.init bw) (s.setBuf (freshDescriptor s.args.arg1 s.args.arg0.toNat s.args.arg2 bw))
  | extend {t : State} (h : extendCore s.args.arg0 s = .ok t) : Acts s .extend t
  | next {v : Word} {u : State} (h : nextCore s = .ok (v, u)) : Acts s .next (u.setResult v)
  | fill {t : State} (h : fillCore s.args.arg0 s = .ok t) : Acts s .fill t
  | datapath {i : Instr} (hi : isDatapath i) (v : Word) : Acts s i (s.setResult v)
  | pass (op : PassOp) (ew : ElemWidth) {a b : Nat} (hab : a < b) (hb : b ≤ ew.bits) :
      Acts s (passInstr op ew a b) (s.startPass op ew a b)

theorem acts_datapath {c : Prop} [Decidable c] {v : Word} (hi : isDatapath i)
    (h : (if c then .ok (s.setResult v) else .raise f) = Act.ok t) : Acts s i t := by
  obtain ⟨-, rfl⟩ := Act.ite_ok_raise_eq_ok.1 h
  exact .datapath hi v

theorem acts_pass (op : PassOp) (ew : ElemWidth) {a b : Nat}
    (h : (if rangeOk ew a b then .ok (s.startPass op ew a b) else .raise f) = Act.ok t) :
    Acts s (passInstr op ew a b) t := by
  obtain ⟨hr, rfl⟩ := Act.ite_ok_raise_eq_ok.1 h
  obtain ⟨hab, hb⟩ := rangeOk_iff.1 hr
  exact .pass op ew hab hb

theorem acts_of_commandAct (hi : i ≠ .reset) (h : commandAct i s = .ok t) : Acts s i t := by
  cases i with
  | nop => cases h; exact .nop
  | init bw =>
    obtain ⟨⟨h1, h2⟩, rfl⟩ := Act.ite_ok_raise_eq_ok.1 h
    exact .init h1 h2
  | extend => exact .extend h
  | next =>
    obtain ⟨⟨v, u⟩, hu, h⟩ := Act.bind_eq_ok.1 h
    cases h
    exact .next hu
  | fill => exact .fill h
  | slice32 a b => exact acts_datapath ⟨a, b, by simp⟩ h
  | slice8 a b => exact acts_datapath ⟨a, b, by simp⟩ h
  | merge32 a b => exact acts_datapath ⟨a, b, by simp⟩ h
  | merge8 a b => exact acts_datapath ⟨a, b, by simp⟩ h
  | extract32 a b => exact acts_pass .extract .w32 h
  | extract8 a b => exact acts_pass .extract .w8 h
  | insert32 a b => exact acts_pass .insert .w32 h
  | insert8 a b => exact acts_pass .insert .w8 h
  | reset => exact absurd rfl hi

/-- What a command can do (R170, R171, R176, R186): it is RESET, it is dropped, it takes a fault, or it is accepted and
acts. -/
theorem exec_cases (h : exec i s = .next t) :
    (i = .reset ∧ t = s.softReset) ∨ t = s.drop ∨ (∃ f, t = s.takeFault f) ∨ (s.accepting ∧ Acts s i t) := by
  rcases exec_next_cases h with h | ⟨-, -, h⟩ | ⟨hi, ha, ⟨f, -, h⟩ | h⟩
  · exact .inl h
  · exact .inr (.inl h)
  · exact .inr (.inr (.inl ⟨f, h⟩))
  · exact .inr (.inr (.inr ⟨ha, acts_of_commandAct hi h⟩))

/-- An accepted command that takes no fault acts. -/
theorem commandAct_of_exec (hi : i ≠ .reset) (ha : s.accepting) (h : exec i s = .next t)
    (hf : t.status.fault = false) : commandAct i s = .ok t := by
  rw [exec_eq hi, whenAccepted_of_accepting ha] at h
  rcases settle_eq_next.1 h with h | ⟨f, -, rfl⟩
  · exact h
  · exact absurd hf (by simp)

/-! ### What the cores leave of the registers -/

/-- Of the registers and the ARGs, `t` differs from `s` in WC and BO at most. -/
structure CursorOnly (s t : State) : Prop where
  buf : t.buf = { s.buf with wc := t.buf.wc, bo := t.buf.bo }
  status : t.status = s.status
  pass : t.pass = s.pass
  args : t.args = s.args
  result : t.result = s.result

theorem extendCore_cursorOnly {x : Word} (h : extendCore x s = .ok t) : CursorOnly s t := by
  rw [(extendCore_frame h).1]
  exact ⟨rfl, rfl, rfl, rfl, rfl⟩

theorem nextCore_cursorOnly {v : Word} (h : nextCore s = .ok (v, t)) : CursorOnly s t := by
  rw [nextCore_frame h]
  exact ⟨rfl, rfl, rfl, rfl, rfl⟩

theorem fillCore_eq_setMem {p : Word} (h : fillCore p s = .ok t) : t = s.setMem t.mem := by
  rcases fillCore_ok h with ⟨-, rfl⟩ | ⟨-, -, rfl⟩ <;> rfl

/-- Of the accepted commands only the start of a pass writes STATUS. -/
theorem Acts.status_cases (h : Acts s i t) :
    t.status = s.status ∨ ∃ op ew a b, a < b ∧ b ≤ ElemWidth.bits ew ∧ t = s.startPass op ew a b := by
  cases h with
  | nop | init | datapath => exact .inl rfl
  | extend h => exact .inl (extendCore_cursorOnly h).status
  | next h => exact .inl (nextCore_cursorOnly h).status
  | fill h => exact .inl (by rw [fillCore_eq_setMem h]; rfl)
  | pass op ew hab hb => exact .inr ⟨op, ew, _, _, hab, hb, rfl⟩

theorem Acts.args (h : Acts s i t) : t.args = s.args := by
  cases h with
  | nop | init | datapath | pass => rfl
  | extend h => exact (extendCore_cursorOnly h).args
  | next h => exact (nextCore_cursorOnly h).args
  | fill h => rw [fillCore_eq_setMem h]; rfl

/-- A command that acts raises no fault. -/
theorem Acts.fault_eq_false (h : Acts s i t) (hf : s.status.fault = false) : t.status.fault = false := by
  rcases h.status_cases with h | ⟨op, ew, a, b, -, -, rfl⟩
  · rw [h, hf]
  · exact hf

/-- Of the accepted commands only NEXT and those of the datapath write RESULT (R25). -/
theorem Acts.result_cases (h : Acts s i t) : t.result = s.result ∨ i = .next ∨ isDatapath i := by
  cases h with
  | nop | init | pass => exact .inl rfl
  | extend h => exact .inl (extendCore_cursorOnly h).result
  | fill h => exact .inl (by rw [fillCore_eq_setMem h]; rfl)
  | next => exact .inr (.inl rfl)
  | datapath hi => exact .inr (.inr hi)

/-- Of the accepted commands only INIT and the passes write BASE, CAP and BW, and of the others only EXTEND and NEXT
the cursor (R23). -/
theorem Acts.buf_cases (h : Acts s i t) :
    t.buf = s.buf ∨ ((i = .extend ∨ i = .next) ∧ t.buf = { s.buf with wc := t.buf.wc, bo := t.buf.bo }) ∨
      (∃ bw, i = .init bw) ∨ isPass i := by
  cases h with
  | nop | datapath => exact .inl rfl
  | fill h => exact .inl (by rw [fillCore_eq_setMem h]; rfl)
  | extend h => exact .inr (.inl ⟨.inl rfl, (extendCore_cursorOnly h).buf⟩)
  | next h => exact .inr (.inl ⟨.inr rfl, (nextCore_cursorOnly h).buf⟩)
  | @init bw => exact .inr (.inr (.inl ⟨bw, rfl⟩))
  | pass op ew => exact .inr (.inr (.inr (isPass_passInstr op ew _ _)))

/-! ### What a host step and a micro-step do to the registers -/

/-- A CMD write resets, is dropped, takes a fault, or issues a command that acts (R170, R171, R184). -/
theorem writeCmd_cases {v : Word} (h : writeCmd v s = .next t) :
    t = s.softReset ∨ t = s.drop ∨ (∃ f, t = s.takeFault f) ∨ (s.accepting ∧ ∃ i, Acts s i t) := by
  rcases writeCmd_next_cases h with ⟨i, -, h⟩ | ⟨-, -, h⟩ | ⟨-, -, h⟩
  · rcases exec_cases h with ⟨-, h⟩ | h | h | ⟨ha, h⟩
    · exact .inl h
    · exact .inr (.inl h)
    · exact .inr (.inr (.inl h))
    · exact .inr (.inr (.inr ⟨ha, i, h⟩))
  · exact .inr (.inl h)
  · exact .inr (.inr (.inl ⟨_, h⟩))

/-- A host step that is not a CMD write leaves the engine's registers alone (R23). -/
theorem hostStep_registers {h : HostStep} (hs : hostStep h s = .next t) :
    (∃ addr n v, h = .regWrite addr n v ∧ regAccess s.platform addr n = some .cmd ∧ writeCmd v s = .next t) ∨
      SameRegisters s t := by
  cases h with
  | regWrite addr n v =>
    simp only [hostStep] at hs
    split at hs
    · rename_i r hr
      rcases writeReg_next_cases hs with ⟨rfl, h⟩ | ⟨-, a, rfl⟩
      · exact .inl ⟨addr, n, v, rfl, hr, h⟩
      · exact .inr ⟨rfl, rfl, rfl⟩
    · cases hs
  | regRead addr n =>
    simp only [hostStep] at hs
    split at hs <;> cases hs
    exact .inr ⟨rfl, rfl, rfl⟩
  | memWrite32 | memWrite8 | memRead32 | memRead8 =>
    simp only [hostStep, memWrite32, memWrite8, memRead32, memRead8] at hs
    split at hs <;> cases hs
    exact .inr ⟨rfl, rfl, rfl⟩
  | poll =>
    simp only [hostStep] at hs
    cases hs
    split <;> exact .inr ⟨rfl, rfl, rfl⟩

/-- What a micro-step does to the registers: an element advances the cursor by one block and K by one, a completion
clears BUSY, or a fault is taken (R153, R154, R157, R158, R187). -/
theorem microStep_registers (h : microStep s = .next t) :
    (s.pass.k < s.pass.count ∧ t.status = s.status ∧ t.pass = { s.pass with k := s.pass.k + 1 } ∧
        t.buf = { s.buf with wc := t.buf.wc, bo := t.buf.bo } ∧
        (s.cursorInRange → t.cursorInRange ∧ t.position = s.position + s.buf.bw.toNat)) ∨
      SameRegisters s.clearBusy t ∨ ∃ f n, t = s.takePassFault f n := by
  rcases microStep_core_cases h with ⟨x, n, u, hk, -, hu, rfl⟩ | ⟨b, n, u, v, hk, -, hu, -, hv, rfl⟩ |
    ⟨u, -, -, hu, rfl⟩ | ⟨-, -, rfl⟩ | ⟨f, rfl⟩
  · have hkept := extendCore_cursorOnly hu
    refine .inl ⟨hk, hkept.status, ?_, hkept.buf, fun hc => ?_⟩
    · rw [State.advanceK_pass, hkept.pass]; rfl
    · obtain ⟨hrange, hpos, -⟩ := extendCore_cursor (s := s.setFreeCount n) hc hu
      exact ⟨hrange, hpos⟩
  · have hkept := nextCore_cursorOnly hu
    rw [hv]
    refine .inl ⟨hk, hkept.status, ?_, hkept.buf, fun hc => ?_⟩
    · simp only [State.advanceK_pass, State.setMem_pass, State.setFreeCount_pass, hkept.pass]
    · obtain ⟨hrange, hpos, -⟩ := nextCore_cursor hc hu
      exact ⟨hrange, hpos⟩
  · rw [fillCore_eq_setMem hu]
    exact .inr (.inl ⟨rfl, rfl, rfl⟩)
  · exact .inr (.inl ⟨rfl, rfl, rfl⟩)
  · exact .inr (.inr ⟨f, _, rfl⟩)

/-- No micro-step writes BASE, CAP or BW (R23). -/
theorem microStep_descriptor (h : microStep s = .next t) : t.buf = { s.buf with wc := t.buf.wc, bo := t.buf.bo } := by
  rcases microStep_registers h with ⟨-, -, -, h, -⟩ | h | ⟨f, n, rfl⟩
  · exact h
  · rw [h.buf]; rfl
  · rfl

/-! ### Invariants of the registers -/

/-- What makes a predicate an invariant of every step: it speaks of the registers only, a reset establishes it, and
what else a CMD write and a micro-step can do keeps it. -/
structure RegisterInvariant (P : State → Prop) : Prop where
  reset : ∀ {t : State}, t.buf = Descriptor.reset → t.status = StatusBits.reset → P t
  congr : ∀ {s t}, SameRegisters s t → P s → P t
  drop : ∀ {s : State}, P s → P s.drop
  fault : ∀ {s : State} f, P s → P (s.takeFault f)
  acts : ∀ {s t i}, s.accepting → Acts s i t → P s → P t
  micro : ∀ {s t : State}, s.status.busy = true → microStep s = .next t → P s → P t

namespace RegisterInvariant

variable {P : State → Prop}

theorem hostStep_keeps (hP : RegisterInvariant P) {h : HostStep} (hs : hostStep h s = .next t) (h0 : P s) : P t := by
  rcases hostStep_registers hs with ⟨-, -, v, -, -, hw⟩ | hsame
  · rcases writeCmd_cases hw with rfl | rfl | ⟨f, rfl⟩ | ⟨ha, i, hi⟩
    · exact hP.reset rfl rfl
    · exact hP.drop h0
    · exact hP.fault f h0
    · exact hP.acts ha hi h0
  · exact hP.congr hsame h0

/-- Every turn keeps it: the host's, the engine's, and a hardware reset. -/
theorem step_keeps (hP : RegisterInvariant P) (h0 : P s) (h : step s = .next t) : P t := by
  obtain ⟨u, hu, hcase⟩ := step_next_cases h
  have h0 : P u := hP.congr (by subst hu; exact ⟨rfl, rfl, rfl⟩) h0
  rcases hcase with rfl | ⟨hd, tl, -, hs⟩ | ⟨hb, hm⟩ | rfl
  · exact h0
  · exact hP.hostStep_keeps hs (hP.congr (s := u) ⟨rfl, rfl, rfl⟩ h0)
  · exact hP.micro hb hm h0
  · exact hP.reset rfl rfl

end RegisterInvariant

/-! ### The cursor (R22) -/

theorem ElemWidth.bits_le (ew : ElemWidth) : ew.bits ≤ 32 := by cases ew <;> decide

theorem toNat_ofNat_field {n : Nat} (h : n ≤ 32) : (BitVec.ofNat 6 n).toNat = n := by
  rw [BitVec.toNat_ofNat, Nat.mod_eq_of_lt (by omega)]

/-- INIT and a pass's first part leave the cursor at the start of the buffer (R121, R151). -/
theorem cursorInRange_of_fresh {base len : Word} {n bw : Nat} (ht : t.buf = freshDescriptor base n len bw)
    (h1 : 1 ≤ bw) (h2 : bw ≤ 32) : t.cursorInRange := by
  have hbw : t.buf.bw.toNat = bw := by rw [ht]; exact toNat_ofNat_field h2
  unfold State.cursorInRange
  rw [hbw]
  exact ⟨by rw [ht]; exact Nat.zero_le _, h1, h2, fun _ => by rw [ht]; rfl⟩

theorem cursorInRange_congr (h : t.buf = s.buf) (hc : s.cursorInRange) : t.cursorInRange := by
  unfold State.cursorInRange
  rwa [h]

theorem cursorInRange_of_reset (h : t.buf = Descriptor.reset) : t.cursorInRange := by
  unfold State.cursorInRange
  rw [h]
  decide

theorem Acts.cursorInRange (h : Acts s i t) (hc : s.cursorInRange) : t.cursorInRange := by
  cases h with
  | nop | datapath => exact hc
  | init h1 h2 => exact cursorInRange_of_fresh rfl h1 h2
  | extend h => exact (extendCore_cursor hc h).1
  | next h => exact (nextCore_cursor hc h).1
  | fill h => exact cursorInRange_congr (by rw [fillCore_eq_setMem h]; rfl) hc
  | pass op ew hab hb =>
    have hew := ew.bits_le
    exact cursorInRange_of_fresh rfl (by omega) (by omega)

theorem cursorInRange_invariant : RegisterInvariant State.cursorInRange where
  reset hbuf _ := cursorInRange_of_reset hbuf
  congr h := cursorInRange_congr h.buf
  drop h := h
  fault _ h := h
  acts _ h := h.cursorInRange
  micro _ h hc := by
    rcases microStep_registers h with ⟨-, -, -, -, hcur⟩ | h | ⟨f, n, rfl⟩
    · exact (hcur hc).1
    · exact cursorInRange_congr h.buf hc
    · exact hc

/-! ### STATUS (R26) -/

theorem statusConsistent_congr (h : t.status = s.status) (hs : s.statusConsistent) : t.statusConsistent := by
  unfold State.statusConsistent
  rwa [h]

theorem statusConsistent_of_reset (h : t.status = StatusBits.reset) : t.statusConsistent := by
  unfold State.statusConsistent
  rw [h]
  decide

theorem EngineFault.code_range (f : EngineFault) : f.code ≠ 0#4 ∧ f.code.toNat ≤ 4 := by cases f <;> decide

theorem statusConsistent_takeFault (s : State) (f : EngineFault) : (s.takeFault f).statusConsistent := by
  obtain ⟨h0, h4⟩ := f.code_range
  exact ⟨by simp, by simp [h0], h4⟩

theorem statusConsistent_clearBusy (hs : s.statusConsistent) : s.clearBusy.statusConsistent :=
  ⟨by simp, hs.2⟩

/-- A pass starts without a fault, since its command was accepted (R170). -/
theorem Acts.statusConsistent (h : Acts s i t) (ha : s.accepting) (hs : s.statusConsistent) : t.statusConsistent := by
  rcases h.status_cases with h | ⟨op, ew, a, b, -, -, rfl⟩
  · exact statusConsistent_congr h hs
  · exact ⟨by simp [ha.2], hs.2⟩

theorem statusConsistent_invariant : RegisterInvariant State.statusConsistent where
  reset _ hstatus := statusConsistent_of_reset hstatus
  congr h := statusConsistent_congr h.status
  drop h := h
  fault f _ := statusConsistent_takeFault _ f
  acts ha h := h.statusConsistent ha
  micro _ h hs := by
    rcases microStep_registers h with ⟨-, hst, -⟩ | h | ⟨f, n, rfl⟩
    · exact statusConsistent_congr hst hs
    · exact statusConsistent_congr h.status (statusConsistent_clearBusy hs)
    · exact statusConsistent_takeFault _ f

/-! ### The running pass (R28, R151, R154) -/

theorem passConsistent_congr (h : SameRegisters s t) (hp : s.passConsistent) : t.passConsistent := by
  unfold State.passConsistent State.position
  rwa [h.buf, h.status, h.pass]

theorem passConsistent_of_idle (h : t.status.busy = false) : t.passConsistent := fun hb => by simp [h] at hb

theorem capacity_le (n : Nat) (len : Word) : (capacity n len).toNat ≤ ceilDiv32 n :=
  calc (capacity n len).toNat = min (ceilDiv32 n) len.toNat % 2 ^ 32 := BitVec.toNat_ofNat _ _
    _ ≤ min (ceilDiv32 n) len.toNat := Nat.mod_le _ _
    _ ≤ ceilDiv32 n := Nat.min_le_left _ _

/-- The first part sets the sequencer and the descriptor up for K = 0 (R151). -/
theorem startPass_passConsistent (s : State) (op : PassOp) {ew : ElemWidth} {a b : Nat} (hab : a < b)
    (hb : b ≤ ew.bits) : (s.startPass op ew a b).passConsistent := by
  intro _
  have hew := ew.bits_le
  have hstart : (s.startPass op ew a b).pass.start.toNat = a := toNat_ofNat_field (by omega)
  have hstop : (s.startPass op ew a b).pass.stop.toNat = b := toNat_ofNat_field (by omega)
  have hbw : (s.startPass op ew a b).buf.bw.toNat = b - a := toNat_ofNat_field (by omega)
  rw [hstart, hstop, hbw]
  exact ⟨Nat.zero_le _, hab, hb, rfl, (Nat.zero_mul _).symm, capacity_le _ _⟩

/-- An accepted command leaves the engine busy only where it starts a pass. -/
theorem Acts.passConsistent (h : Acts s i t) (ha : s.accepting) : t.passConsistent := by
  rcases h.status_cases with hst | ⟨op, ew, a, b, hab, hb, rfl⟩
  · exact passConsistent_of_idle (by rw [hst, ha.1])
  · exact startPass_passConsistent s op hab hb

/-- An element micro-step advances the cursor by a block and K by one (R153, R157). -/
theorem microStep_passConsistent (hb : s.status.busy = true) (h : microStep s = .next t) (hc : s.cursorInRange)
    (hp : s.passConsistent) : t.passConsistent := by
  rcases microStep_registers h with ⟨hk, -, hpass, hbuf, hcur⟩ | h | ⟨f, n, rfl⟩
  · intro _
    obtain ⟨-, hlt, hstop, hbw, hpos, hcap⟩ := hp hb
    obtain ⟨-, hadv⟩ := hcur hc
    have hbw' : t.buf.bw = s.buf.bw := by rw [hbuf]
    have hcap' : t.buf.cap = s.buf.cap := by rw [hbuf]
    rw [hadv, hpass, hbw', hcap', hpos, ← Nat.succ_mul]
    exact ⟨hk, hlt, hstop, hbw, rfl, hcap⟩
  · exact passConsistent_of_idle (by rw [h.status]; rfl)
  · exact passConsistent_of_idle rfl

theorem safe_of_reset (hbuf : t.buf = Descriptor.reset) (hstatus : t.status = StatusBits.reset) : t.safe :=
  ⟨cursorInRange_of_reset hbuf, statusConsistent_of_reset hstatus, passConsistent_of_idle (by rw [hstatus]; rfl)⟩

theorem safe_invariant : RegisterInvariant State.safe where
  reset := safe_of_reset
  congr h := fun ⟨hc, hs, hp⟩ =>
    ⟨cursorInRange_invariant.congr h hc, statusConsistent_invariant.congr h hs, passConsistent_congr h hp⟩
  drop h := h
  fault f := fun ⟨hc, _, _⟩ => ⟨hc, statusConsistent_takeFault _ f, passConsistent_of_idle rfl⟩
  acts ha h := fun ⟨hc, hs, _⟩ => ⟨h.cursorInRange hc, h.statusConsistent ha hs, h.passConsistent ha⟩
  micro hb h := fun ⟨hc, hs, hp⟩ =>
    ⟨cursorInRange_invariant.micro hb h hc, statusConsistent_invariant.micro hb h hs,
      microStep_passConsistent hb h hc hp⟩

/-! ### The register block as the host reaches it (R24) -/

variable {off : Nat}

theorem regAccess_at {r : Reg} (h : regAtOffset off = some r) :
    regAccess s.platform (s.platform.regBase + off) 4 = some r := by
  simp [regAccess, h]

theorem hostStep_regRead_at (r : Reg) (h : regAtOffset off = some r) :
    hostStep (.regRead (s.platform.regBase + off) 4) s = .next (s.observe (readReg s r)) := by
  simp only [hostStep, regAccess_at h]

theorem hostStep_regWrite_at (v : Word) (r : Reg) (h : regAtOffset off = some r) :
    hostStep (.regWrite (s.platform.regBase + off) 4 v) s = writeReg s v r := by
  simp only [hostStep, regAccess_at h]

/-- Registers start at the sixteen aligned offsets of the block only. -/
theorem regAtOffset_aligned {r : Reg} (h : regAtOffset off = some r) : off % 4 = 0 ∧ off < 64 := by
  unfold regAtOffset at h
  split at h <;> cases h <;> decide

theorem regAccess_some {p : Config.Platform} {addr n : Nat} {r : Reg} (h : regAccess p addr n = some r) :
    n = 4 ∧ p.regBase ≤ addr ∧ (addr - p.regBase) % 4 = 0 ∧ addr - p.regBase < 64 := by
  unfold regAccess at h
  split at h
  · rename_i hw
    exact ⟨hw.1, hw.2, regAtOffset_aligned h⟩
  · cases h

/-- A write of an illegal word to CMD is dropped or takes IllegalCommand (R170, R184). -/
theorem writeCmd_of_illegal {v : Word} (h : decode v = none) :
    writeCmd v s =
      .next (if s.status.busy || s.status.fault then { s with status := { s.status with ovr := true } }
        else s.faulted 4#4) := by
  simp only [writeCmd, h, whenAccepted]
  split <;> rfl

/-! ### The STATUS word (R26) -/

/-- The bits of STATUS as read (R26). -/
theorem statusWord_getLsbD (s : State) (j : Nat) :
    s.statusWord.getLsbD j =
      if j = 0 then s.status.busy else if j = 1 then s.status.fault else if j = 2 then s.status.ovr
      else if j = 3 then s.exhausted else s.status.fcode.getLsbD (j - 4) := by
  have happ : s.statusWord.getLsbD j =
      (0#24 ++ s.status.fcode ++ BitVec.ofBool s.exhausted ++ BitVec.ofBool s.status.ovr ++
        BitVec.ofBool s.status.fault ++ BitVec.ofBool s.status.busy : BitVec (24 + 4 + 1 + 1 + 1 + 1)).getLsbD j := rfl
  simp only [happ, BitVec.getLsbD_append]
  match j with
  | 0 | 1 | 2 | 3 => simp
  | j + 4 =>
    by_cases hj : j < 4
    · simp [hj]
    · simp [hj, BitVec.getLsbD_of_ge s.status.fcode j (by omega)]

/-- From bit 4 on STATUS has the bits of FCODE, and beyond those zeros. -/
theorem statusWord_getLsbD_fcode (s : State) (j : Nat) : s.statusWord.getLsbD (4 + j) = s.status.fcode.getLsbD j := by
  rw [statusWord_getLsbD, if_neg (by omega), if_neg (by omega), if_neg (by omega), if_neg (by omega),
    Nat.add_sub_cancel_left]

end Registers

/-- Settles O42: the cursor's range is an invariant of the registers. -/
theorem cursorRangeKept : Obligations.CursorRangeKept := fun _ _ hc h => cursorInRange_invariant.step_keeps hc h

/-- Settles O43: so are the consistency of STATUS and, with the cursor in range, that of the running pass. -/
theorem stepKeepsSafe : Obligations.StepKeepsSafe := fun _ _ hs h => safe_invariant.step_keeps hs h

/-- Settles O21: EXTEND_core writes its block from the old cursor to the new one and no other stream bit. -/
theorem bitsBeyondCursorStayZero : Obligations.BitsBeyondCursorStayZero := by
  intro s t hm hc ha hx hf hz
  have h : extendCore s.args.arg0 s = .ok t := commandAct_of_exec (by simp) ha hx hf
  have hstream {j : Nat} := extendCore_stream hm hc h hz (j := j)
  obtain ⟨-, hpos, -⟩ := extendCore_cursor hc h
  have hcap : t.buf.cap = s.buf.cap := by rw [(extendCore_cursorOnly h).buf]
  refine ⟨fun j hj hlt => ?beyond, fun j hj => ?before⟩
  case beyond =>
    rw [hcap] at hlt
    rw [hstream hlt, if_neg (by omega), if_neg (by omega)]
  case before =>
    have hwc : s.buf.wc.toNat < s.buf.cap.toNat := (extendCore_ok h).1
    have hbo := bo_lt s
    have hdef : s.position = 32 * s.buf.wc.toNat + s.buf.bo.toNat := rfl
    rw [hstream (by omega), if_pos hj]

/-- Settles O36: each offset is the register that the access reaches, and off the sixteen offsets none is. -/
theorem registerBlock : Obligations.RegisterBlock := by
  refine fun s => ⟨?reads, fun v => ⟨?readOnly, ?args, fun _ hv => hostStep_regWrite_cmd hv, fun hv => ?illegal⟩,
    ?refused⟩
  case reads =>
    have read {off : Nat} := hostStep_regRead_at (s := s) (off := off)
    simp only [List.forall_mem_cons]
    exact ⟨read .cmd rfl, read .status rfl, read .result rfl, read .wc rfl, read .bo rfl, read .bw rfl, read .cap rfl,
      read .base rfl, read .arg0 rfl, read .arg1 rfl, read .arg2 rfl, read .arg3 rfl, read .arg4 rfl, read .arg5 rfl,
      read .arg6 rfl, read .reserved rfl, List.forall_mem_nil _⟩
  case readOnly =>
    have write {off : Nat} := hostStep_regWrite_at (s := s) (off := off) v
    simp only [List.forall_mem_cons]
    exact ⟨write .status rfl, write .result rfl, write .wc rfl, write .bo rfl, write .bw rfl, write .cap rfl,
      write .base rfl, write .reserved rfl, List.forall_mem_nil _⟩
  case args =>
    have write {off : Nat} := hostStep_regWrite_at (s := s) (off := off) v
    simp only [List.forall_mem_cons]
    exact ⟨write .arg0 rfl, write .arg1 rfl, write .arg2 rfl, write .arg3 rfl, write .arg4 rfl, write .arg5 rfl,
      write .arg6 rfl, List.forall_mem_nil _⟩
  case illegal =>
    have hcmd := hostStep_regWrite_at (s := s) (off := 0) v .cmd rfl
    exact hcmd.trans (writeCmd_of_illegal hv)
  case refused =>
    intro addr n v hbad
    have hnone : regAccess s.platform addr n = none :=
      Option.eq_none_iff_forall_ne_some.2 fun r hr => hbad (regAccess_some hr)
    simp only [hostStep, hnone, and_self]

/-- Settles O39, from what the commands and the micro-steps leave of the descriptor. -/
theorem descriptorWriters : Obligations.DescriptorWriters := by
  refine ⟨fun i s t h => ?command, fun s t h => ?fill, fun s t h => ?engine, fun h s t hs hno => ?host⟩
  case command =>
    rcases exec_cases h with ⟨rfl, -⟩ | rfl | ⟨f, rfl⟩ | ⟨-, h⟩
    · exact ⟨.inr (.inl rfl), .inr (.inl rfl)⟩
    · exact ⟨.inl ⟨rfl, rfl, rfl⟩, .inl ⟨rfl, rfl⟩⟩
    · exact ⟨.inl ⟨rfl, rfl, rfl⟩, .inl ⟨rfl, rfl⟩⟩
    rcases h.buf_cases with hbuf | ⟨hi, hbuf⟩ | hinit | hpass
    · rw [hbuf]
      exact ⟨.inl ⟨rfl, rfl, rfl⟩, .inl ⟨rfl, rfl⟩⟩
    · rw [hbuf]
      exact ⟨.inl ⟨rfl, rfl, rfl⟩, .inr (.inr (.inr (hi.imp_right .inl)))⟩
    · exact ⟨.inr (.inr (.inl hinit)), .inr (.inr (.inl hinit))⟩
    · exact ⟨.inr (.inr (.inr hpass)), .inr (.inr (.inr (.inr (.inr hpass))))⟩
  case fill =>
    rcases exec_next_cases h with ⟨hi, -⟩ | ⟨-, -, rfl⟩ | ⟨-, -, ⟨f, -, rfl⟩ | h⟩
    · cases hi
    · rfl
    · rfl
    · rw [fillCore_eq_setMem h]; rfl
  case engine =>
    rcases engineAct_next_cases h with ⟨-, rfl⟩ | ⟨-, h⟩
    · exact ⟨rfl, rfl, rfl⟩
    · rw [microStep_descriptor h]; exact ⟨rfl, rfl, rfl⟩
  case host =>
    rcases hostStep_registers hs with ⟨addr, n, v, hh, hr, -⟩ | hsame
    · exact absurd hr (hno addr n v hh)
    · exact hsame.buf

/-- Settles O40: a dropped or faulting command writes neither, and no command that acts writes an ARG. -/
theorem argAndResultWriters : Obligations.ArgAndResultWriters := by
  intro i s t h
  rcases exec_cases h with ⟨rfl, rfl⟩ | rfl | ⟨f, rfl⟩ | ⟨-, h⟩
  · exact ⟨rfl, .inr (.inr (.inl rfl)), fun _ hf => absurd hf (by simp [StatusBits.reset])⟩
  · exact ⟨rfl, .inl rfl, fun _ _ => rfl⟩
  · exact ⟨rfl, .inl rfl, fun _ _ => rfl⟩
  · refine ⟨h.args, ?_, fun hs ht => absurd ht (by simp [h.fault_eq_false hs])⟩
    rcases h.result_cases with h | h | h
    · exact .inl h
    · exact .inr (.inl h)
    · exact .inr (.inr (.inr h))

/-- Settles O37, bit by bit. -/
theorem statusWordFields : Obligations.StatusWordFields := by
  intro s
  refine ⟨statusWord_getLsbD s 0, statusWord_getLsbD s 1, statusWord_getLsbD s 2, ?exhausted, ?fcode, ?upper⟩
  case exhausted => rw [statusWord_getLsbD]; exact decide_eq_true_iff
  case fcode =>
    refine BitVec.eq_of_getLsbD_eq fun j hj => ?_
    rw [BitVec.getLsbD_extractLsb', statusWord_getLsbD_fcode, decide_eq_true hj, Bool.true_and]
  case upper =>
    refine BitVec.eq_of_getLsbD_eq fun j _ => ?_
    rw [BitVec.getLsbD_extractLsb', show 8 + j = 4 + (4 + j) by omega, statusWord_getLsbD_fcode,
      BitVec.getLsbD_of_ge _ _ (by omega), Bool.and_false, BitVec.getLsbD_zero]

/-- Settles O44: a reset establishes the invariant of the registers, and no cell of memory is listed. -/
theorem resetIsSafe : Obligations.ResetIsSafe := fun _ => ⟨safe_of_reset rfl rfl, rfl, safe_of_reset rfl rfl, rfl⟩

end Sys2Proof.Machine

/-! ## Proofs: the memories (spec/20_memory.md)

First the ways in which a step writes memory, said once, with the two facts that hold of each of them; then what a
micro-step may change, what the host's accesses read and write, and where an unadmitted request blocks a command. -/

namespace Sys2Proof.Machine

section Memories

variable {s t u v : State} {i : Instr} {a x : Word} {c : Nat}

/-! ### The ways in which a step writes memory -/

/-- `u` writes memory and leaves `v`: a host access, a matrix element, or a core that writes (R59, R61). -/
inductive Writes (u v : State) : Prop
  | word {a x : Word} (h : memWrite32 u a x = .ok v)
  | byte {a : Word} {x : Byte} (h : memWrite8 u a x = .ok v)
  | element {a x : Word} (h : writeElement u a x = .ok v)
  | extend {x : Word} (h : extendCore x u = .ok v)
  | fill {p : Word} (h : fillCore p u = .ok v)

/-- A write keeps the canonical form. -/
theorem Writes.wf (h : Writes u v) (hm : u.mem.wf = true) : v.mem.wf = true := by
  cases h with
  | word h =>
    obtain ⟨-, rfl⟩ := memWrite32_eq_ok.1 h
    exact Memory.setWord_wf hm _ _
  | byte h =>
    obtain ⟨-, rfl⟩ := memWrite8_eq_ok.1 h
    exact Memory.set_wf hm (byteCell_lt _ _) _
  | element h => exact writeElement_wf hm h
  | extend h => exact extendCore_wf hm h
  | fill h => exact fillCore_wf hm h

/-- A write changes only cells whose write the platform admits (R56). -/
theorem Writes.writesAdmitted (h : Writes u v) : writesAdmitted u v := by
  cases h with
  | word h => exact memWrite32_writesAdmitted h
  | byte h => exact memWrite8_writesAdmitted h
  | element h => exact writeElement_writesAdmitted h
  | extend h => exact extendCore_writesAdmitted h
  | fill h => exact fillCore_writesAdmitted h

/-- The memory of `t` is that of `s`, or what one write makes of it on the platform of `s`. The states between which
the write takes place may differ from `s` and `t` in everything else. -/
def MemoryWritten (s t : State) : Prop :=
  t.mem = s.mem ∨ ∃ u v, u.mem = s.mem ∧ u.platform = s.platform ∧ t.mem = v.mem ∧ Writes u v

theorem Writes.memoryWritten (h : Writes s t) : MemoryWritten s t := .inr ⟨s, t, rfl, rfl, rfl, h⟩

theorem MemoryWritten.wf (h : MemoryWritten s t) (hm : s.mem.wf = true) : t.mem.wf = true := by
  rcases h with h | ⟨u, v, hu, -, ht, hw⟩
  · rwa [h]
  · rw [ht]; exact hw.wf (by rwa [hu])

theorem MemoryWritten.writesAdmitted (h : MemoryWritten s t) : writesAdmitted s t := by
  rcases h with h | ⟨u, v, hu, hp, ht, hw⟩
  · exact writesAdmitted_of_mem h
  · exact writesAdmitted_congr hp.symm hu.symm ht hw.writesAdmitted

/-- Of the accepted commands only EXTEND and FILL write memory (R59). -/
theorem Acts.memoryWritten (h : Acts s i t) : MemoryWritten s t := by
  cases h with
  | nop | init | datapath | pass => exact .inl rfl
  | extend h => exact (Writes.extend h).memoryWritten
  | fill h => exact (Writes.fill h).memoryWritten
  | next h => exact .inl (by rw [nextCore_frame h]; rfl)

theorem writeCmd_memoryWritten {w : Word} (h : writeCmd w s = .next t) : MemoryWritten s t := by
  rcases writeCmd_cases h with rfl | rfl | ⟨f, rfl⟩ | ⟨-, i, h⟩
  · exact .inl rfl
  · exact .inl rfl
  · exact .inl rfl
  · exact h.memoryWritten

theorem hostStep_memoryWritten {h : HostStep} (hs : hostStep h s = .next t) : MemoryWritten s t := by
  cases h with
  | regWrite addr n w =>
    simp only [hostStep] at hs
    split at hs
    · rcases writeReg_next_cases hs with ⟨-, h⟩ | ⟨-, b, rfl⟩
      · exact writeCmd_memoryWritten h
      · exact .inl rfl
    · cases hs
  | regRead addr n =>
    simp only [hostStep] at hs
    split at hs <;> cases hs
    exact .inl rfl
  | memWrite32 a x =>
    rcases settle_eq_next.1 hs with h | ⟨f, h, -⟩
    · exact (Writes.word h).memoryWritten
    · exact absurd h (memWrite32_ne_raise _ _ _ _)
  | memWrite8 a x =>
    rcases settle_eq_next.1 hs with h | ⟨f, h, -⟩
    · exact (Writes.byte h).memoryWritten
    · exact absurd h (memWrite8_ne_raise _ _ _ _)
  | memRead32 | memRead8 =>
    simp only [hostStep, memRead32, memRead8] at hs
    split at hs <;> cases hs
    exact .inl rfl
  | poll =>
    simp only [hostStep] at hs
    cases hs
    split <;> exact .inl rfl

/-- An extract writes by EXTEND_core and FILL_core, an insert its element; a fault writes nothing (R59, R188). -/
theorem microStep_memoryWritten (h : microStep s = .next t) : MemoryWritten s t := by
  rcases microStep_core_cases h with ⟨x, n, u, -, -, hu, rfl⟩ | ⟨b, n, u, w, -, -, hu, ⟨a, e, hw⟩, -, rfl⟩ |
    ⟨u, -, -, hu, rfl⟩ | ⟨-, -, rfl⟩ | ⟨f, rfl⟩
  · exact .inr ⟨s.setFreeCount n, u, rfl, rfl, rfl, .extend hu⟩
  · have hmem : u.mem = s.mem := by rw [nextCore_frame hu]; rfl
    have hplatform : u.platform = s.platform := by rw [nextCore_frame hu]; rfl
    exact .inr ⟨u.setFreeCount n, w, hmem, hplatform, rfl, .element hw⟩
  · exact .inr ⟨s, u, rfl, rfl, rfl, .fill hu⟩
  · exact .inl rfl
  · exact .inl rfl

/-- So does every step: the host's, the engine's, and a hardware reset. -/
theorem step_memoryWritten (h : step s = .next t) : MemoryWritten s t := by
  obtain ⟨u, rfl, rfl | ⟨hd, tl, -, h⟩ | ⟨-, h⟩ | rfl⟩ := step_next_cases h
  · exact .inl rfl
  · exact hostStep_memoryWritten (s := (s.setSchedule s.schedule.tail).setProgram tl) h
  · exact microStep_memoryWritten (s := s.setSchedule s.schedule.tail) h
  · exact .inl rfl

/-! ### What a micro-step may change -/

/-- Outside the named registers, memory and the count of free values a micro-step changes nothing. -/
theorem microStep_frame (h : microStep s = .next t) :
    t = { s with
      buf := { s.buf with wc := t.buf.wc, bo := t.buf.bo }
      result := t.result
      status := { t.status with ovr := s.status.ovr }
      pass := { s.pass with k := t.pass.k }
      mem := t.mem
      freeCount := t.freeCount } := by
  rcases microStep_core_cases h with ⟨x, n, u, -, -, hu, rfl⟩ | ⟨b, n, u, w, -, -, hu, -, hw, rfl⟩ |
    ⟨u, -, -, hu, rfl⟩ | ⟨-, -, rfl⟩ | ⟨f, rfl⟩
  · rw [(extendCore_frame hu).1]; rfl
  · rw [hw, nextCore_frame hu]; rfl
  · rw [fillCore_eq_setMem hu]; rfl
  · rfl
  · rfl

/-- The cell lies in neither of buffer words WC and WC + 1, as far as their index is below CAP (R52). -/
def State.outsideCursorWords (s : State) (c : Nat) : Prop :=
  ∀ i, i = s.buf.wc.toNat ∨ i = s.buf.wc.toNat + 1 → i < s.buf.cap.toNat → c ∉ wordCells (s.bufAddr i)

/-- EXTEND_core writes word WC + 1 only where that index is below CAP (R52, R124). -/
theorem extendCore_get (h : extendCore x s = .ok t) (hc : s.outsideCursorWords c) : t.mem.get c = s.mem.get c := by
  obtain ⟨hwc, -, ⟨-, -, u, rfl, rfl⟩ | ⟨-, hwc', -, r, -, rfl⟩⟩ := extendCore_ok h
  · split <;> exact Memory.get_setWord_other _ _ (hc _ (.inl rfl) hwc)
  · exact (Memory.get_setWord_other _ _ (hc _ (.inr rfl) hwc')).trans
      (Memory.get_setWord_other _ _ (hc _ (.inl rfl) hwc))

theorem fillCore_get (h : fillCore x s = .ok t) (hc : s.outsideCursorWords c) : t.mem.get c = s.mem.get c := by
  rcases fillCore_ok h with ⟨-, rfl⟩ | ⟨-, hwc, rfl⟩
  · rfl
  · exact Memory.get_setWord_other _ _ (hc _ (.inl rfl) hwc)

/-- An extract writes the buffer at the cursor only (R59). -/
theorem microStep_extract_get (h : microStep s = .next t) (hop : s.pass.op = .extract)
    (hc : s.outsideCursorWords c) : t.mem.get c = s.mem.get c := by
  rcases microStep_core_cases h with ⟨x, n, u, -, -, hu, rfl⟩ | ⟨-, -, -, -, -, hop', -⟩ | ⟨u, -, -, hu, rfl⟩ |
    ⟨-, -, rfl⟩ | ⟨f, rfl⟩
  · exact extendCore_get (s := s.setFreeCount n) (t := u) hu hc
  · rw [hop] at hop'; cases hop'
  · exact fillCore_get (t := u) hu hc
  · rfl
  · rfl

theorem elementCells_congr (hp : u.platform = s.platform) (hpass : u.pass = s.pass) (k : Nat) :
    u.elementCells k = s.elementCells k := by
  rw [State.elementCells, hpass]
  exact matrixCells_congr hp _ _ _

/-- An insert's element micro-step writes element K only (R59). -/
theorem insertElement_sameMemoryExcept (h : insertElement s = .ok t) :
    sameMemoryExcept (s.elementCells s.pass.k) s t := by
  obtain ⟨⟨b, u⟩, hu, h⟩ := Act.bind_eq_ok.1 h
  obtain ⟨⟨e, v⟩, hv, h⟩ := Act.bind_eq_ok.1 h
  obtain ⟨w, hw, h⟩ := Act.bind_eq_ok.1 h
  cases h
  obtain ⟨⟨n, rfl⟩, -⟩ := readElement_ok hv
  have hpass : (u.setFreeCount n).pass = s.pass := by rw [nextCore_frame hu]; rfl
  have hmem : (u.setFreeCount n).mem = s.mem := by rw [nextCore_frame hu]; rfl
  have hplatform : (u.setFreeCount n).platform = s.platform := by rw [nextCore_frame hu]; rfl
  have haddr : s.elemAddr s.pass.k = (u.setFreeCount n).elemAddr s.pass.k := by rw [State.elemAddr, ← hpass]; rfl
  rw [haddr] at hw
  obtain ⟨-, hsame⟩ := writeElement_ok hw
  rw [elementCells_congr hplatform hpass] at hsame
  exact fun c hc => (hsame c hc).trans (by rw [hmem])

/-- A micro-step of an insert that leaves memory other than it was is that of an element. -/
theorem microStep_insert_cases (h : microStep s = .next t) (hop : s.pass.op = .insert) :
    (s.pass.k < s.pass.count ∧ insertElement s = .ok t) ∨ t.mem = s.mem := by
  rcases microStep_next_cases h with ⟨-, hop', -⟩ | ⟨hk, -, h⟩ | ⟨-, hop', -⟩ | ⟨-, -, h⟩ | ⟨f, rfl⟩
  · rw [hop] at hop'; cases hop'
  · exact .inl ⟨hk, h⟩
  · rw [hop] at hop'; cases hop'
  · cases h; exact .inr rfl
  · exact .inr rfl

/-! ### What the host's accesses read and write -/

theorem hostStep_memWrite32 (h : admits s.platform .word a .write = true) (x : Word) :
    hostStep (.memWrite32 a x) s = .next (s.setMem (s.mem.setWord a x)) :=
  settle_eq_next.2 (.inl (memWrite32_eq_ok.2 ⟨h, rfl⟩))

theorem hostStep_memWrite8 (h : admits s.platform .byte a .write = true) (x : Byte) :
    hostStep (.memWrite8 a x) s = .next (s.setMem (s.mem.set (byteCell s.platform a) x)) :=
  settle_eq_next.2 (.inl (memWrite8_eq_ok.2 ⟨h, rfl⟩))

theorem hostStep_memRead32 (h : admits s.platform .word a .read = true) :
    hostStep (.memRead32 a) s = .next (s.observe (s.wordAt a)) :=
  settle_eq_next.2 (.inl (Act.bind_eq_ok.2 ⟨_, memRead32_eq_ok.2 ⟨h, rfl⟩, rfl⟩))

theorem hostStep_memRead8 (h : admits s.platform .byte a .read = true) :
    hostStep (.memRead8 a) s = .next (s.observe ((s.byteAt a).setWidth 32)) :=
  settle_eq_next.2 (.inl (Act.bind_eq_ok.2 ⟨_, memRead8_eq_ok.2 ⟨h, rfl⟩, rfl⟩))

/-- A byte address that PORT_ALIAS names is the cell of the lane it names (R55). -/
theorem byteCell_of_aliasOf {p : Config.Platform} {b w : Word} {l : Fin 4} (h : aliasOf p.aliasRuns b = some (w, l)) :
    byteCell p b = wordCell w l := by
  simp only [byteCell, h]

theorem wordCell_inj {w : Word} {j l : Nat} : wordCell w j = wordCell w l ↔ j = l := by
  unfold wordCell
  omega

/-- After a word write a byte address that names a lane of the word reads that lane (R55, R61). -/
theorem byteAt_setWord_lane (hm : s.mem.wf = true) (x : Word) {b : Word} {l : Fin 4}
    (hb : aliasOf s.platform.aliasRuns b = some (a, l)) :
    (s.setMem (s.mem.setWord a x)).byteAt b = x.extractLsb' (8 * l) 8 := by
  simp only [State.byteAt, State.setMem_mem, State.setMem_platform, byteCell_of_aliasOf hb]
  exact Memory.get_setWord_lane hm _ _ l.isLt

/-- After a word write a byte address that names none of its lanes reads as before (R55, R61). -/
theorem byteAt_setWord_other (x : Word) {b : Word} (hb : ∀ l, aliasOf s.platform.aliasRuns b ≠ some (a, l)) :
    (s.setMem (s.mem.setWord a x)).byteAt b = s.byteAt b :=
  Memory.get_setWord_other _ _ fun hc => by
    obtain ⟨l, hl⟩ := byteCell_mem_wordCells.1 hc
    exact hb l hl

/-- After a byte write a lane of a word reads as written where it is the byte's cell (R55, R61). -/
theorem wordAt_lane_set (hm : s.mem.wf = true) (k : Nat) (x : Byte) (w : Word) {j : Nat} (hj : j < 4) :
    ((s.setMem (s.mem.set k x)).wordAt w).extractLsb' (8 * j) 8 =
      if wordCell w j = k then x else (s.wordAt w).extractLsb' (8 * j) 8 := by
  rw [State.wordAt, State.wordAt, Memory.getWord_lane _ _ hj, Memory.getWord_lane _ _ hj]
  exact Memory.get_set hm _ _ _

/-! ### Where an unadmitted request blocks a command -/

/-- A command whose accepted act makes a request that is not admitted does not occur (R56). -/
theorem exec_of_stuck {p : Config.Port} {k : Config.AccessKind} (hi : i ≠ .reset) (ha : s.accepting)
    (h : commandAct i s = .stuck p a k) : exec i s = .fault (.notAdmitted p a k) := by
  rw [exec_eq hi, whenAccepted_of_accepting ha, h]
  rfl

theorem memRead32_of_canRead {n : Nat} (h : s.canRead n) : memRead32 s (s.bufAddr n) = .ok (s.bufferWord n) :=
  memRead32_eq_ok.2 ⟨h, rfl⟩

theorem memRead32_of_not_canRead {n : Nat} (h : ¬ s.canRead n) :
    memRead32 s (s.bufAddr n) = .stuck .word (s.bufAddr n) .read :=
  memRead32_of_unadmitted (by simpa using h)

theorem memWrite32_of_not_canWrite {n : Nat} (h : ¬ s.canWrite n) (x : Word) :
    memWrite32 s (s.bufAddr n) x = .stuck .word (s.bufAddr n) .write :=
  memWrite32_of_unadmitted _ (by simpa using h)

variable {cw : Word}

/-! The read of word WC, which EXTEND_core and NEXT_core make first, and FILL_core where it pads. -/

theorem extendCore_of_unreadable (hlt : s.buf.wc.toNat < s.buf.cap.toNat) (hr : ¬ s.canRead s.buf.wc.toNat)
    (x : Word) : extendCore x s = .stuck .word (s.bufAddr s.buf.wc.toNat) .read := by
  simp only [extendCore, if_neg (Nat.not_le.2 hlt), memRead32_of_not_canRead hr, Act.bind_stuck]

theorem nextCore_of_unreadable (hlt : s.buf.wc.toNat < s.buf.cap.toNat) (hr : ¬ s.canRead s.buf.wc.toNat) :
    nextCore s = .stuck .word (s.bufAddr s.buf.wc.toNat) .read := by
  simp only [nextCore, if_neg (Nat.not_le.2 hlt), readBuffer_of_unadmitted (by simpa using hr), Act.bind_stuck]

/-- Where it pads, FILL_core reads word WC and writes it back (R135). -/
theorem fillCore_of_padding (hlt : s.buf.wc.toNat < s.buf.cap.toNat) (hbo : s.buf.bo.toNat ≠ 0) (p : Word) :
    fillCore p s = (memRead32 s (s.bufAddr s.buf.wc.toNat)).bind fun v =>
      memWrite32 s (s.bufAddr s.buf.wc.toNat) (v ||| (p >>> s.buf.bo.toNat)) := by
  simp only [fillCore, if_pos hbo, if_neg (Nat.not_le.2 hlt)]

/-! What follows the read of word WC (R124, R130). -/

theorem extendCore_of_fitting (hlt : s.buf.wc.toNat < s.buf.cap.toNat) (hr : s.canRead s.buf.wc.toNat)
    (hz : s.buf.bo.toNat = 0 → s.bufferWord s.buf.wc.toNat = 0#32) (hfit : s.buf.bo.toNat + s.buf.bw.toNat ≤ 32)
    (x : Word) :
    extendCore x s = extendFitting (x &&& mask 32 s.buf.bw.toNat) (s.bufferWord s.buf.wc.toNat) s := by
  have hfresh : ¬(s.buf.bo.toNat = 0 ∧ s.bufferWord s.buf.wc.toNat ≠ 0#32) := fun ⟨h0, hne⟩ => hne (hz h0)
  simp only [extendCore, if_neg (Nat.not_le.2 hlt), memRead32_of_canRead hr, Act.bind_ok, if_neg hfresh, if_pos hfit]

/-- A block of at most 32 bits straddles only where BO ≠ 0, so that word WC need not be fresh. -/
theorem extendCore_of_straddling (hlt : s.buf.wc.toNat < s.buf.cap.toNat) (hr : s.canRead s.buf.wc.toNat)
    (hw : s.buf.bw.toNat ≤ 32) (hst : 32 < s.buf.bo.toNat + s.buf.bw.toNat) (x : Word) :
    extendCore x s = extendStraddling (x &&& mask 32 s.buf.bw.toNat) (s.bufferWord s.buf.wc.toNat) s := by
  have hfresh : ¬(s.buf.bo.toNat = 0 ∧ s.bufferWord s.buf.wc.toNat ≠ 0#32) := fun ⟨h0, _⟩ => by omega
  simp only [extendCore, if_neg (Nat.not_le.2 hlt), memRead32_of_canRead hr, Act.bind_ok, if_neg hfresh,
    if_neg (Nat.not_le.2 hst)]

/-- A fitting block is blocked at its write, where the fresh-word check, if it is made, passes. -/
theorem extendFitting_of_unwritable
    (hz : s.buf.bo.toNat + s.buf.bw.toNat = 32 → s.buf.wc.toNat + 1 < s.buf.cap.toNat →
      s.canRead (s.buf.wc.toNat + 1) ∧ s.bufferWord (s.buf.wc.toNat + 1) = 0#32)
    (hwr : ¬ s.canWrite s.buf.wc.toNat) :
    extendFitting x cw s = .stuck .word (s.bufAddr s.buf.wc.toNat) .write := by
  have hcheck : (if s.buf.bo.toNat + s.buf.bw.toNat = 32 ∧ s.buf.wc.toNat + 1 < s.buf.cap.toNat then
      requireZero s (s.buf.wc.toNat + 1) else .ok ()) = Act.ok () := by
    split
    · rename_i h
      exact requireZero_eq_ok.2 (hz h.1 h.2)
    · rfl
  simp only [extendFitting, hcheck, Act.bind_ok, memWrite32_of_not_canWrite hwr, Act.bind_stuck]

/-- A block that fills its word is blocked at the fresh-word check of the next. -/
theorem extendFitting_of_unreadable (hfull : s.buf.bo.toNat + s.buf.bw.toNat = 32)
    (hlt : s.buf.wc.toNat + 1 < s.buf.cap.toNat) (hr : ¬ s.canRead (s.buf.wc.toNat + 1)) :
    extendFitting x cw s = .stuck .word (s.bufAddr (s.buf.wc.toNat + 1)) .read := by
  simp only [extendFitting, if_pos (And.intro hfull hlt), requireZero, memRead32_of_not_canRead hr, Act.bind_stuck]

theorem extendStraddling_of_unreadable (hlt : s.buf.wc.toNat + 1 < s.buf.cap.toNat)
    (hr : ¬ s.canRead (s.buf.wc.toNat + 1)) :
    extendStraddling x cw s = .stuck .word (s.bufAddr (s.buf.wc.toNat + 1)) .read := by
  simp only [extendStraddling, if_neg (Nat.not_le.2 hlt), memRead32_of_not_canRead hr, Act.bind_stuck]

/-- A straddling block that finds word WC + 1 fresh makes its two writes. -/
theorem extendStraddling_of_fresh (hlt : s.buf.wc.toNat + 1 < s.buf.cap.toNat) (hr : s.canRead (s.buf.wc.toNat + 1))
    (hz : s.bufferWord (s.buf.wc.toNat + 1) = 0#32) {r : Nat} (hrest : r = s.buf.bo.toNat + s.buf.bw.toNat - 32) :
    extendStraddling x cw s = (memWrite32 s (s.bufAddr s.buf.wc.toNat) (cw ||| (x >>> r))).bind fun t =>
      (memWrite32 t (s.bufAddr (s.buf.wc.toNat + 1)) ((x &&& mask 32 r) <<< (32 - r))).bind fun u =>
        .ok (u.setCursor (s.buf.wc.toNat + 1) r) := by
  subst hrest
  simp only [extendStraddling, if_neg (Nat.not_le.2 hlt), memRead32_of_canRead hr, Act.bind_ok, hz, ne_eq,
    not_true_eq_false, if_false, BitVec.zero_or]

theorem extendStraddling_of_unwritable (hlt : s.buf.wc.toNat + 1 < s.buf.cap.toNat)
    (hr : s.canRead (s.buf.wc.toNat + 1)) (hz : s.bufferWord (s.buf.wc.toNat + 1) = 0#32)
    (hwr : ¬ s.canWrite s.buf.wc.toNat) :
    extendStraddling x cw s = .stuck .word (s.bufAddr s.buf.wc.toNat) .write := by
  rw [extendStraddling_of_fresh hlt hr hz rfl, memWrite32_of_not_canWrite hwr, Act.bind_stuck]

theorem extendStraddling_of_second_unwritable (hlt : s.buf.wc.toNat + 1 < s.buf.cap.toNat)
    (hr : s.canRead (s.buf.wc.toNat + 1)) (hz : s.bufferWord (s.buf.wc.toNat + 1) = 0#32)
    (hwr : s.canWrite s.buf.wc.toNat) (hwr' : ¬ s.canWrite (s.buf.wc.toNat + 1)) :
    extendStraddling x cw s = .stuck .word (s.bufAddr (s.buf.wc.toNat + 1)) .write := by
  have hfirst (y : Word) : memWrite32 s (s.bufAddr s.buf.wc.toNat) y =
      .ok (s.setMem (s.mem.setWord (s.bufAddr s.buf.wc.toNat) y)) := memWrite32_eq_ok.2 ⟨hwr, rfl⟩
  have hsecond (m : Memory) (y : Word) : memWrite32 (s.setMem m) (s.bufAddr (s.buf.wc.toNat + 1)) y =
      .stuck .word (s.bufAddr (s.buf.wc.toNat + 1)) .write := memWrite32_of_not_canWrite (s := s.setMem m) hwr' y
  rw [extendStraddling_of_fresh hlt hr hz rfl, hfirst, Act.bind_ok, hsecond, Act.bind_stuck]

/-- NEXT_core of a straddling block is blocked at its read of word WC + 1; an idle engine reads memory as it is. -/
theorem nextCore_of_second_unreadable (hbusy : s.status.busy = false) (hlt : s.buf.wc.toNat < s.buf.cap.toNat)
    (hr : s.canRead s.buf.wc.toNat) (hst : 32 < s.buf.bo.toNat + s.buf.bw.toNat)
    (hlt' : s.buf.wc.toNat + 1 < s.buf.cap.toNat) (hr' : ¬ s.canRead (s.buf.wc.toNat + 1)) :
    nextCore s = .stuck .word (s.bufAddr (s.buf.wc.toNat + 1)) .read := by
  simp only [nextCore, if_neg (Nat.not_le.2 hlt), readBuffer_eq_of_admitted hr (.inl hbusy), Act.bind_ok,
    if_neg (Nat.not_le.2 hst), if_neg (Nat.not_le.2 hlt'), readBuffer_of_unadmitted (by simpa using hr'),
    Act.bind_stuck]

end Memories

/-- Settles O45: each of the ways in which a step writes memory keeps the canonical form. -/
theorem memoryStaysCanonical : Obligations.MemoryStaysCanonical := fun _ _ hm h => (step_memoryWritten h).wf hm

/-- Settles O46: each of them writes through the ports, which admit or block the write. -/
theorem memoryChangesOnlyWhereAdmitted : Obligations.MemoryChangesOnlyWhereAdmitted :=
  fun _ _ c h => (step_memoryWritten h).writesAdmitted c

/-- Settles O30: the registers by the frame of a micro-step, memory by what an extract and an insert write. -/
theorem passFrame : Obligations.PassFrame := by
  intro s t hb h
  rw [engineAct_of_busy hb] at h
  have hframe := microStep_frame h
  refine ⟨by rw [hframe], by rw [hframe], by rw [hframe], by rw [hframe], by rw [hframe], by rw [hframe],
    by rw [hframe], by rw [hframe], by rw [hframe], by rw [hframe], fun hop c => microStep_extract_get h hop,
    fun hop => ?element, fun hop hk => ?completion⟩
  case element =>
    rcases microStep_insert_cases h hop with ⟨-, h⟩ | hmem
    · exact insertElement_sameMemoryExcept h
    · exact fun c _ => by rw [hmem]
  case completion =>
    rcases microStep_insert_cases h hop with ⟨hlt, -⟩ | hmem
    · omega
    · exact hmem

/-- Settles O38: the memory laws, read through the cells that the two ports name. -/
theorem memoryReadsLastWrite : Obligations.MemoryReadsLastWrite := by
  refine fun s a hm => ⟨fun x ha => ?word, fun x ha => ?byte, hostStep_memRead32, hostStep_memRead8⟩
  case word =>
    refine ⟨_, hostStep_memWrite32 ha x, rfl, Memory.getWord_setWord_same hm a x,
      fun b hb => Memory.getWord_setWord_other _ x hb, fun b => ?_⟩
    cases hb : aliasOf s.platform.aliasRuns b with
    | none => exact byteAt_setWord_other x (by simp [hb])
    | some p =>
      obtain ⟨w, l⟩ := p
      by_cases hw : w = a
      · subst hw
        exact (byteAt_setWord_lane hm x hb).trans (if_pos rfl).symm
      · exact (byteAt_setWord_other x (by simp [hb, hw])).trans (if_neg hw).symm
  case byte =>
    refine ⟨_, hostStep_memWrite8 ha x, rfl, Memory.get_set_same hm _ x, fun b => Memory.get_set hm _ _ x,
      fun w l hal j hj => ?lane, fun w hw => ?otherWord⟩
    case lane =>
      simp only [wordAt_lane_set hm _ x w hj, byteCell_of_aliasOf hal, wordCell_inj]
    case otherWord =>
      refine Memory.getWord_congr fun c hc => Memory.get_set_other _ x ?_
      rintro rfl
      obtain ⟨l, hl⟩ := byteCell_mem_wordCells.1 hc
      exact hw l hl

/-- Settles O6: each command is blocked where its core makes the request, and a blocked turn passes. -/
theorem unadmittedStepDoesNotOccur : Obligations.UnadmittedStepDoesNotOccur := by
  refine ⟨?firstRead, ?laterRequest, ?host, ?hostTurn, ?engineTurn, ?unscheduled⟩
  case firstRead =>
    intro s ha hlt hr
    refine ⟨exec_of_stuck (by simp) ha (extendCore_of_unreadable hlt hr _), exec_of_stuck (by simp) ha ?_,
      fun hbo => exec_of_stuck (by simp) ha ?_⟩
    · rw [commandAct, nextCore_of_unreadable hlt hr, Act.bind_stuck]
    · have hbo : s.buf.bo.toNat ≠ 0 := fun h => hbo (BitVec.eq_of_toNat_eq h)
      rw [commandAct, fillCore_of_padding hlt hbo, memRead32_of_not_canRead hr, Act.bind_stuck]
  case laterRequest =>
    rintro s w b wc cap cw nw ha rfl rfl rfl rfl rfl rfl hw32 hlt hr
    refine ⟨fun hbo hwr => ?fill, fun hfit hz hz' hwr => ?fitting, fun hfull hz hlt' hr' => ?full,
      fun hst hlt' hr' => ?straddlingRead, fun hst hlt' hr' hz => ?straddlingWrite⟩
    case fill =>
      refine exec_of_stuck (by simp) ha ?_
      rw [commandAct, fillCore_of_padding hlt hbo, memRead32_of_canRead hr, Act.bind_ok, memWrite32_of_not_canWrite hwr]
    case fitting =>
      refine exec_of_stuck (by simp) ha ?_
      rw [commandAct, extendCore_of_fitting hlt hr hz hfit, extendFitting_of_unwritable hz' hwr]
    case full =>
      refine exec_of_stuck (by simp) ha ?_
      rw [commandAct, extendCore_of_fitting hlt hr hz (Nat.le_of_eq hfull),
        extendFitting_of_unreadable hfull hlt' hr']
    case straddlingRead =>
      refine ⟨exec_of_stuck (by simp) ha ?_, exec_of_stuck (by simp) ha ?_⟩
      · rw [commandAct, extendCore_of_straddling hlt hr hw32 hst, extendStraddling_of_unreadable hlt' hr']
      · rw [commandAct, nextCore_of_second_unreadable ha.1 hlt hr hst hlt' hr', Act.bind_stuck]
    case straddlingWrite =>
      refine ⟨fun hwr => exec_of_stuck (by simp) ha ?_, fun hwr hwr' => exec_of_stuck (by simp) ha ?_⟩
      · rw [commandAct, extendCore_of_straddling hlt hr hw32 hst, extendStraddling_of_unwritable hlt' hr' hz hwr]
      · rw [commandAct, extendCore_of_straddling hlt hr hw32 hst,
          extendStraddling_of_second_unwritable hlt' hr' hz hwr hwr']
  case host =>
    refine fun s a => ⟨fun h => ?_, fun h => ?_, fun h v => ?_, fun h v => ?_⟩
    · rw [hostStep, memRead32_of_unadmitted h]; rfl
    · rw [hostStep, memRead8_of_unadmitted h]; rfl
    · rw [hostStep, memWrite32_of_unadmitted v h]; rfl
    · rw [hostStep, memWrite8_of_unadmitted v h]; rfl
  case hostTurn =>
    intro s ts r hsch hr
    rw [step_of_hostTurn hsch, hr, passIfStuck_fault]
  case engineTurn =>
    intro s ts r hsch hb hr
    have hact := engineAct_of_busy (s := s.setSchedule ts) hb
    rw [step_of_engineTurn hsch, hact, hr, passIfStuck_fault]
  case unscheduled =>
    intro s r hsch hp hb hr
    simp only [step, hsch, fairTurn, hb, if_true, hr, hp]

end Sys2Proof.Machine

/-! ## Proofs: the encoding of the commands (spec/30_encoding.md)

The fields of a command are said once (`Instr.fields`). Packing and reading fields are inverse to each other, and the
decoder's rows answer exactly the command of the fields; together a word decodes to `i` exactly where `i` is well formed
and the word is its encoding. -/

namespace Sys2Proof

section Encoding

variable {i j : Instr} {w : Word} {o e s t : Nat}

/-! ### The fields of a word and of a command (R70, R75) -/

/-- The fields of a word of format F0, `Z` left out (R70). -/
structure Fields where
  opc : Nat
  ewc : Nat
  start : Nat
  stop : Nat

namespace Fields

/-- Every field is as wide as format F0 has it. -/
def Fit (f : Fields) : Prop := f.opc < 16 ∧ f.ewc < 4 ∧ f.start < 64 ∧ f.stop < 64

/-- The word with these fields and `Z = 0`. -/
def word (f : Fields) : Word := packFields f.opc f.ewc f.start f.stop

/-- What R77's rows answer for these fields. -/
def decoded (f : Fields) : Option Instr := decodeFields f.opc f.ewc f.start f.stop

/-- The fields that a word has. -/
def ofWord (w : Word) : Fields := ⟨fieldOpc w, fieldEwc w, fieldStart w, fieldStop w⟩

theorem fit_ofWord (w : Word) : (ofWord w).Fit :=
  ⟨BitVec.isLt _, BitVec.isLt _, BitVec.isLt _, BitVec.isLt _⟩

theorem fieldZ_word (f : Fields) : fieldZ f.word = 0 := by
  rw [fieldZ, word, packFields, BitVec.extractLsb'_append_eq_right]
  rfl

theorem ofWord_word {f : Fields} (hf : f.Fit) : ofWord f.word = f := by
  obtain ⟨ho, he, hs, ht⟩ := hf
  simp only [ofWord, word, packFields, fieldOpc, fieldEwc, fieldStart, fieldStop, Nat.reduceLeDiff, Nat.reduceSub,
    BitVec.extractLsb'_append_eq_of_le, BitVec.extractLsb'_append_eq_right, BitVec.extractLsb'_eq_self,
    BitVec.toNat_ofNat, Nat.reducePow, Nat.mod_eq_of_lt ho, Nat.mod_eq_of_lt he, Nat.mod_eq_of_lt hs,
    Nat.mod_eq_of_lt ht]

theorem word_ofWord (hz : fieldZ w = 0) : (ofWord w).word = w := by
  have hz : 0#14 = w.extractLsb' 0 14 := BitVec.eq_of_toNat_eq hz.symm
  simp only [ofWord, word, packFields, fieldOpc, fieldEwc, fieldStart, fieldStop, BitVec.ofNat_toNat,
    BitVec.setWidth_eq, hz, BitVec.extractLsb'_append_extractLsb'_eq_extractLsb']
  exact BitVec.extractLsb'_eq_self

end Fields

theorem decode_eq_decoded (w : Word) : decode w = if fieldZ w = 0 then (Fields.ofWord w).decoded else none := rfl

/-- The fields of a command, a row of R75 each. -/
def Instr.fields : Instr → Fields
  | .nop => ⟨0x0, 0, 0, 0⟩
  | .init bw => ⟨0x1, 0, 0, bw⟩
  | .extend => ⟨0x2, 0, 0, 0⟩
  | .next => ⟨0x3, 0, 0, 0⟩
  | .fill => ⟨0x4, 0, 0, 0⟩
  | .slice32 start stop => ⟨0x5, 0, start, stop⟩
  | .slice8 start stop => ⟨0x5, 1, start, stop⟩
  | .merge32 start stop => ⟨0x6, 0, start, stop⟩
  | .merge8 start stop => ⟨0x6, 1, start, stop⟩
  | .extract32 start stop => ⟨0x7, 0, start, stop⟩
  | .extract8 start stop => ⟨0x7, 1, start, stop⟩
  | .insert32 start stop => ⟨0x8, 0, start, stop⟩
  | .insert8 start stop => ⟨0x8, 1, start, stop⟩
  | .reset => ⟨0xF, 0, 0, 0⟩

theorem encode_eq_word (i : Instr) : encode i = i.fields.word := by
  cases i <;> rfl

theorem wellFormed_iff_fit (i : Instr) : i.wellFormed ↔ i.fields.Fit := by
  cases i <;> simp [Instr.wellFormed, Instr.fields, Fields.Fit]

/-! ### The rows of the decoder (R77) -/

theorem decodePlain_eq_none_iff : decodePlain i e s t = none ↔ e ≠ 0 ∨ s ≠ 0 ∨ t ≠ 0 := by
  rw [decodePlain, ite_eq_right_iff]
  simp only [reduceCtorEq, imp_false]
  omega

theorem decodeByWidth_eq_none_iff : decodeByWidth i j e = none ↔ e ≠ 0 ∧ e ≠ 1 := by
  unfold decodeByWidth
  split_ifs <;> simp_all

theorem fields_of_decodePlain (hi : i.fields = ⟨o, 0, 0, 0⟩) (h : decodePlain i e s t = some j) :
    j.fields = ⟨o, e, s, t⟩ := by
  obtain ⟨⟨rfl, rfl, rfl⟩, h⟩ := Option.ite_none_right_eq_some.1 h
  exact Option.some.inj h ▸ hi

theorem fields_of_decodeByWidth {i32 i8 : Instr} (h32 : i32.fields = ⟨o, 0, s, t⟩) (h8 : i8.fields = ⟨o, 1, s, t⟩)
    (h : decodeByWidth i32 i8 e = some j) : j.fields = ⟨o, e, s, t⟩ := by
  unfold decodeByWidth at h
  split_ifs at h with h0 h1
  · exact Option.some.inj h ▸ h0 ▸ h32
  · exact Option.some.inj h ▸ h1 ▸ h8

theorem fields_of_decodeFields (h : decodeFields o e s t = some i) : i.fields = ⟨o, e, s, t⟩ := by
  unfold decodeFields at h
  split at h
  case h_2 => -- INIT
    obtain ⟨⟨rfl, rfl⟩, h⟩ := Option.ite_none_right_eq_some.1 h
    exact Option.some.inj h ▸ rfl
  case h_6 | h_7 | h_8 | h_9 => exact fields_of_decodeByWidth rfl rfl h -- two width variants
  case h_11 => cases h -- no row of the opcode
  all_goals exact fields_of_decodePlain rfl h

/-- R77's rows answer exactly the command that has these fields. -/
theorem decoded_eq_some_iff {f : Fields} : f.decoded = some i ↔ i.fields = f :=
  ⟨fields_of_decodeFields, fun h => by subst h; cases i <;> rfl⟩

/-- Decoding and encoding are inverse to each other on the well-formed commands (R70, R75). -/
theorem decode_eq_some_iff : decode w = some i ↔ i.wellFormed ∧ encode i = w := by
  rw [decode_eq_decoded, Option.ite_none_right_eq_some, decoded_eq_some_iff, wellFormed_iff_fit, encode_eq_word]
  constructor
  · rintro ⟨hz, h⟩
    exact h ▸ ⟨Fields.fit_ofWord w, Fields.word_ofWord hz⟩
  · rintro ⟨hf, rfl⟩
    exact ⟨Fields.fieldZ_word _, (Fields.ofWord_word hf).symm⟩

/-! ### The illegal words (R74, R76) -/

/-- The fields that R76 lists as illegal, `Z` left out. -/
def Fields.Illegal (f : Fields) : Prop :=
  (9 ≤ f.opc ∧ f.opc ≤ 14) ∨ f.ewc = 2 ∨ f.ewc = 3 ∨ (f.ewc ≠ 0 ∧ (f.opc ≤ 4 ∨ f.opc = 15)) ∨
    (f.start ≠ 0 ∧ (f.opc ≤ 4 ∨ f.opc = 15)) ∨ (f.stop ≠ 0 ∧ (f.opc ≤ 4 ∧ f.opc ≠ 1 ∨ f.opc = 15))

theorem decoded_eq_none_iff {f : Fields} (hf : f.Fit) : f.decoded = none ↔ f.Illegal := by
  obtain ⟨o, e, s, t⟩ := f
  obtain ⟨ho, he, -, -⟩ : o < 16 ∧ e < 4 ∧ s < 64 ∧ t < 64 := hf
  simp only [Fields.decoded, Fields.Illegal, decodeFields]
  split
  case h_2 => -- INIT
    rw [ite_eq_right_iff]
    simp only [reduceCtorEq, imp_false]
    omega
  case h_6 | h_7 | h_8 | h_9 => rw [decodeByWidth_eq_none_iff]; omega -- two width variants
  case h_11 => simp only [imp_false, true_iff] at *; omega -- no row of the opcode
  all_goals rw [decodePlain_eq_none_iff]; omega

theorem decode_eq_none_iff : decode w = none ↔ (Fields.ofWord w).Illegal ∨ fieldZ w ≠ 0 := by
  rw [decode_eq_decoded, ite_eq_right_iff, decoded_eq_none_iff (Fields.fit_ofWord w), imp_iff_or_not]

end Encoding

/-- Settles O1: the word of a command has its fields, and the decoder's row for them is its own. -/
theorem decodeOfEncode : Obligations.DecodeOfEncode :=
  fun _ hi => decode_eq_some_iff.2 ⟨hi, rfl⟩

/-- Settles O2: the fields that a word's row reads are those of the command it answers, and with `Z = 0` they are the
whole word. -/
theorem decodedWordIsItsEncoding : Obligations.DecodedWordIsItsEncoding :=
  fun _ _ => decode_eq_some_iff.1

/-- Settles O3: an illegal word has `Z` not zero, or fields that R77's rows do not answer. -/
theorem illegalWordsExactly : Obligations.IllegalWordsExactly := by
  refine fun w => ⟨?_, fun h s ha => ?_⟩
  · rw [decode_eq_none_iff]
    simp only [Fields.Illegal, Fields.ofWord, fieldOpc, fieldEwc, fieldStart, fieldStop, fieldZ, BitVec.le_def,
      BitVec.toNat_eq, ne_eq, List.mem_cons, List.not_mem_nil, or_false, BitVec.toNat_ofNat, Nat.reducePow,
      Nat.reduceMod]
    omega
  · exact (Machine.writeCmd_of_illegal h).trans (by simp [ha.1, ha.2])

/-- Settles O4: the ten words are the encodings of their commands, and of the two illegal ones the first has `Z = 1`
and the second `EWC = 2`. -/
theorem sampleWordsDecode : Obligations.SampleWordsDecode :=
  ⟨decodeOfEncode (.init 5) (by decide), decodeOfEncode .extend trivial, decodeOfEncode .next trivial,
    decodeOfEncode .fill trivial, decodeOfEncode (.slice32 28 32) (by decide), decodeOfEncode (.merge8 3 5) (by decide),
    decodeOfEncode (.extract8 4 8) (by decide), decodeOfEncode (.insert32 0 32) (by decide),
    decodeOfEncode .reset trivial, decodeOfEncode .nop trivial, decode_eq_none_iff.2 (.inr (by decide)),
    decode_eq_none_iff.2 (.inl (.inr (.inl rfl)))⟩

end Sys2Proof

/-! ## Proofs: the host's poll (spec/30_encoding.md R80) -/

namespace Sys2Proof.Machine

/-- A poll records STATUS, and puts itself back while BUSY is 1. -/
theorem hostAct_of_poll {s : State} {hs : List HostStep} (hp : s.program = .poll :: hs) :
    hostAct s = .next { s with
      program := if s.status.busy then .poll :: hs else hs, observed := s.statusWord :: s.observed } := by
  rw [hostAct_of_cons hp, hostStep]
  by_cases hb : s.status.busy
  · simp only [State.setProgram_status, hb, if_true]; rfl
  · simp only [State.setProgram_status, hb, Bool.false_eq_true, if_false]; rfl

/-- Settles O47: each clause is the poll's act, read off at BUSY; in a turn of the host it is the whole step. -/
theorem pollReadsStatusUntilIdle : Obligations.PollReadsStatusUntilIdle := by
  intro s hs hp
  refine ⟨fun hb => ?_, fun hb => ?_, fun ts hsch => ?_⟩
  · rw [hostAct_of_poll hp, if_pos hb, ← hp]
  · rw [hostAct_of_poll hp, hb]; rfl
  · have hact := hostAct_of_poll (s := s.setSchedule ts) hp
    refine ⟨_, by rw [step_of_hostTurn hsch, hact, passIfStuck_next], rfl, ?_⟩
    cases hb : s.status.busy <;> simp [hb]

end Sys2Proof.Machine

/-! ## Proofs: the datapath (spec/40_slice_merge.md)

The bits of `slice` and `merge` are said at MSB-first positions (R9), where the range is `[s, t)` as the rules write it.
The laws of R108 and the results of the MERGE commands are read off there; the results of the SLICE commands are
numbers, by R101. -/

namespace Sys2Proof.Machine

section DatapathBits

variable {N s t : Nat} (e : BitVec N) (b : Word)

/-- The position `p` of the range is bit `t - 1 - p` of the slice (R101). -/
theorem getLsbD_slice_at (ht : t ≤ N) {p : Nat} (hsp : s ≤ p) (hpt : p < t) :
    (slice e s t).getLsbD (t - 1 - p) = e.getMsbD p := by
  have hin : t - 1 - p < t - s := by omega
  have hat : N - t + (t - 1 - p) = N - 1 - p := by omega
  have hp : p < N := by omega
  simp only [getLsbD_slice _ (show t - s ≤ N by omega), BitVec.getMsbD_eq_getLsbD, hin, hat, hp]

/-- The merge formula at an MSB-first position: the block's bit inside the range, the element's outside (R105). -/
theorem getMsbD_merge (hst : s ≤ t) (ht : t ≤ N) {p : Nat} (hp : p < N) :
    (merge e b s t).getMsbD p = if s ≤ p ∧ p < t then b.getLsbD (t - 1 - p) else e.getMsbD p := by
  have hrange : (N - t ≤ N - 1 - p ∧ N - 1 - p < N - s) ↔ (s ≤ p ∧ p < t) := by omega
  have hat : N - 1 - p - (N - t) = t - 1 - p := by omega
  simp only [BitVec.getMsbD_eq_getLsbD, getLsbD_merge e b hst ht, hp, hrange, hat, decide_true, Bool.true_and]

/-- The whole range gives the value back (R101). -/
theorem slice_whole : slice e 0 N = e :=
  BitVec.eq_of_toNat_eq <| by
    rw [slice_toNat e (by omega), Nat.sub_self, Nat.pow_zero, Nat.div_one, Nat.sub_zero, Nat.mod_eq_of_lt e.isLt]

/-- The source's second form of `merge`: the range is cleared, then the block's low bits are put there (R105). -/
theorem merge_eq_mask_form (hst : s ≤ t) (ht : t ≤ N) :
    merge e b s t = (e &&& ~~~(mask N (t - s) <<< (N - t))) ||| ((b.setWidth N &&& mask N (t - s)) <<< (N - t)) := by
  refine BitVec.eq_of_getLsbD_eq fun i hi => ?_
  have hw : t - s ≤ N := by omega
  simp only [getLsbD_merge e b hst ht, BitVec.getLsbD_or, BitVec.getLsbD_and, BitVec.getLsbD_not,
    BitVec.getLsbD_shiftLeft, BitVec.getLsbD_setWidth, getLsbD_mask hw, hi, decide_true, Bool.true_and]
  by_cases hin : N - t ≤ i ∧ i < N - s
  · have h1 : ¬ i < N - t := by omega
    have h2 : i - (N - t) < t - s := by omega
    have h3 : i - (N - t) < N := by omega
    simp [hin, h1, h2, h3]
  · rw [if_neg hin]
    by_cases h1 : i < N - t
    · simp [h1]
    · have h2 : ¬ i - (N - t) < t - s := by omega
      simp [h2]

/-! ### The laws of R108 -/

/-- R108 (a). -/
theorem slice_merge_toNat (hst : s ≤ t) (ht : t ≤ N) :
    (slice (merge e b s t) s t).toNat = b.toNat % 2 ^ (t - s) := by
  refine Nat.eq_of_testBit_eq fun i => ?_
  rw [BitVec.testBit_toNat, getLsbD_slice _ (by omega), getLsbD_merge e b hst ht, Nat.testBit_mod_two_pow,
    BitVec.testBit_toNat, Nat.add_sub_cancel_left]
  by_cases hi : i < t - s
  · rw [if_pos ⟨by omega, by omega⟩]
  · simp [hi]

/-- R108 (b); the block is the slice as a word, which no bit of an element is lost in. -/
theorem merge_slice_self (hst : s ≤ t) (ht : t ≤ N) (hN : N ≤ 32) :
    merge e ((slice e s t).setWidth 32) s t = e := by
  refine BitVec.eq_of_getMsbD_eq fun p hp => ?_
  rw [getMsbD_merge e _ hst ht hp, ite_eq_right_iff]
  rintro ⟨hsp, hpt⟩
  have hlow : t - 1 - p < 32 := by omega
  rw [BitVec.getLsbD_setWidth, getLsbD_slice_at e ht hsp hpt, decide_eq_true hlow, Bool.true_and]

/-- R108 (c): non-interference. -/
theorem getMsbD_merge_outside (hst : s ≤ t) (ht : t ≤ N) {p : Nat} (hp : p < N) (hout : ¬(s ≤ p ∧ p < t)) :
    (merge e b s t).getMsbD p = e.getMsbD p := by
  rw [getMsbD_merge e b hst ht hp, if_neg hout]

/-- R108 (d). -/
theorem merge_merge (c : Word) (hst : s ≤ t) (ht : t ≤ N) : merge (merge e b s t) c s t = merge e c s t := by
  refine BitVec.eq_of_getMsbD_eq fun p hp => ?_
  rw [getMsbD_merge _ c hst ht hp, getMsbD_merge e c hst ht hp]
  by_cases hin : s ≤ p ∧ p < t
  · rw [if_pos hin, if_pos hin]
  · rw [if_neg hin, if_neg hin, getMsbD_merge_outside e b hst ht hp hin]

end DatapathBits

/-- Settles O11: the formulas of R101 and R105 are the model's own up to `mask`, the mask form and the positions are
compared bit by bit. -/
theorem datapathFunctions : Obligations.DatapathFunctions := by
  intro N _ v b s t hst ht
  have hnum := slice_toNat v (show t - s ≤ N by omega)
  refine ⟨hnum, ?_, slice_whole v, rfl, merge_eq_mask_form v b hst.le ht,
    fun p hp => getMsbD_merge v b hst.le ht hp⟩
  rw [hnum, BitVec.extractLsb'_toNat, Nat.shiftRight_eq_div_pow]

/-- Settles O12: R108's laws, each by the bits of `merge`. -/
theorem datapathLaws : Obligations.DatapathLaws := by
  intro N hN e b b1 b2 s t hst ht
  exact ⟨slice_merge_toNat e b hst.le ht, merge_slice_self e hst.le ht (by omega),
    fun p hp hout => getMsbD_merge_outside e b hst.le ht hp hout, merge_merge e b1 b2 hst.le ht⟩

section DatapathCommands

variable {s : State} {i : Instr}

/-! ### The words of commands with a range (R70, R75) -/

/-- `or` acts field by field on a word of five fields. -/
theorem or_fields (o o' : BitVec 4) (e e' : BitVec 2) (s s' t t' : BitVec 6) (z z' : BitVec 14) :
    ((o ++ e ++ s ++ t ++ z : Word) ||| (o' ++ e' ++ s' ++ t' ++ z' : Word)) =
      (o ||| o') ++ (e ||| e') ++ (s ||| s') ++ (t ||| t') ++ (z ||| z') := by
  rw [← BitVec.or_append, ← BitVec.or_append, ← BitVec.or_append, ← BitVec.or_append]

theorem start_shifted (a : BitVec 6) : a.setWidth 32 <<< 20 = (0#4 ++ 0#2 ++ a ++ 0#6 ++ 0#14 : Word) := by
  revert a; decide

theorem stop_shifted (b : BitVec 6) : b.setWidth 32 <<< 14 = (0#4 ++ 0#2 ++ 0#6 ++ b ++ 0#14 : Word) := by
  revert b; decide

/-- A word of format F0 is its two fixed fields with START and STOP put at bits 20 and 14. -/
theorem packFields_range (o w : Nat) (a b : BitVec 6) :
    packFields o w a.toNat b.toNat =
      packFields o w 0 0 ||| (a.setWidth 32 <<< 20) ||| (b.setWidth 32 <<< 14) := by
  simp only [packFields, BitVec.ofNat_toNat, BitVec.setWidth_eq, start_shifted, stop_shifted, or_fields,
    BitVec.or_zero, BitVec.zero_or]

/-- The word made of a command's fixed fields, START and STOP decodes to that command. -/
theorem decode_range_word {o w : Nat} {a b : BitVec 6} (hi : i.fields = ⟨o, w, a.toNat, b.toNat⟩)
    (ho : o < 16) (hw : w < 4) :
    decode (packFields o w 0 0 ||| (a.setWidth 32 <<< 20) ||| (b.setWidth 32 <<< 14)) = some i := by
  have hfit : i.fields.Fit := hi ▸ ⟨ho, hw, a.isLt, b.isLt⟩
  refine decode_eq_some_iff.2 ⟨(wellFormed_iff_fit i).2 hfit, ?_⟩
  rw [encode_eq_word, hi, ← packFields_range]
  rfl

/-! ### The commands of the datapath and their two ends (R100, R181) -/

theorem exec_slice32 (a b : Nat) :
    exec (.slice32 a b) s = datapathCommand .w32 a b (sliceElem .w32 s.args.arg0 a b) s := rfl

theorem exec_slice8 (a b : Nat) :
    exec (.slice8 a b) s = datapathCommand .w8 a b (sliceElem .w8 s.args.arg0 a b) s := rfl

theorem exec_merge32 (a b : Nat) :
    exec (.merge32 a b) s = datapathCommand .w32 a b (merge s.args.arg0 s.args.arg1 a b) s := rfl

theorem exec_merge8 (a b : Nat) :
    exec (.merge8 a b) s =
      datapathCommand .w8 a b ((merge (s.args.arg0.setWidth 8) s.args.arg1 a b).setWidth 32) s := rfl

theorem datapathCommand_inRange (ew : ElemWidth) {a b : Nat} {v : Word} (ha : s.accepting)
    (hr : a < b ∧ b ≤ ew.bits) : datapathCommand ew a b v s = .next { s with result := v } := by
  rw [datapathCommand, whenAccepted_of_accepting ha, if_pos (rangeOk_iff.2 hr)]
  rfl

theorem datapathCommand_outOfRange (ew : ElemWidth) {a b : Nat} {v : Word} (ha : s.accepting)
    (hr : ¬(a < b ∧ b ≤ ew.bits)) : datapathCommand ew a b v s = .next (s.faulted 1#4) := by
  rw [datapathCommand, whenAccepted_of_accepting ha, if_neg (mt rangeOk_iff.1 hr)]
  rfl

/-- The slice of an element of either width as a number (R102, R103). -/
theorem sliceElem_eq_ofNat (ew : ElemWidth) (v : Word) {a b : Nat} (hb : b ≤ ew.bits) :
    sliceElem ew v a b = BitVec.ofNat 32 (v.toNat % 2 ^ ew.bits / 2 ^ (ew.bits - b) % 2 ^ (b - a)) := by
  cases ew with
  | w32 =>
    have hw : b - a ≤ 32 := (Nat.sub_le b a).trans hb
    rw [sliceElem, ElemWidth.bits, Nat.mod_eq_of_lt v.isLt, ← slice_toNat v hw, BitVec.ofNat_toNat,
      BitVec.setWidth_eq]
  | w8 =>
    have hw : b - a ≤ 8 := (Nat.sub_le b a).trans hb
    rw [sliceElem, ElemWidth.bits, ← BitVec.toNat_setWidth, ← slice_toNat _ hw, BitVec.ofNat_toNat]

end DatapathCommands

/-- Settles O13: the words by their fields, the values by R101's formula; out of range the check raises InvalidRange. -/
theorem sliceCommands : Obligations.SliceCommands := by
  refine fun a b => ⟨⟨decode_range_word (o := 5) (w := 0) rfl (by decide) (by decide), fun s ha => ?_⟩,
    ⟨decode_range_word (o := 5) (w := 1) rfl (by decide) (by decide), fun s ha => ?_⟩⟩
  · rw [exec_slice32]
    refine ⟨fun hr => ?_, datapathCommand_outOfRange .w32 ha⟩
    have hmod : s.args.arg0.toNat % 2 ^ 32 = s.args.arg0.toNat := Nat.mod_eq_of_lt s.args.arg0.isLt
    rw [datapathCommand_inRange .w32 ha hr, sliceElem_eq_ofNat .w32 _ hr.2, ElemWidth.bits, hmod]
  · rw [exec_slice8]
    refine ⟨fun hr => ?_, datapathCommand_outOfRange .w8 ha⟩
    rw [datapathCommand_inRange .w8 ha hr, sliceElem_eq_ofNat .w8 _ hr.2]
    rfl

/-- Settles O14: the words by their fields, the values by the positions of `merge`; out of range the check raises
InvalidRange. -/
theorem mergeCommands : Obligations.MergeCommands := by
  refine fun a b => ⟨⟨decode_range_word (o := 6) (w := 0) rfl (by decide) (by decide), fun s ha => ?_⟩,
    ⟨decode_range_word (o := 6) (w := 1) rfl (by decide) (by decide), fun s ha => ?_⟩⟩
  · rw [exec_merge32]
    refine ⟨fun hr => ⟨_, datapathCommand_inRange .w32 ha hr, fun p hp => ?_⟩, datapathCommand_outOfRange .w32 ha⟩
    exact getMsbD_merge _ _ hr.1.le hr.2 hp
  · rw [exec_merge8]
    refine ⟨fun hr => ⟨_, datapathCommand_inRange .w8 ha hr, fun p hp => ?_⟩, datapathCommand_outOfRange .w8 ha⟩
    have helem : (s.args.arg0.setWidth 8).getMsbD p = s.args.arg0.getLsbD (7 - p) := by
      simp [BitVec.getMsbD_eq_getLsbD, hp, show 7 - p < 8 by omega]
    rw [getMsbD_merge _ _ hr.1.le hr.2 hp, helem]

end Sys2Proof.Machine

/-! ## Proofs: the buffer commands (spec/41_buffer_cursor.md)

First the two ends of an accepted command, and the cores of R124, R130 and R135 branch by branch, with what they leave as
numbers; then R126's advance over any mix of commands. For the mirror law of R133 a predicate says that the stream holds
a list of blocks from a bit on: EXTENDs establish it, FILL and INIT keep it, and NEXTs read the blocks off. -/

namespace Sys2Proof.Machine

section BufferCommands

variable {s t : State} {i : Instr} {x p : Word}

/-! ### The two ends of an accepted command (R170, R186) -/

theorem exec_of_ok (hi : i ≠ .reset) (ha : s.accepting) (h : commandAct i s = .ok t) : exec i s = .next t := by
  rw [exec_eq hi, whenAccepted_of_accepting ha, h]
  rfl

theorem exec_of_raise {f : EngineFault} (hi : i ≠ .reset) (ha : s.accepting) (h : commandAct i s = .raise f) :
    exec i s = .next (s.faulted f.code) := by
  rw [exec_eq hi, whenAccepted_of_accepting ha, h]
  rfl

/-! ### INIT (R121) -/

theorem exec_init_inRange {bw : Nat} (ha : s.accepting) (h : 1 ≤ bw ∧ bw ≤ 32) :
    exec (.init bw) s = .next (s.setBuf (freshDescriptor s.args.arg1 s.args.arg0.toNat s.args.arg2 bw)) :=
  exec_of_ok (by simp) ha (if_pos h)

theorem exec_init_outOfRange {bw : Nat} (ha : s.accepting) (h : ¬(1 ≤ bw ∧ bw ≤ 32)) :
    exec (.init bw) s = .next (s.faulted 1#4) :=
  exec_of_raise (f := .invalidRange) (by simp) ha (if_neg h)

theorem capacity_toNat (n : Nat) (len : Word) : (capacity n len).toNat = min (ceilDiv32 n) len.toNat := by
  have hle : min (ceilDiv32 n) len.toNat ≤ len.toNat := Nat.min_le_right _ _
  rw [capacity, BitVec.toNat_ofNat, Nat.mod_eq_of_lt (hle.trans_lt len.isLt)]

/-! ### The memory accesses of the cores -/

theorem memWrite32_of_canWrite {n : Nat} (h : s.canWrite n) (v : Word) :
    memWrite32 s (s.bufAddr n) v = .ok (s.setMem (s.mem.setWord (s.bufAddr n) v)) :=
  memWrite32_eq_ok.2 ⟨h, rfl⟩

theorem readBuffer_of_idle {n : Nat} (hb : s.status.busy = false) (h : s.canRead n) :
    readBuffer s (s.bufAddr n) = .ok (s.bufferWord n, s) :=
  readBuffer_eq_of_admitted h (.inl hb)

/-- The next buffer word is another word, as far as its index is below CAP (R52). -/
theorem bufAddr_ne_succ {n : Nat} (h : n + 1 < s.buf.cap.toNat) : s.bufAddr n ≠ s.bufAddr (n + 1) := by
  have hcap := cap_lt s
  exact fun heq => absurd (bufAddr_inj (by omega) (by omega) heq) (by omega)

/-- A block that fits moves the cursor as R126 says it in one formula. -/
theorem setCursor_of_fitting (hfit : s.buf.bo.toNat + s.buf.bw.toNat ≤ 32) :
    (if s.buf.bo.toNat + s.buf.bw.toNat = 32 then t.setCursor (s.buf.wc.toNat + 1) 0
      else t.setCursor s.buf.wc.toNat (s.buf.bo.toNat + s.buf.bw.toNat)) =
      t.setCursor (s.buf.wc.toNat + (s.buf.bo.toNat + s.buf.bw.toNat) / 32)
        ((s.buf.bo.toNat + s.buf.bw.toNat) % 32) := by
  split
  · rename_i hfull
    rw [hfull]
  · rw [Nat.div_eq_of_lt (by omega), Nat.mod_eq_of_lt (by omega), Nat.add_zero]

/-! ### The branches of EXTEND_core (R124) -/

theorem extendCore_of_exhausted (h : s.buf.cap.toNat ≤ s.buf.wc.toNat) : extendCore x s = .raise .bufferOverflow :=
  if_pos h

theorem extendCore_of_stale (hlt : s.buf.wc.toNat < s.buf.cap.toNat) (hr : s.canRead s.buf.wc.toNat)
    (hbo : s.buf.bo.toNat = 0) (hne : s.bufferWord s.buf.wc.toNat ≠ 0#32) :
    extendCore x s = .raise .nonZeroCollision := by
  simp only [extendCore, if_neg (Nat.not_le.2 hlt), memRead32_of_canRead hr, Act.bind_ok, if_pos (And.intro hbo hne)]

theorem extendFitting_of_stale {cw : Word} (hfull : s.buf.bo.toNat + s.buf.bw.toNat = 32)
    (hlt : s.buf.wc.toNat + 1 < s.buf.cap.toNat) (hr : s.canRead (s.buf.wc.toNat + 1))
    (hne : s.bufferWord (s.buf.wc.toNat + 1) ≠ 0#32) : extendFitting x cw s = .raise .nonZeroCollision := by
  simp only [extendFitting, if_pos (And.intro hfull hlt), requireZero_eq_raise.2 ⟨hr, hne, rfl⟩, Act.bind_raise]

theorem extendFitting_of_fresh {cw : Word} (hfit : s.buf.bo.toNat + s.buf.bw.toNat ≤ 32)
    (hz : s.buf.bo.toNat + s.buf.bw.toNat = 32 → s.buf.wc.toNat + 1 < s.buf.cap.toNat →
      s.canRead (s.buf.wc.toNat + 1) ∧ s.bufferWord (s.buf.wc.toNat + 1) = 0#32)
    (hwr : s.canWrite s.buf.wc.toNat) :
    extendFitting x cw s = .ok ((s.setMem (s.mem.setWord (s.bufAddr s.buf.wc.toNat)
      (cw ||| (x <<< (32 - s.buf.bo.toNat - s.buf.bw.toNat))))).setCursor
        (s.buf.wc.toNat + (s.buf.bo.toNat + s.buf.bw.toNat) / 32) ((s.buf.bo.toNat + s.buf.bw.toNat) % 32)) := by
  have hcheck : (if s.buf.bo.toNat + s.buf.bw.toNat = 32 ∧ s.buf.wc.toNat + 1 < s.buf.cap.toNat then
      requireZero s (s.buf.wc.toNat + 1) else .ok ()) = Act.ok () :=
    ite_eq_right_iff.2 fun h => requireZero_eq_ok.2 (hz h.1 h.2)
  simp only [extendFitting, hcheck, Act.bind_ok, memWrite32_of_canWrite hwr, setCursor_of_fitting hfit]

theorem extendStraddling_of_last {cw : Word} (h : s.buf.cap.toNat ≤ s.buf.wc.toNat + 1) :
    extendStraddling x cw s = .raise .bufferOverflow :=
  if_pos h

theorem extendStraddling_of_stale {cw : Word} (hlt : s.buf.wc.toNat + 1 < s.buf.cap.toNat)
    (hr : s.canRead (s.buf.wc.toNat + 1)) (hne : s.bufferWord (s.buf.wc.toNat + 1) ≠ 0#32) :
    extendStraddling x cw s = .raise .nonZeroCollision := by
  simp only [extendStraddling, if_neg (Nat.not_le.2 hlt), memRead32_of_canRead hr, Act.bind_ok, if_pos hne]

theorem extendStraddling_of_writable {cw : Word} (hlt : s.buf.wc.toNat + 1 < s.buf.cap.toNat)
    (hr : s.canRead (s.buf.wc.toNat + 1)) (hz : s.bufferWord (s.buf.wc.toNat + 1) = 0#32)
    (hwr : s.canWrite s.buf.wc.toNat) (hwr' : s.canWrite (s.buf.wc.toNat + 1)) {r : Nat}
    (hrest : r = s.buf.bo.toNat + s.buf.bw.toNat - 32) :
    extendStraddling x cw s = .ok ((s.setMem ((s.mem.setWord (s.bufAddr s.buf.wc.toNat) (cw ||| (x >>> r))).setWord
      (s.bufAddr (s.buf.wc.toNat + 1)) ((x &&& mask 32 r) <<< (32 - r)))).setCursor (s.buf.wc.toNat + 1) r) := by
  have hsecond (m : Memory) (y : Word) : memWrite32 (s.setMem m) (s.bufAddr (s.buf.wc.toNat + 1)) y =
      .ok ((s.setMem m).setMem (m.setWord (s.bufAddr (s.buf.wc.toNat + 1)) y)) :=
    memWrite32_of_canWrite (s := s.setMem m) hwr' y
  rw [extendStraddling_of_fresh hlt hr hz hrest, memWrite32_of_canWrite hwr, Act.bind_ok, hsecond, Act.bind_ok]
  rfl

/-! ### The branches of NEXT_core in an idle engine (R130) -/

theorem nextCore_of_exhausted (h : s.buf.cap.toNat ≤ s.buf.wc.toNat) : nextCore s = .raise .bufferOverflow :=
  if_pos h

theorem nextCore_of_fitting (hb : s.status.busy = false) (hlt : s.buf.wc.toNat < s.buf.cap.toNat)
    (hr : s.canRead s.buf.wc.toNat) (hfit : s.buf.bo.toNat + s.buf.bw.toNat ≤ 32) :
    nextCore s = .ok (slice (s.bufferWord s.buf.wc.toNat) s.buf.bo.toNat (s.buf.bo.toNat + s.buf.bw.toNat),
      s.setCursor (s.buf.wc.toNat + (s.buf.bo.toNat + s.buf.bw.toNat) / 32)
        ((s.buf.bo.toNat + s.buf.bw.toNat) % 32)) := by
  simp only [nextCore, if_neg (Nat.not_le.2 hlt), readBuffer_of_idle hb hr, Act.bind_ok, if_pos hfit,
    setCursor_of_fitting hfit]

theorem nextCore_of_straddling_last (hb : s.status.busy = false) (hlt : s.buf.wc.toNat < s.buf.cap.toNat)
    (hr : s.canRead s.buf.wc.toNat) (hst : 32 < s.buf.bo.toNat + s.buf.bw.toNat)
    (hlast : s.buf.cap.toNat ≤ s.buf.wc.toNat + 1) : nextCore s = .raise .bufferOverflow := by
  simp only [nextCore, if_neg (Nat.not_le.2 hlt), readBuffer_of_idle hb hr, Act.bind_ok, if_neg (Nat.not_le.2 hst),
    ge_iff_le, if_pos hlast]

theorem nextCore_of_straddling (hb : s.status.busy = false) (hr : s.canRead s.buf.wc.toNat)
    (hst : 32 < s.buf.bo.toNat + s.buf.bw.toNat) (hlt : s.buf.wc.toNat + 1 < s.buf.cap.toNat)
    (hr' : s.canRead (s.buf.wc.toNat + 1)) {r : Nat} (hrest : r = s.buf.bo.toNat + s.buf.bw.toNat - 32) :
    nextCore s = .ok ((slice (s.bufferWord s.buf.wc.toNat) s.buf.bo.toNat 32 <<< r) |||
      slice (s.bufferWord (s.buf.wc.toNat + 1)) 0 r, s.setCursor (s.buf.wc.toNat + 1) r) := by
  subst hrest
  simp only [nextCore, if_neg (Nat.not_le.2 (Nat.lt_of_succ_lt hlt)), readBuffer_of_idle hb hr, Act.bind_ok,
    if_neg (Nat.not_le.2 hst), if_neg (Nat.not_le.2 hlt), readBuffer_of_idle hb hr']

/-- NEXT is NEXT_core, whose block goes to RESULT. -/
theorem commandAct_next {v : Word} (h : nextCore s = .ok (v, t)) : commandAct .next s = .ok (t.setResult v) := by
  rw [commandAct, h]
  rfl

theorem commandAct_next_raise {f : EngineFault} (h : nextCore s = .raise f) : commandAct .next s = .raise f := by
  rw [commandAct, h]
  rfl

/-! ### The branches of FILL_core (R135) -/

theorem fillCore_of_aligned (hbo : s.buf.bo.toNat = 0) : fillCore p s = .ok s :=
  if_neg (not_not_intro hbo)

theorem fillCore_of_exhausted (hbo : s.buf.bo.toNat ≠ 0) (h : s.buf.cap.toNat ≤ s.buf.wc.toNat) :
    fillCore p s = .raise .bufferOverflow := by
  simp only [fillCore, if_pos hbo, ge_iff_le, if_pos h]

theorem fillCore_of_writable (hbo : s.buf.bo.toNat ≠ 0) (hlt : s.buf.wc.toNat < s.buf.cap.toNat)
    (hr : s.canRead s.buf.wc.toNat) (hwr : s.canWrite s.buf.wc.toNat) :
    fillCore p s = .ok (s.setMem (s.mem.setWord (s.bufAddr s.buf.wc.toNat)
      (s.bufferWord s.buf.wc.toNat ||| (p >>> s.buf.bo.toNat)))) := by
  rw [fillCore_of_padding hlt hbo, memRead32_of_canRead hr, Act.bind_ok, memWrite32_of_canWrite hwr]

/-- Where FILL_core padded, the platform answers the read and the write of word WC (R56). -/
theorem fillCore_admitted (h : fillCore p s = .ok t) (hbo : s.buf.bo.toNat ≠ 0) :
    s.canRead s.buf.wc.toNat ∧ s.canWrite s.buf.wc.toNat := by
  rcases fillCore_ok h with ⟨h0, -⟩ | ⟨-, hlt, -⟩
  · exact absurd h0 hbo
  · rw [fillCore_of_padding hlt hbo] at h
    obtain ⟨v, hv, hw⟩ := Act.bind_eq_ok.1 h
    exact ⟨(memRead32_eq_ok.1 hv).1, (memWrite32_eq_ok.1 hw).1⟩

/-! ### Blocks and words as numbers -/

theorem and_mask_toNat {n : Nat} (h : n ≤ 32) (v : Word) : (v &&& mask 32 n).toNat = v.toNat % 2 ^ n := by
  rw [BitVec.toNat_and, mask_toNat h, Nat.and_two_pow_sub_one_eq_mod]

theorem shiftLeft_eq_ofNat (v : Word) (n : Nat) : v <<< n = BitVec.ofNat 32 (v.toNat * 2 ^ n) :=
  BitVec.eq_of_toNat_eq (by rw [BitVec.toNat_shiftLeft, BitVec.toNat_ofNat, Nat.shiftLeft_eq])

theorem ushiftRight_eq_ofNat (v : Word) (n : Nat) : v >>> n = BitVec.ofNat 32 (v.toNat / 2 ^ n) := by
  rw [← Nat.shiftRight_eq_div_pow, ← BitVec.toNat_ushiftRight, BitVec.ofNat_toNat, BitVec.setWidth_eq]

/-- The block that fits, as a number (R130). -/
theorem slice_fitting_eq_ofNat (v : Word) (b : Nat) {w : Nat} (hw : w ≤ 32) :
    slice v b (b + w) = BitVec.ofNat 32 (v.toNat / 2 ^ (32 - (b + w)) % 2 ^ w) := by
  have hnum := slice_toNat v (s := b) (t := b + w) (by omega)
  rw [Nat.add_sub_cancel_left] at hnum
  rw [← hnum, BitVec.ofNat_toNat, BitVec.setWidth_eq]

/-- The block that straddles, as a number: the two parts do not overlap (R130). -/
theorem slice_straddling_eq_ofNat (v v' : Word) (b : Nat) {r : Nat} (hr : r ≤ 32) :
    (slice v b 32 <<< r) ||| slice v' 0 r =
      BitVec.ofNat 32 (v.toNat % 2 ^ (32 - b) * 2 ^ r + v'.toNat / 2 ^ (32 - r)) := by
  have hhigh : (slice v b 32).toNat = v.toNat % 2 ^ (32 - b) := by
    rw [slice_toNat v (Nat.sub_le 32 b), Nat.sub_self, Nat.pow_zero, Nat.div_one]
  have hlt : v'.toNat / 2 ^ (32 - r) < 2 ^ r := by
    rw [Nat.div_lt_iff_lt_mul (Nat.two_pow_pos _), ← Nat.pow_add, Nat.add_sub_cancel' hr]
    exact v'.isLt
  have hlow : (slice v' 0 r).toNat = v'.toNat / 2 ^ (32 - r) := by
    rw [slice_toNat v' (by omega), Nat.sub_zero, Nat.mod_eq_of_lt hlt]
  refine BitVec.eq_of_toNat_eq ?_
  rw [BitVec.toNat_or, BitVec.toNat_shiftLeft, hhigh, hlow, BitVec.toNat_ofNat, ← Nat.shiftLeft_eq,
    Nat.shiftLeft_add_eq_or_of_lt hlt, Nat.or_mod_two_pow,
    Nat.mod_eq_of_lt (a := v'.toNat / 2 ^ (32 - r)) (hlt.trans_le (Nat.pow_le_pow_right (by omega) hr))]

end BufferCommands

/-- Settles O15: the word by its fields, the descriptor by the check's two ends. -/
theorem initCommand : Obligations.InitCommand := by
  intro b
  have hopc : packFields 1 0 0 0 ||| ((0#6).setWidth 32 <<< 20) = 0x10000000#32 := by decide
  have hword := decode_range_word (i := .init b.toNat) (o := 1) (w := 0) (a := 0#6) (b := b) rfl (by decide) (by decide)
  rw [hopc] at hword
  refine ⟨hword, fun s ha => ⟨fun hr => ⟨_, exec_init_inRange ha hr, ?_, capacity_toNat _ _, ?_⟩,
    exec_init_outOfRange ha⟩⟩
  · have hbw : BitVec.ofNat 6 b.toNat = b := by simp
    simp only [State.setBuf, freshDescriptor, capacity, ceilDiv32, hbw]
  · exact decide_eq_true_iff.trans eq_comm

/-- Settles O18: one branch of FILL_core in each clause. -/
theorem fillCommand : Obligations.FillCommand := by
  rintro s b wc hm ha rfl rfl
  refine ⟨fun hbo => exec_of_ok (by simp) ha (fillCore_of_aligned hbo),
    fun hbo hwc => exec_of_raise (f := .bufferOverflow) (by simp) ha (fillCore_of_exhausted hbo hwc),
    fun hbo hlt hr hwr => ⟨_, exec_of_ok (by simp) ha (fillCore_of_writable hbo hlt hr hwr), rfl, ?_,
      fun c hc => Memory.get_setWord_other _ _ hc⟩⟩
  rw [← ushiftRight_eq_ofNat]
  exact Memory.getWord_setWord_same hm _ _

/-- Settles O17: one branch of NEXT_core in each clause, its block written as a number. -/
theorem nextCommand : Obligations.NextCommand := by
  rintro s w b wc cap cw nw ha rfl rfl rfl rfl rfl rfl - hw
  have overflow (h : nextCore s = .raise .bufferOverflow) : exec .next s = .next (s.faulted 2#4) :=
    exec_of_raise (f := .bufferOverflow) (by simp) ha (commandAct_next_raise h)
  have hb := bo_lt s
  refine ⟨fun h => overflow (nextCore_of_exhausted h), fun hlt hr => ⟨fun hfit => ?fitting,
    fun hst hlast => overflow (nextCore_of_straddling_last ha.1 hlt hr hst hlast), fun hst hlt' hr' => ?straddling⟩⟩
  case fitting =>
    rw [exec_of_ok (by simp) ha (commandAct_next (nextCore_of_fitting ha.1 hlt hr hfit)),
      slice_fitting_eq_ofNat _ _ hw]
    rfl
  case straddling =>
    rw [exec_of_ok (by simp) ha (commandAct_next (nextCore_of_straddling ha.1 hr hst hlt' hr' rfl)),
      slice_straddling_eq_ofNat _ _ _ (by omega)]
    rfl

/-- Settles O16: the checks in their order, then the two ways of writing, with the parts of the block as numbers. -/
theorem extendCommand : Obligations.ExtendCommand := by
  rintro s w b wc cap x cw nw hm ha rfl rfl rfl rfl rfl rfl rfl - hw
  have overflow (h : extendCore s.args.arg0 s = .raise .bufferOverflow) : exec .extend s = .next (s.faulted 2#4) :=
    exec_of_raise (f := .bufferOverflow) (by simp) ha h
  have collision (h : extendCore s.args.arg0 s = .raise .nonZeroCollision) : exec .extend s = .next (s.faulted 3#4) :=
    exec_of_raise (f := .nonZeroCollision) (by simp) ha h
  have hb := bo_lt s
  have hx := and_mask_toNat hw s.args.arg0
  refine ⟨fun h => overflow (extendCore_of_exhausted h), fun hlt hr => ⟨
    fun hbo hne => collision (extendCore_of_stale hlt hr hbo hne), fun hfull hz hlt' hr' hne => ?staleAfterFull,
    fun hfit hz hz' hwr => ?fitting, fun hst hlast => ?last, fun hst hlt' hr' hne => ?staleAfterStraddle,
    fun hst hlt' hr' hz hwr hwr' => ?straddling⟩⟩
  case staleAfterFull =>
    refine collision ?_
    rw [extendCore_of_fitting hlt hr hz hfull.le, extendFitting_of_stale hfull hlt' hr' hne]
  case fitting =>
    have hcore := extendCore_of_fitting hlt hr hz hfit s.args.arg0
    rw [extendFitting_of_fresh hfit hz' hwr] at hcore
    refine ⟨_, exec_of_ok (by simp) ha hcore, rfl, ?_, fun c hc => Memory.get_setWord_other _ _ hc⟩
    rw [← hx, ← shiftLeft_eq_ofNat]
    exact Memory.getWord_setWord_same hm _ _
  case last =>
    refine overflow ?_
    rw [extendCore_of_straddling hlt hr hw hst, extendStraddling_of_last hlast]
  case staleAfterStraddle =>
    refine collision ?_
    rw [extendCore_of_straddling hlt hr hw hst, extendStraddling_of_stale hlt' hr' hne]
  case straddling =>
    have hcore := extendCore_of_straddling hlt hr hw hst s.args.arg0
    rw [extendStraddling_of_writable hlt' hr' hz hwr hwr' rfl] at hcore
    refine ⟨_, exec_of_ok (by simp) ha hcore, rfl, ?_, ?_, fun c hc => ?_⟩
    · rw [← hx, ← ushiftRight_eq_ofNat]
      exact (Memory.getWord_setWord_other _ _ (bufAddr_ne_succ hlt')).trans (Memory.getWord_setWord_same hm _ _)
    · rw [← hx, ← and_mask_toNat (by omega), ← shiftLeft_eq_ofNat]
      exact Memory.getWord_setWord_same (Memory.setWord_wf hm _ _) _ _
    · rw [List.mem_append, not_or] at hc
      exact (Memory.get_setWord_other _ _ hc.2).trans (Memory.get_setWord_other _ _ hc.1)

section FillTwice

variable {s t : State} {p : Word}

/-! ### A FILL after a FILL (R136) -/

theorem bufferWord_setWord (hm : s.mem.wf = true) (n : Nat) (v : Word) :
    (s.setMem (s.mem.setWord (s.bufAddr n) v)).bufferWord n = v :=
  Memory.getWord_setWord_same hm _ _

/-- A FILL that has padded can pad again, since the platform still answers. -/
theorem fillCore_after_padding (h : fillCore p s = .ok t) (hbo : s.buf.bo.toNat ≠ 0) (q : Word) :
    fillCore q t = .ok (t.setMem (t.mem.setWord (t.bufAddr s.buf.wc.toNat)
      (t.bufferWord s.buf.wc.toNat ||| (q >>> s.buf.bo.toNat)))) := by
  obtain ⟨hr, hwr⟩ := fillCore_admitted h hbo
  rcases fillCore_ok h with ⟨h0, -⟩ | ⟨-, hlt, rfl⟩
  · exact absurd h0 hbo
  · exact fillCore_of_writable hbo hlt hr hwr

/-- The padded word already has the bits of the pattern. -/
theorem bufferWord_or_of_padding (hm : s.mem.wf = true) (h : fillCore p s = .ok t) (hbo : s.buf.bo.toNat ≠ 0) :
    t.bufferWord s.buf.wc.toNat ||| (p >>> s.buf.bo.toNat) = t.bufferWord s.buf.wc.toNat := by
  rcases fillCore_ok h with ⟨h0, -⟩ | ⟨-, -, rfl⟩
  · exact absurd h0 hbo
  · rw [bufferWord_setWord hm, BitVec.or_assoc, BitVec.or_self]

theorem fillCore_idempotent (hm : s.mem.wf = true) (h : fillCore p s = .ok t) : fillCore p t = .ok t := by
  by_cases hbo : s.buf.bo.toNat = 0
  · obtain rfl : s = t := Act.ok.inj ((fillCore_of_aligned hbo).symm.trans h)
    exact h
  · rw [fillCore_after_padding h hbo, bufferWord_or_of_padding hm h hbo]
    exact congrArg (Act.ok ∘ t.setMem) (Memory.setWord_getWord_same (fillCore_wf hm h) _)

/-- FILL_core changes no bit but those at the positions from BO on of word WC. -/
theorem fillCore_local (hm : s.mem.wf = true) (h : fillCore p s = .ok t) {a : Word} {n : Nat}
    (hne : (t.wordAt a).getMsbD n ≠ (s.wordAt a).getMsbD n) :
    a = s.bufAddr s.buf.wc.toNat ∧ s.buf.bo.toNat ≤ n := by
  rcases fillCore_ok h with ⟨-, rfl⟩ | ⟨-, -, rfl⟩
  · exact absurd rfl hne
  · have hword := Memory.getWord_setWord hm (s.bufAddr s.buf.wc.toNat) a
      (s.bufferWord s.buf.wc.toNat ||| (p >>> s.buf.bo.toNat))
    by_cases ha : a = s.bufAddr s.buf.wc.toNat
    · refine ⟨ha, not_lt.1 fun hlt => hne ?_⟩
      rw [if_pos ha] at hword
      rw [State.wordAt, State.setMem_mem, hword, BitVec.getMsbD_or, BitVec.getMsbD_ushiftRight, ha]
      simp [hlt]
    · rw [if_neg ha] at hword
      exact absurd (congrArg (·.getMsbD n) hword) hne

end FillTwice

/-- Settles O19: what FILL_core leaves, what it does to its own outcome, and which positions it changes. -/
theorem fillIsLocalAndIdempotent : Obligations.FillIsLocalAndIdempotent := by
  intro s t hm ha hx hf
  have h : fillCore s.args.arg0 s = .ok t := commandAct_of_exec (by simp) ha hx hf
  have hset := fillCore_eq_setMem h
  have hta : t.accepting := by rw [hset]; exact ha
  have harg : t.args.arg0 = s.args.arg0 := by rw [hset]; rfl
  have hbuf : t.buf = s.buf := by rw [hset]; rfl
  refine ⟨hbuf, by rw [hset]; rfl, exec_of_ok (by simp) hta ?again, fun a n _ => fillCore_local hm h, fun q => ?other⟩
  case again =>
    rw [commandAct, harg]
    exact fillCore_idempotent hm h
  case other =>
    have hact {u : State} (hu : fillCore q t = .ok u) :
        exec .fill (t.withArg0 q) = .next (u.setArgs (t.withArg0 q).args) :=
      exec_of_ok (by simp) hta ((fillCore_setArgs q t _).trans (congrArg _ hu))
    by_cases hbo : s.buf.bo.toNat = 0
    · exact ⟨_, hact (fillCore_of_aligned (hbuf ▸ hbo)), fun hne => absurd (BitVec.eq_of_toNat_eq hbo) hne⟩
    · exact ⟨_, hact (fillCore_after_padding h hbo q), fun _ => bufferWord_setWord (fillCore_wf hm h) _ _⟩

section CursorAdvance

variable {s t u : State} {i : Instr} {x : Word} {l : List (Instr × Word)} {n : Nat}

/-! ### R126 over a list of commands -/

/-- `t` has the buffer of `s`, cursor and contents apart, on the same platform. -/
structure SameBuffer (s t : State) : Prop where
  base : t.buf.base = s.buf.base
  cap : t.buf.cap = s.buf.cap
  bw : t.buf.bw = s.buf.bw
  platform : t.platform = s.platform

theorem SameBuffer.refl (s : State) : SameBuffer s s := ⟨rfl, rfl, rfl, rfl⟩

theorem SameBuffer.symm (h : SameBuffer s t) : SameBuffer t s := ⟨h.base.symm, h.cap.symm, h.bw.symm, h.platform.symm⟩

theorem SameBuffer.trans (h : SameBuffer s t) (h' : SameBuffer t u) : SameBuffer s u :=
  ⟨h'.base.trans h.base, h'.cap.trans h.cap, h'.bw.trans h.bw, h'.platform.trans h.platform⟩

theorem CursorOnly.sameBuffer (h : CursorOnly s t) (hp : t.platform = s.platform) : SameBuffer s t :=
  ⟨by rw [h.buf], by rw [h.buf], by rw [h.buf], hp⟩

/-- `t` is `s` after `n` blocks: the cursor has moved by as many times BW, in its range. -/
structure AdvancedBy (n : Nat) (s t : State) : Prop where
  position : t.position = s.position + n * s.buf.bw.toNat
  inRange : t.cursorInRange
  buffer : SameBuffer s t
  status : t.status = s.status

theorem AdvancedBy.accepting (h : AdvancedBy n s t) (ha : s.accepting) : t.accepting := by
  unfold State.accepting
  rwa [h.status]

theorem AdvancedBy.refl (hc : s.cursorInRange) : AdvancedBy 0 s s :=
  ⟨by rw [Nat.zero_mul, Nat.add_zero], hc, .refl s, rfl⟩

theorem AdvancedBy.trans {m : Nat} (h : AdvancedBy m s t) (h' : AdvancedBy n t u) : AdvancedBy (n + m) s u where
  position := by rw [h'.position, h.position, h.buffer.bw, Nat.add_mul, Nat.add_right_comm, Nat.add_assoc]
  inRange := h'.inRange
  buffer := h.buffer.trans h'.buffer
  status := h'.status.trans h.status

theorem AdvancedBy.of_withArg0 (h : AdvancedBy n (s.withArg0 x) t) : AdvancedBy n s t :=
  ⟨h.position, h.inRange, ⟨h.buffer.base, h.buffer.cap, h.buffer.bw, h.buffer.platform⟩, h.status⟩

theorem AdvancedBy.setResult (h : AdvancedBy n s t) (v : Word) : AdvancedBy n s (t.setResult v) :=
  ⟨h.position, h.inRange, ⟨h.buffer.base, h.buffer.cap, h.buffer.bw, h.buffer.platform⟩, h.status⟩

theorem extendCore_advancedBy (hc : s.cursorInRange) (h : extendCore x s = .ok t) : AdvancedBy 1 s t := by
  obtain ⟨hr, hpos, -⟩ := extendCore_cursor hc h
  have hplatform : t.platform = s.platform := by rw [(extendCore_frame h).1]; rfl
  have hkept := extendCore_cursorOnly h
  exact ⟨by rw [hpos, Nat.one_mul], hr, hkept.sameBuffer hplatform, hkept.status⟩

theorem nextCore_advancedBy {v : Word} (hc : s.cursorInRange) (h : nextCore s = .ok (v, t)) : AdvancedBy 1 s t := by
  obtain ⟨hr, hpos, -⟩ := nextCore_cursor hc h
  have hplatform : t.platform = s.platform := by rw [nextCore_frame h]; rfl
  have hkept := nextCore_cursorOnly h
  exact ⟨by rw [hpos, Nat.one_mul], hr, hkept.sameBuffer hplatform, hkept.status⟩

/-- R126 for an accepted EXTEND or NEXT. -/
theorem advancedBy_of_commandAct (hi : i = .extend ∨ i = .next) (hc : s.cursorInRange) (h : commandAct i s = .ok t) :
    AdvancedBy 1 s t := by
  rcases hi with rfl | rfl
  · exact extendCore_advancedBy hc h
  · obtain ⟨⟨v, u⟩, hu, h⟩ := Act.bind_eq_ok.1 h
    cases h
    exact (nextCore_advancedBy hc hu).setResult v

/-- The cursor is a position's quotient and remainder. -/
theorem cursor_of_position (s : State) : s.buf.wc.toNat = s.position / 32 ∧ s.buf.bo.toNat = s.position % 32 := by
  have hb := bo_lt s
  unfold State.position
  omega

/-- A list of commands succeeds where its first acts and the others succeed after it. -/
theorem commandAll_cons_eq_some (hi : i ≠ .reset) (ha : s.accepting) (h : commandAll ((i, x) :: l) s = some t) :
    ∃ u, commandAct i (s.withArg0 x) = .ok u ∧ commandAll l u = some t := by
  unfold commandAll at h
  split at h
  · rename_i u hu
    split at h
    · cases h
    · rename_i hf
      exact ⟨u, commandAct_of_exec hi ha hu (by simpa using hf), h⟩
  · cases h
  · cases h

/-- R126 for any mix of EXTENDs and NEXTs, with any ARG0. -/
theorem advancedBy_of_commandAll (hl : ∀ c ∈ l, c.1 = .extend ∨ c.1 = .next) (ha : s.accepting) (hc : s.cursorInRange)
    (h : commandAll l s = some t) : AdvancedBy l.length s t := by
  induction l generalizing s with
  | nil =>
    cases h
    exact .refl hc
  | cons c l ih =>
    obtain ⟨i, x⟩ := c
    obtain ⟨hi, hl⟩ := List.forall_mem_cons.1 hl
    obtain ⟨u, hu, h⟩ := commandAll_cons_eq_some (by rcases hi with rfl | rfl <;> simp) ha h
    have hadv := (advancedBy_of_commandAct (s := s.withArg0 x) hi hc hu).of_withArg0
    exact hadv.trans (ih hl (hadv.accepting ha) hadv.inRange h)

/-! ### The buffer after an INIT -/

/-- `s` has just been given the buffer of this INIT: the fresh descriptor, and nothing that keeps a command out. -/
structure Initialized (totalBits base len : Word) (bw : Nat) (s : State) : Prop where
  buf : s.buf = freshDescriptor base totalBits.toNat len bw
  accepting : s.accepting
  inRange : s.cursorInRange
  bw : s.buf.bw.toNat = bw
  position : s.position = 0

theorem initWith_eq {totalBits base len : Word} {bw : Nat} (ha : s.accepting) (h : 1 ≤ bw ∧ bw ≤ 32) :
    initWith totalBits base len bw s =
      .next ((s.setArgs { s.args with arg0 := totalBits, arg1 := base, arg2 := len }).setBuf
        (freshDescriptor base totalBits.toNat len bw)) :=
  exec_init_inRange (s := s.setArgs _) ha h

theorem initialized_of_initWith {totalBits base len : Word} {bw : Nat} (ha : s.accepting) (h : 1 ≤ bw ∧ bw ≤ 32)
    (ht : initWith totalBits base len bw s = .next t) :
    Initialized totalBits base len bw t ∧ t.mem = s.mem ∧ t.platform = s.platform := by
  rw [initWith_eq ha h] at ht
  cases ht
  exact ⟨⟨rfl, ha, cursorInRange_of_fresh rfl h.1 h.2, toNat_ofNat_field h.2, rfl⟩, rfl, rfl⟩

end CursorAdvance

/-- Settles O20: the position moves by BW with each command, and the cursor is its quotient and remainder. -/
theorem cursorAdvance : Obligations.CursorAdvance := by
  refine ⟨fun s t i hc ha hi hx hf => ?one, fun s t0 t totalBits base len bw l ha h1 h2 hl h0 h => ?many⟩
  case one =>
    have hadv := advancedBy_of_commandAct hi hc
      (commandAct_of_exec (by rcases hi with rfl | rfl <;> simp) ha hx hf)
    obtain ⟨hwc, hbo⟩ := cursor_of_position t
    have hb := bo_lt s
    rw [hwc, hbo, hadv.position, Nat.one_mul, State.position]
    omega
  case many =>
    obtain ⟨hinit, -, -⟩ := initialized_of_initWith ha ⟨h1, h2⟩ h0
    have hadv := advancedBy_of_commandAll hl hinit.accepting hinit.inRange h
    have hpos : t.position = l.length * bw := by rw [hadv.position, hinit.position, hinit.bw, Nat.zero_add]
    exact hpos ▸ cursor_of_position t

section Mirror

variable {s t u : State} {x v : Word} {xs : List Word} {p n i : Nat}

/-! ### Blocks in the stream (R54, R133) -/

/-- The block at bit `p` of the stream: it lies below CAP, its bits are those of `x`, most significant first, and the
platform answers the reads that a NEXT makes of it. -/
structure State.HoldsBlock (s : State) (p : Nat) (x : Word) : Prop where
  fits : p + s.buf.bw.toNat ≤ 32 * s.buf.cap.toNat
  bits : ∀ j, j < s.buf.bw.toNat → s.streamBit (p + j) = x.getLsbD (s.buf.bw.toNat - 1 - j)
  read : s.canRead (p / 32)
  readNext : 32 < p % 32 + s.buf.bw.toNat → s.canRead (p / 32 + 1)

/-- From bit `p` on the stream holds these blocks one after another. -/
def State.HoldsBlocks (s : State) : Nat → List Word → Prop
  | _, [] => True
  | p, x :: xs => s.HoldsBlock p x ∧ s.HoldsBlocks (p + s.buf.bw.toNat) xs

/-- Block `i` stands at bits `[p + i * BW, p + (i + 1) * BW)`. -/
theorem State.HoldsBlocks.getElem (h : s.HoldsBlocks p xs) (hi : i < xs.length) :
    s.HoldsBlock (p + i * s.buf.bw.toNat) xs[i] := by
  induction xs generalizing p i with
  | nil => exact absurd hi (Nat.not_lt_zero i)
  | cons x xs ih =>
    obtain ⟨hx, hxs⟩ := h
    cases i with
    | zero => simpa using hx
    | succ i =>
      have hpos : p + (i + 1) * s.buf.bw.toNat = p + s.buf.bw.toNat + i * s.buf.bw.toNat := by ring
      rw [hpos]
      exact ih hxs (Nat.lt_of_succ_lt_succ hi)

theorem SameBuffer.canRead (h : SameBuffer s t) (hr : s.canRead n) : t.canRead n := by
  rwa [State.canRead, h.platform, bufAddr_congr h.base]

theorem State.HoldsBlock.congr (hs : SameBuffer s t)
    (hbits : ∀ j, j < p + s.buf.bw.toNat → t.streamBit j = s.streamBit j) (h : s.HoldsBlock p x) :
    t.HoldsBlock p x where
  fits := by rw [hs.bw, hs.cap]; exact h.fits
  bits j hj := by
    rw [hs.bw] at hj ⊢
    rw [hbits _ (by omega), h.bits j hj]
  read := hs.canRead h.read
  readNext hst := hs.canRead (h.readNext (by rwa [hs.bw] at hst))

/-- Blocks stay where the buffer and its bits up to their end do. -/
theorem State.HoldsBlocks.congr (hs : SameBuffer s t)
    (hbits : ∀ j, j < p + xs.length * s.buf.bw.toNat → t.streamBit j = s.streamBit j) (h : s.HoldsBlocks p xs) :
    t.HoldsBlocks p xs := by
  induction xs generalizing p with
  | nil => trivial
  | cons x xs ih =>
    obtain ⟨hx, hxs⟩ := h
    have hlen : p + (x :: xs).length * s.buf.bw.toNat = p + s.buf.bw.toNat + xs.length * s.buf.bw.toNat := by
      rw [List.length_cons]; ring
    rw [hlen] at hbits
    refine ⟨hx.congr hs fun j hj => hbits j (by omega), ?_⟩
    rw [hs.bw]
    exact ih hbits hxs

theorem streamBit_of_mem (hb : t.buf.base = s.buf.base) (hm : t.mem = s.mem) (j : Nat) :
    t.streamBit j = s.streamBit j :=
  streamBit_congr (by rw [State.bufferWord, State.wordAt, hm, bufAddr_congr hb]; rfl)

/-! ### EXTENDs put their blocks into the stream -/

/-- The bits of the buffer from the cursor on are zero (R21). -/
def State.zeroFromCursor (s : State) : Prop :=
  ∀ j, s.position ≤ j → j < 32 * s.buf.cap.toNat → s.streamBit j = false

theorem zeroFromCursor_of_zero (h : ∀ n, n < s.buf.cap.toNat → s.bufferWord n = 0#32) : s.zeroFromCursor := by
  intro j _ hj
  rw [State.streamBit, h _ (by omega), BitVec.getLsbD_zero]

theorem position_le (hc : s.cursorInRange) : s.position ≤ 32 * s.buf.cap.toNat := by
  obtain ⟨hwc, -, -, hbo⟩ := hc
  have hb := bo_lt s
  unfold State.position
  rcases Nat.lt_or_eq_of_le hwc with hlt | heq
  · omega
  · rw [hbo (BitVec.eq_of_toNat_eq heq), heq]
    exact Nat.le_refl _

/-- EXTEND_core puts its block at the cursor, and leaves the bits before it and those from the new cursor on (R124). -/
theorem extendCore_holdsBlock (hm : s.mem.wf = true) (hc : s.cursorInRange) (hz : s.zeroFromCursor)
    (h : extendCore x s = .ok t) :
    t.HoldsBlock s.position x ∧ t.zeroFromCursor ∧ ∀ j, j < s.position → t.streamBit j = s.streamBit j := by
  have hadv := extendCore_advancedBy hc h
  have hpos : t.position = s.position + s.buf.bw.toNat := by rw [hadv.position, Nat.one_mul]
  have hfits := position_le hadv.inRange
  rw [hpos, hadv.buffer.cap] at hfits
  have hstream {j : Nat} := extendCore_stream hm hc h hz (j := j)
  obtain ⟨hwc, hbo⟩ := cursor_of_position s
  obtain ⟨hread, hreadNext⟩ := extendCore_reads h
  rw [hwc] at hread hreadNext
  rw [hbo] at hreadNext
  refine ⟨⟨?fits, fun j hj => ?bits, hadv.buffer.canRead hread, fun hst => ?readNext⟩, fun j hj hlt => ?beyond,
    fun j hj => ?before⟩
  case fits => rwa [hadv.buffer.bw, hadv.buffer.cap]
  case bits =>
    rw [hadv.buffer.bw] at hj ⊢
    rw [hstream (by omega), if_neg (by omega), if_pos (by omega), Nat.add_sub_cancel_left]
  case readNext =>
    rw [hadv.buffer.bw] at hst
    exact hadv.buffer.canRead (hreadNext hst)
  case beyond =>
    rw [hadv.buffer.cap] at hlt
    rw [hstream hlt, if_neg (by omega), if_neg (by omega)]
  case before => rw [hstream (by omega), if_pos hj]

/-- After EXTENDs the stream holds their blocks from the old cursor on, and before it what it held (R133). -/
theorem holdsBlocks_of_extendAll (hm : s.mem.wf = true) (ha : s.accepting) (hc : s.cursorInRange)
    (hz : s.zeroFromCursor) (h : extendAll xs s = some t) :
    t.mem.wf = true ∧ t.HoldsBlocks s.position xs ∧ AdvancedBy xs.length s t ∧
      ∀ j, j < s.position → t.streamBit j = s.streamBit j := by
  induction xs generalizing s with
  | nil =>
    cases h
    exact ⟨hm, trivial, .refl hc, fun _ _ => rfl⟩
  | cons x xs ih =>
    obtain ⟨u, hu, h⟩ := commandAll_cons_eq_some (by simp) ha h
    have hu : extendCore x (s.withArg0 x) = .ok u := hu
    have hadv := (extendCore_advancedBy (s := s.withArg0 x) hc hu).of_withArg0
    obtain ⟨hblock, hz', hsame⟩ := extendCore_holdsBlock (s := s.withArg0 x) hm hc hz hu
    have hmu : u.mem.wf = true := extendCore_wf (s := s.withArg0 x) hm hu
    obtain ⟨hwf, hblocks, hadv', hsame'⟩ := ih hmu (hadv.accepting ha) hadv.inRange hz' h
    rw [hadv.position, Nat.one_mul] at hblocks hsame'
    refine ⟨hwf, ⟨hblock.congr hadv'.buffer fun j hj => hsame' j ?_, ?_⟩, hadv.trans hadv', fun j hj => ?_⟩
    · rwa [hadv.buffer.bw] at hj
    · rwa [hadv'.buffer.bw, hadv.buffer.bw]
    · rw [hsame' j (by omega)]
      exact hsame j hj

/-! ### NEXTs read the blocks off -/

theorem nextCore_streamBit (h : nextCore s = .ok (v, t)) (j : Nat) : t.streamBit j = s.streamBit j := by
  rw [nextCore_frame h]
  rfl

/-- NEXT_core of a block that the stream holds at the cursor gives its low BW bits (R130). -/
theorem nextCore_of_holdsBlock (ha : s.accepting) (hc : s.cursorInRange) (h : s.HoldsBlock s.position x) :
    ∃ t, nextCore s = .ok (BitVec.ofNat 32 (x.toNat % 2 ^ s.buf.bw.toNat), t) := by
  obtain ⟨hwc, hbo⟩ := cursor_of_position s
  obtain ⟨v, t, ht, -⟩ := nextCore_goes_on hc (.inl ha.1) h.fits (hwc ▸ h.read) fun hst =>
    hwc ▸ h.readNext (hbo ▸ hst)
  have hv : v = BitVec.ofNat 32 (x.toNat % 2 ^ s.buf.bw.toNat) := by
    refine BitVec.eq_of_getLsbD_eq fun n hn => ?_
    rw [nextCore_stream hc (.inl ha.1) ht, BitVec.getLsbD_ofNat, Nat.testBit_mod_two_pow, BitVec.testBit_toNat,
      decide_eq_true hn, Bool.true_and]
    by_cases hlt : n < s.buf.bw.toNat
    · have hbit := h.bits (s.buf.bw.toNat - 1 - n) (by omega)
      have hat : s.position + (s.buf.bw.toNat - 1 - n) = s.position + s.buf.bw.toNat - 1 - n := by omega
      have hback : s.buf.bw.toNat - 1 - (s.buf.bw.toNat - 1 - n) = n := by omega
      rw [← hat, hbit, hback]
    · simp only [hlt, decide_false, Bool.false_and]
  exact ⟨t, hv ▸ ht⟩

theorem nextAll_succ (ha : s.accepting) (h : nextCore s = .ok (v, t)) (hst : t.status = s.status) (n : Nat) :
    nextAll (n + 1) s = (nextAll n (t.setResult v)).map (Prod.map (v :: ·) id) := by
  have hf : (t.setResult v).status.fault = false := by rw [State.setResult_status, hst, ha.2]
  simp only [nextAll, exec_of_ok (by simp) ha (commandAct_next h), hf, State.setResult_result]
  rfl

/-- NEXTs return the blocks that the stream holds from the cursor on, one after another (R133). -/
theorem nextAll_of_holdsBlocks (ha : s.accepting) (hc : s.cursorInRange) (h : s.HoldsBlocks s.position xs) :
    ∃ u, nextAll xs.length s = some (xs.map fun x => BitVec.ofNat 32 (x.toNat % 2 ^ s.buf.bw.toNat), u) := by
  induction xs generalizing s with
  | nil => exact ⟨s, rfl⟩
  | cons x xs ih =>
    obtain ⟨hblock, hblocks⟩ := h
    obtain ⟨t, ht⟩ := nextCore_of_holdsBlock ha hc hblock
    have hadv := (nextCore_advancedBy hc ht).setResult (BitVec.ofNat 32 (x.toNat % 2 ^ s.buf.bw.toNat))
    have hrest := hblocks.congr hadv.buffer fun j _ => nextCore_streamBit ht j
    obtain ⟨u, hu⟩ := ih (hadv.accepting ha) hadv.inRange (by rwa [hadv.position, Nat.one_mul])
    rw [hadv.buffer.bw] at hu
    exact ⟨u, by rw [List.length_cons, nextAll_succ ha ht hadv.status, hu]; rfl⟩

/-! ### A FILL in between -/

/-- A FILL keeps the buffer, its bits before the cursor, and the engine ready for the next command (R136). -/
theorem fill_keeps (hm : s.mem.wf = true) (ha : s.accepting) (hc : s.cursorInRange)
    (hx : exec .fill (s.withArg0 x) = .next t) (hf : t.status.fault = false) :
    SameBuffer s t ∧ t.accepting ∧ ∀ j, j < s.position → t.streamBit j = s.streamBit j := by
  have h : fillCore x (s.withArg0 x) = .ok t := commandAct_of_exec (s := s.withArg0 x) (i := .fill) (by simp) ha hx hf
  have hset := fillCore_eq_setMem h
  have hle := position_le hc
  have hcap := cap_lt s
  refine ⟨by rw [hset]; exact ⟨rfl, rfl, rfl, rfl⟩, by rw [hset]; exact ha, fun j hj => ?_⟩
  exact fillCore_stream (s := s.withArg0 x) hm h hj (by omega)

end Mirror

/-- Settles O22: the EXTENDs put the blocks into the stream, FILL and INIT keep them there, and the NEXTs read them. -/
theorem mirrorLaw : Obligations.MirrorLaw := by
  intro s t0 t t' t1 totalBits base len p bw xs hm ha hbw1 hbw2 h0 hzero hext hfill h1
  have hbw : 1 ≤ bw ∧ bw ≤ 32 := ⟨hbw1, hbw2⟩
  obtain ⟨hinit, hmem, -⟩ := initialized_of_initWith ha hbw h0
  obtain ⟨hwf, hblocks, hadv, -⟩ := holdsBlocks_of_extendAll (hmem ▸ hm) hinit.accepting hinit.inRange
    (zeroFromCursor_of_zero hzero) hext
  have hta := hadv.accepting hinit.accepting
  have hkept : SameBuffer t t' ∧ t'.accepting ∧ ∀ j, j < t.position → t'.streamBit j = t.streamBit j := by
    rcases hfill with rfl | ⟨hx, hf⟩
    · exact ⟨.refl _, hta, fun _ _ => rfl⟩
    · exact fill_keeps hwf hta hadv.inRange hx hf
  obtain ⟨hsame', ha', hbits'⟩ := hkept
  obtain ⟨hinit1, hmem1, hplatform1⟩ := initialized_of_initWith ha' hbw h1
  have hsame : SameBuffer t t1 := by
    have hbuf : t1.buf = t0.buf := hinit1.buf.trans hinit.buf.symm
    have hback := hadv.buffer.symm
    exact ⟨hbuf ▸ hback.base, hbuf ▸ hback.cap, hbuf ▸ hback.bw, hplatform1.trans hsame'.platform⟩
  have hbits (j : Nat) (hj : j < t.position) : t1.streamBit j = t.streamBit j :=
    (streamBit_of_mem (hsame.base.trans hsame'.base.symm) hmem1 j).trans (hbits' j hj)
  refine ⟨?read, fun i hi j hj => ?stream⟩
  case read =>
    have hblocks1 : t1.HoldsBlocks t1.position xs := by
      rw [hinit1.position, ← hinit.position]
      refine hblocks.congr hsame fun j hj => hbits j ?_
      rwa [hadv.position, ← hadv.buffer.bw]
    exact hinit1.bw ▸ nextAll_of_holdsBlocks hinit1.accepting hinit1.inRange hblocks1
  case stream =>
    have hbit := (hblocks.getElem hi).bits j
    rw [hinit.position, hadv.buffer.bw, hinit.bw, Nat.zero_add] at hbit
    exact hbit hj

end Sys2Proof.Machine

/-! ## Proofs: the matrix passes (spec/42_matrix_pass.md)

First an element of either width behind its port, so that the widths share their proofs; then the first part and the
micro-steps, each beside the command of spec/41_buffer_cursor.md that runs the same core. For R163 an extract's run
keeps the blocks it has written in the stream, and an insert's run the elements it has merged. -/

namespace Sys2Proof.Machine

section Elements

variable {s : State} {k i : Nat} {kind : Config.AccessKind}

/-! ### An element of either width (R53) -/

/-- The port on which the elements of this width stand (R50, R53). -/
def ElemWidth.port : ElemWidth → Config.Port
  | .w32 => .word
  | .w8 => .byte

/-- The platform answers this kind of request for element `k` of the running pass (R56). -/
def State.admitsElement (s : State) (k : Nat) (kind : Config.AccessKind) : Prop :=
  admits s.platform s.pass.ew.port (s.elemAddr k) kind = true

/-- Element `k` of the running pass, zero-extended. -/
abbrev State.element (s : State) (k : Nat) : Word := s.matrixElement s.pass.ew s.pass.mbase k

/-- Memory with the low bits of `v` in element `k` of the running pass. -/
def State.memWithElement (s : State) (k : Nat) (v : Word) : Memory :=
  match s.pass.ew with
  | .w32 => s.mem.setWord (s.elemAddr k) v
  | .w8 => s.mem.set (byteCell s.platform (s.elemAddr k)) (v.setWidth 8)

/-- Element `k` is not a byte that aliases the buffer, which would read as any value (R210). -/
def State.elementUnaliased (s : State) (k : Nat) : Prop :=
  s.pass.ew = .w8 → s.byteAliasesBuffer (s.elemAddr k) = false

theorem admitsElement_w32 (hew : s.pass.ew = .w32) :
    s.admitsElement k kind ↔ admits s.platform .word (s.elemAddr k) kind = true := by
  rw [State.admitsElement, hew, ElemWidth.port]

theorem admitsElement_w8 (hew : s.pass.ew = .w8) :
    s.admitsElement k kind ↔ admits s.platform .byte (s.elemAddr k) kind = true := by
  rw [State.admitsElement, hew, ElemWidth.port]

theorem readElement_of_admitted (h : s.admitsElement k .read) (hal : s.elementUnaliased k) :
    readElement s (s.elemAddr k) = .ok (s.element k, s) := by
  unfold readElement State.element State.matrixElement
  cases hew : s.pass.ew with
  | w32 =>
    simp only [memRead32_eq_ok.2 ⟨(admitsElement_w32 hew).1 h, rfl⟩, Act.bind_ok]
    rfl
  | w8 =>
    simp only [memRead8_eq_ok.2 ⟨(admitsElement_w8 hew).1 h, rfl⟩, Act.bind_ok, hal hew, Bool.false_eq_true,
      if_false]
    rfl

theorem readElement_of_unadmitted (h : ¬ s.admitsElement k .read) :
    readElement s (s.elemAddr k) = .stuck s.pass.ew.port (s.elemAddr k) .read := by
  unfold readElement
  cases hew : s.pass.ew with
  | w32 =>
    rw [admitsElement_w32 hew, Bool.not_eq_true] at h
    simp only [memRead32_of_unadmitted h, Act.bind_stuck, ElemWidth.port]
  | w8 =>
    rw [admitsElement_w8 hew, Bool.not_eq_true] at h
    simp only [memRead8_of_unadmitted h, Act.bind_stuck, ElemWidth.port]

theorem writeElement_of_admitted (h : s.admitsElement k .write) (v : Word) :
    writeElement s (s.elemAddr k) v = .ok (s.setMem (s.memWithElement k v)) := by
  unfold writeElement State.memWithElement
  cases hew : s.pass.ew with
  | w32 => exact memWrite32_eq_ok.2 ⟨(admitsElement_w32 hew).1 h, rfl⟩
  | w8 => exact memWrite8_eq_ok.2 ⟨(admitsElement_w8 hew).1 h, rfl⟩

theorem writeElement_of_unadmitted (h : ¬ s.admitsElement k .write) (v : Word) :
    writeElement s (s.elemAddr k) v = .stuck s.pass.ew.port (s.elemAddr k) .write := by
  unfold writeElement
  cases hew : s.pass.ew with
  | w32 => exact memWrite32_of_unadmitted v (by rwa [admitsElement_w32 hew, Bool.not_eq_true] at h)
  | w8 => exact memWrite8_of_unadmitted _ (by rwa [admitsElement_w8 hew, Bool.not_eq_true] at h)

/-- A write of an element gives it the low bits written, as many as it has. -/
theorem getLsbD_element_memWithElement (hm : s.mem.wf = true) (k : Nat) (v : Word) (hi : i < s.pass.ew.bits) :
    ((s.setMem (s.memWithElement k v)).element k).getLsbD i = v.getLsbD i := by
  unfold State.memWithElement
  simp only [State.element, State.matrixElement, State.setMem_pass]
  cases hew : s.pass.ew with
  | w32 => exact congrArg (BitVec.getLsbD · i) (Memory.getWord_setWord_same hm (s.elemAddr k) v)
  | w8 =>
    rw [hew] at hi
    have hget : (s.setMem (s.mem.set (byteCell s.platform (s.elemAddr k)) (v.setWidth 8))).byteAt (s.elemAddr k) =
        v.setWidth 8 := Memory.get_set_same hm _ _
    have hi8 : i < 8 := hi
    have hi32 : i < 32 := by omega
    simp only [State.elemAddr] at hget ⊢
    simp only [hget, BitVec.getLsbD_setWidth, hi8, hi32, decide_true, Bool.true_and]

theorem memWithElement_wf (hm : s.mem.wf = true) (k : Nat) (v : Word) : (s.memWithElement k v).wf = true := by
  unfold State.memWithElement
  cases s.pass.ew with
  | w32 => exact Memory.setWord_wf hm _ _
  | w8 => exact Memory.set_wf hm (byteCell_lt _ _) _

theorem memWithElement_sameMemoryExcept (s : State) (k : Nat) (v : Word) :
    sameMemoryExcept (s.elementCells k) s (s.setMem (s.memWithElement k v)) := by
  intro c hc
  unfold State.memWithElement
  simp only [State.elementCells, State.matrixCells] at hc
  cases hew : s.pass.ew with
  | w32 =>
    rw [hew] at hc
    exact Memory.get_setWord_other _ _ hc
  | w8 =>
    rw [hew] at hc
    exact Memory.get_set_other _ _ (by simpa [State.elemAddr] using hc)

/-- The slice of an element, which has no bits beyond its width, as a number (R102, R103). -/
theorem sliceElem_element_eq_ofNat (s : State) (k : Nat) {a b : Nat} (hb : b ≤ s.pass.ew.bits) :
    sliceElem s.pass.ew (s.element k) a b =
      BitVec.ofNat 32 ((s.element k).toNat / 2 ^ (s.pass.ew.bits - b) % 2 ^ (b - a)) := by
  have hlt : (s.element k).toNat < 2 ^ s.pass.ew.bits := by
    unfold State.element State.matrixElement
    cases s.pass.ew with
    | w32 => exact (s.wordAt _).isLt
    | w8 =>
      have hbyte := (s.byteAt (s.pass.mbase + BitVec.ofNat 32 k)).isLt
      simp only [BitVec.toNat_setWidth, ElemWidth.bits]
      omega
  rw [sliceElem_eq_ofNat _ _ hb, Nat.mod_eq_of_lt hlt]

end Elements

section PassSteps

variable {s t c : State} {i : Instr} {a b n : Nat}

/-! ### The first part (R151) -/

theorem passInstr_ne_reset (op : PassOp) (ew : ElemWidth) (a b : Nat) : passInstr op ew a b ≠ .reset := by
  cases op <;> cases ew <;> simp [passInstr]

theorem commandAct_passInstr (op : PassOp) (ew : ElemWidth) (a b : Nat) (s : State) :
    commandAct (passInstr op ew a b) s =
      if rangeOk ew a b then .ok (s.startPass op ew a b) else .raise .invalidRange := by
  cases op <;> cases ew <;> rfl

theorem exec_pass_inRange (op : PassOp) {ew : ElemWidth} (ha : s.accepting) (hr : a < b ∧ b ≤ ew.bits) :
    exec (passInstr op ew a b) s = .next (s.startPass op ew a b) :=
  exec_of_ok (passInstr_ne_reset op ew a b) ha
    ((commandAct_passInstr op ew a b s).trans (if_pos (rangeOk_iff.2 hr)))

theorem exec_pass_outOfRange (op : PassOp) {ew : ElemWidth} (ha : s.accepting) (hr : ¬(a < b ∧ b ≤ ew.bits)) :
    exec (passInstr op ew a b) s = .next (s.faulted 1#4) :=
  exec_of_raise (f := .invalidRange) (passInstr_ne_reset op ew a b) ha
    ((commandAct_passInstr op ew a b s).trans (if_neg (mt rangeOk_iff.1 hr)))

/-- A legal range fits the registers that latch it. -/
theorem startPass_range (s : State) (op : PassOp) {ew : ElemWidth} (hb : b ≤ ew.bits) (hab : a < b) :
    (s.startPass op ew a b).pass.start.toNat = a ∧ (s.startPass op ew a b).pass.stop.toNat = b ∧
      (s.startPass op ew a b).buf.bw.toNat = b - a := by
  have hew := ew.bits_le
  exact ⟨toNat_ofNat_field (by omega), toNat_ofNat_field (by omega), toNat_ofNat_field (by omega)⟩

/-! ### The four micro-steps (R150) -/

theorem engineAct_extractElement (hb : s.status.busy = true) (hop : s.pass.op = .extract)
    (hk : s.pass.k < s.pass.count) : engineAct s = settlePass s s.pass.k (extractElement s) := by
  simp only [engineAct_of_busy hb, microStep, if_pos hk, hop]

theorem engineAct_insertElement (hb : s.status.busy = true) (hop : s.pass.op = .insert)
    (hk : s.pass.k < s.pass.count) : engineAct s = settlePass s s.pass.k (insertElement s) := by
  simp only [engineAct_of_busy hb, microStep, if_pos hk, hop]

theorem engineAct_extractCompletion (hb : s.status.busy = true) (hop : s.pass.op = .extract)
    (hk : s.pass.k = s.pass.count) : engineAct s = settlePass s s.pass.count (extractCompletion s) := by
  simp only [engineAct_of_busy hb, microStep, if_neg (Nat.not_lt.2 hk.ge), hop]

theorem engineAct_insertCompletion (hb : s.status.busy = true) (hop : s.pass.op = .insert)
    (hk : s.pass.k = s.pass.count) :
    engineAct s = .next (s.setResult (BitVec.ofNat 32 s.pass.count)).clearBusy := by
  simp only [engineAct_of_busy hb, microStep, if_neg (Nat.not_lt.2 hk.ge), hop]
  rfl

/-- The element is read before EXTEND_core's checks (R153). -/
theorem extractElement_of_unadmitted (h : ¬ s.admitsElement s.pass.k .read) :
    extractElement s = .stuck s.pass.ew.port (s.elemAddr s.pass.k) .read := by
  rw [extractElement, readElement_of_unadmitted h, Act.bind_stuck]

theorem extractElement_of_admitted (h : s.admitsElement s.pass.k .read) (hal : s.elementUnaliased s.pass.k) :
    extractElement s =
      (extendCore (sliceElem s.pass.ew (s.element s.pass.k) s.pass.start.toNat s.pass.stop.toNat) s).map
        State.advanceK := by
  rw [extractElement, readElement_of_admitted h hal, Act.bind_ok]
  rfl

/-- Where FILL_core pads for the completion, it leaves all registers (R154). -/
theorem engineAct_extractCompletion_of_fill (hb : s.status.busy = true) (hop : s.pass.op = .extract)
    (hk : s.pass.k = s.pass.count) (h : fillCore s.pass.fill s = .ok t) :
    engineAct s = .next ((t.setResult s.buf.cap).clearBusy) := by
  have hcap : t.buf.cap = s.buf.cap := by rw [fillCore_eq_setMem h]; rfl
  rw [engineAct_extractCompletion hb hop hk, extractCompletion, h, ← hcap]
  rfl

/-! ### A micro-step beside the command that runs the same core -/

/-- The accepted command `i` in `c` and the engine's micro-step in `s` run the same core `x`, on which the command goes
on with `g` and the micro-step, which records the index `n` where it faults, with `h`. -/
structure RunSameCore {α : Type} (x : Act α) (i : Instr) (c : State) (g : α → State) (s : State) (n : Nat)
    (h : α → Act State) : Prop where
  command : exec i c = settle c (x.map g)
  engine : engineAct s = settlePass s n (x.bind h)
  faultless : ∀ u, x = .ok u → (g u).status.fault = false

section

variable {α : Type} {x : Act α} {g : α → State} {h : α → Act State}

/-- Where the command takes no fault, the core goes on. -/
theorem RunSameCore.of_faultless (hr : RunSameCore x i c g s n h) (ht : exec i c = .next t)
    (hf : t.status.fault = false) : ∃ u, x = .ok u ∧ t = g u ∧ engineAct s = settlePass s n (h u) := by
  obtain ⟨hcommand, hengine, -⟩ := hr
  rw [hcommand] at ht
  cases x with
  | ok u =>
    cases ht
    exact ⟨u, rfl, rfl, hengine⟩
  | raise f =>
    cases ht
    exact absurd hf (by simp)
  | stuck p y k => cases ht

/-- Where the command takes a fault, the pass takes the same one and records its index (R187). -/
theorem RunSameCore.of_faulting (hr : RunSameCore x i c g s n h) (ht : exec i c = .next t)
    (hf : t.status.fault = true) :
    engineAct s = .next { s.faulted t.status.fcode with result := BitVec.ofNat 32 n } := by
  obtain ⟨hcommand, hengine, hfaultless⟩ := hr
  rw [hcommand] at ht
  cases x with
  | ok u =>
    cases ht
    exact absurd hf (by simp [hfaultless u rfl])
  | raise f =>
    cases ht
    exact hengine
  | stuck p y k => cases ht

/-- Where the command does not occur, nor does the micro-step (R56). -/
theorem RunSameCore.of_blocked {r : Fault} (hr : RunSameCore x i c g s n h) (ht : exec i c = .fault r) :
    engineAct s = .fault r := by
  obtain ⟨hcommand, hengine, -⟩ := hr
  rw [hcommand] at ht
  cases x with
  | ok u => cases ht
  | raise f => cases ht
  | stuck p y k =>
    cases ht
    exact hengine

end

/-- A command other than RESET, accepted, whose act is a core and what follows it. -/
theorem exec_eq_settle_map {α : Type} {x : Act α} {g : α → State} (hi : i ≠ .reset) (ha : c.accepting)
    (h : commandAct i c = x.map g) : exec i c = settle c (x.map g) := by
  rw [exec_eq hi, whenAccepted_of_accepting ha, h]

end PassSteps

/-- Settles O23: the first part latches the sequencer and the descriptor, or the check of the range refuses it. -/
theorem passFirstPart : Obligations.PassFirstPart := by
  intro s a b ha c hc
  obtain ⟨op, ew, rfl⟩ : ∃ op ew, c = (passInstr op ew a b, op, ew, ew.bits,
      elementCount ew s.args.arg1 s.args.arg2 s.args.arg3) := by
    simp only [List.mem_cons, List.not_mem_nil, or_false] at hc
    rcases hc with rfl | rfl | rfl | rfl
    exacts [⟨.extract, .w32, rfl⟩, ⟨.extract, .w8, rfl⟩, ⟨.insert, .w32, rfl⟩, ⟨.insert, .w8, rfl⟩]
  refine ⟨fun hr => ?_, exec_pass_outOfRange op ha⟩
  exact ⟨_, exec_pass_inRange op ha hr, rfl, capacity_toNat _ _, startPass_range s op hr.2 hr.1⟩

/-- Settles O24: with no element the first part leaves K = P_COUNT = 0 and BO = 0, where neither completion pads. -/
theorem emptyPassCompletes : Obligations.EmptyPassCompletes := by
  intro s a b ha c hc hab hb h0
  obtain ⟨op, ew, rfl⟩ : ∃ op ew, c = (passInstr op ew a b, ElemWidth.bits ew,
      elementCount ew s.args.arg1 s.args.arg2 s.args.arg3) := by
    simp only [List.mem_cons, List.not_mem_nil, or_false] at hc
    rcases hc with rfl | rfl | rfl | rfl
    exacts [⟨.extract, .w32, rfl⟩, ⟨.extract, .w8, rfl⟩, ⟨.insert, .w32, rfl⟩, ⟨.insert, .w8, rfl⟩]
  have hcount : (s.startPass op ew a b).pass.count = 0 := h0
  have hcap : (s.startPass op ew a b).buf.cap = 0#32 := BitVec.eq_of_toNat_eq <| by
    rw [State.startPass_buf, freshDescriptor, capacity_toNat, show elementCount ew _ _ _ = 0 from h0, Nat.zero_mul]
    exact Nat.zero_min _
  refine ⟨_, exec_pass_inRange op ha ⟨hab, hb⟩, hcap, rfl, ?_⟩
  cases op with
  | extract =>
    rw [engineAct_extractCompletion_of_fill rfl rfl hcount.symm (fillCore_of_aligned rfl), hcap]
    rfl
  | insert =>
    rw [engineAct_insertCompletion rfl rfl hcount.symm, hcount]
    rfl

/-- Settles O25: the micro-step reads the element and then runs the EXTEND_core that the EXTEND of its slice runs. -/
theorem extractElementStep : Obligations.ExtractElementStep := by
  refine ⟨fun s hb hop hk => ?blocked, fun s c e hb hop hk hlt hstop hword hbyte hc => ?reads⟩
  case blocked =>
    have hblocked (h : ¬ s.admitsElement s.pass.k .read) :
        engineAct s = .fault (.notAdmitted s.pass.ew.port (s.elemAddr s.pass.k) .read) := by
      rw [engineAct_extractElement hb hop hk, extractElement_of_unadmitted h]
      rfl
    refine ⟨fun hew h => ?_, fun hew h => ?_⟩
    · rw [hblocked (by simp [admitsElement_w32 hew, h]), hew, ElemWidth.port]
    · rw [hblocked (by simp [admitsElement_w8 hew, h]), hew, ElemWidth.port]
  case reads =>
    obtain ⟨hadm, hal, he⟩ : s.admitsElement s.pass.k .read ∧ s.elementUnaliased s.pass.k ∧
        e = s.element s.pass.k := by
      unfold State.elementUnaliased State.element State.matrixElement
      cases hew : s.pass.ew with
      | w32 =>
        obtain ⟨hadm, he⟩ := hword hew
        exact ⟨(admitsElement_w32 hew).2 hadm, by simp, he⟩
      | w8 =>
        obtain ⟨hadm, hal, he⟩ := hbyte hew
        exact ⟨(admitsElement_w8 hew).2 hadm, fun _ => hal, he⟩
    subst he hc
    set sliced := sliceElem s.pass.ew (s.element s.pass.k) s.pass.start.toNat s.pass.stop.toNat with hsliced
    rw [sliceElem_element_eq_ofNat s s.pass.k hstop] at hsliced
    rw [← hsliced]
    have hrun : RunSameCore (extendCore sliced s) .extend
        (s.over { s.status with busy := false, fault := false } { s.args with arg0 := sliced })
        (fun t => t.over { s.status with busy := false, fault := false } { s.args with arg0 := sliced })
        s s.pass.k (fun t => .ok t.advanceK) :=
      ⟨exec_eq_settle_map (by simp) ⟨rfl, rfl⟩ (extendCore_over _ _ _ _),
        by rw [engineAct_extractElement hb hop hk, extractElement_of_admitted hadm hal]; rfl, fun _ _ => rfl⟩
    refine ⟨fun t ht hf => ?_, fun t => hrun.of_faulting, fun r => hrun.of_blocked⟩
    obtain ⟨u, hu, rfl, hact⟩ := hrun.of_faultless ht hf
    rw [hact, (extendCore_frame hu).1]
    rfl

/-- Settles O27: the completion runs the FILL_core that the FILL of P_FILL runs, or reports the count. -/
theorem completionSteps : Obligations.CompletionSteps := by
  intro s c hb hf0 hk hpass hc
  subst hc
  obtain ⟨-, -, -, -, hpos, -⟩ := hpass hb
  obtain ⟨hwc, hbo⟩ := cursor_of_position s
  rw [hpos, hk] at hwc hbo
  refine ⟨fun hop => ?_, fun hop => engineAct_insertCompletion hb hop hk, hwc, hbo⟩
  have hrun : RunSameCore (fillCore s.pass.fill s) .fill
      (s.over { s.status with busy := false } { s.args with arg0 := s.pass.fill })
      (fun t => t.over { s.status with busy := false } { s.args with arg0 := s.pass.fill })
      s s.pass.count (fun t => .ok (t.setResult t.buf.cap).clearBusy) :=
    ⟨exec_eq_settle_map (by simp) ⟨rfl, hf0⟩ (fillCore_over _ _ _ _), engineAct_extractCompletion hb hop hk,
      fun _ _ => hf0⟩
  refine ⟨fun t ht hf => ?_, fun t => hrun.of_faulting, fun r => hrun.of_blocked⟩
  obtain ⟨u, hu, rfl, -⟩ := hrun.of_faultless ht hf
  rw [engineAct_extractCompletion_of_fill hb hop hk hu, fillCore_eq_setMem hu]
  rfl

section InsertSteps

variable {s u : State} {v wc : Word} {bo : BitVec 5}

/-! ### An element micro-step of an insert (R157) -/

/-- A read of this buffer word by the running pass gives no free value (R210). -/
abbrev State.readsWordItself (s : State) (a : Word) : Prop :=
  s.status.busy = false ∨ s.pass.op = .extract ∨ s.pass.ew = .w32 ∨ s.wordAliasesWritten a = false

theorem nextCore_freeCount (h0 : s.readsWordItself (s.bufAddr s.buf.wc.toNat))
    (h1 : s.readsWordItself (s.bufAddr (s.buf.wc.toNat + 1))) (h : nextCore s = .ok (v, u)) :
    u.freeCount = s.freeCount := by
  obtain ⟨-, cw, w, hw, h⟩ := nextCore_ok h
  obtain ⟨-, rfl⟩ := (readBuffer_ok hw).2.2 h0
  rcases h with ⟨-, -, rfl⟩ | ⟨-, -, nw, w', r, hw', -, -, rfl⟩
  · split <;> rfl
  · obtain ⟨-, rfl⟩ := (readBuffer_ok hw').2.2 h1
    rfl

/-- Where it draws no free value, NEXT_core moves the cursor and nothing else. -/
theorem nextCore_eq_setBuf (hfree : u.freeCount = s.freeCount) (h : nextCore s = .ok (v, u)) :
    u = s.setBuf { s.buf with wc := u.buf.wc, bo := u.buf.bo } :=
  (nextCore_frame h).trans (by rw [hfree]; rfl)

/-- What an insert does with the block it has consumed and the state in which it has. -/
def State.insertBlock (s : State) (r : Word × State) : Act State :=
  (readElement r.2 (s.elemAddr s.pass.k)).bind fun (e, u) =>
    (writeElement u (s.elemAddr s.pass.k)
      (mergeElem s.pass.ew e r.1 s.pass.start.toNat s.pass.stop.toNat)).bind fun v => .ok v.advanceK

theorem insertElement_eq (s : State) : insertElement s = (nextCore s).bind s.insertBlock := rfl

/-- Element K of the running pass with the block `v` merged into the range. -/
def State.mergedElement (s : State) (v : Word) : Word :=
  mergeElem s.pass.ew (s.element s.pass.k) v s.pass.start.toNat s.pass.stop.toNat

theorem insertBlock_of_unreadable (h : ¬ s.admitsElement s.pass.k .read) :
    s.insertBlock (v, s.setBuf { s.buf with wc := wc, bo := bo }) =
      .stuck s.pass.ew.port (s.elemAddr s.pass.k) .read := by
  have hread := readElement_of_unadmitted (s := s.setBuf { s.buf with wc := wc, bo := bo }) h
  exact congrArg (Act.bind · _) hread

theorem insertBlock_of_readable (h : s.admitsElement s.pass.k .read) (hal : s.elementUnaliased s.pass.k) :
    s.insertBlock (v, s.setBuf { s.buf with wc := wc, bo := bo }) =
      (writeElement (s.setBuf { s.buf with wc := wc, bo := bo }) (s.elemAddr s.pass.k) (s.mergedElement v)).bind
        fun u => .ok u.advanceK := by
  have hread := readElement_of_admitted (s := s.setBuf { s.buf with wc := wc, bo := bo }) h hal
  exact congrArg (Act.bind · _) hread

theorem insertBlock_of_unwritable (h : s.admitsElement s.pass.k .read) (hal : s.elementUnaliased s.pass.k)
    (hw : ¬ s.admitsElement s.pass.k .write) :
    s.insertBlock (v, s.setBuf { s.buf with wc := wc, bo := bo }) =
      .stuck s.pass.ew.port (s.elemAddr s.pass.k) .write := by
  have hwrite := writeElement_of_unadmitted (s := s.setBuf { s.buf with wc := wc, bo := bo }) hw (s.mergedElement v)
  exact (insertBlock_of_readable h hal).trans (congrArg (Act.bind · _) hwrite)

theorem insertBlock_of_writable (h : s.admitsElement s.pass.k .read) (hal : s.elementUnaliased s.pass.k)
    (hw : s.admitsElement s.pass.k .write) :
    s.insertBlock (v, s.setBuf { s.buf with wc := wc, bo := bo }) =
      .ok { s with
        buf := { s.buf with wc := wc, bo := bo }
        mem := s.memWithElement s.pass.k (s.mergedElement v)
        pass := { s.pass with k := s.pass.k + 1 } } := by
  have hwrite := writeElement_of_admitted (s := s.setBuf { s.buf with wc := wc, bo := bo }) hw (s.mergedElement v)
  exact (insertBlock_of_readable h hal).trans (congrArg (Act.bind · _) hwrite)

/-- The merged element at its MSB-first positions: the block's low bits inside the range, the old bits outside. -/
theorem getLsbD_element_of_merged (hm : s.mem.wf = true) (hlt : s.pass.start.toNat < s.pass.stop.toNat)
    (hstop : s.pass.stop.toNat ≤ s.pass.ew.bits) (v : Word) {p : Nat} (hp : p < s.pass.ew.bits) :
    ((s.setMem (s.memWithElement s.pass.k (s.mergedElement v))).element s.pass.k).getLsbD (s.pass.ew.bits - 1 - p) =
      if s.pass.start.toNat ≤ p ∧ p < s.pass.stop.toNat then v.getLsbD (s.pass.stop.toNat - 1 - p)
      else (s.element s.pass.k).getLsbD (s.pass.ew.bits - 1 - p) := by
  rw [getLsbD_element_memWithElement hm _ _ (by omega)]
  exact mergeElem_bit _ _ _ hlt hstop hp

theorem getMsbD_wordAt_of_merged (hm : s.mem.wf = true) (hlt : s.pass.start.toNat < s.pass.stop.toNat)
    (hstop : s.pass.stop.toNat ≤ s.pass.ew.bits) (hew : s.pass.ew = .w32) (v : Word) {p : Nat} (hp : p < 32) :
    ((s.setMem (s.memWithElement s.pass.k (s.mergedElement v))).wordAt (s.elemAddr s.pass.k)).getMsbD p =
      if s.pass.start.toNat ≤ p ∧ p < s.pass.stop.toNat then v.getLsbD (s.pass.stop.toNat - 1 - p)
      else (s.wordAt (s.elemAddr s.pass.k)).getMsbD p := by
  have hbit := getLsbD_element_of_merged hm hlt hstop v (p := p) (by rwa [hew])
  simp only [State.element, State.matrixElement, State.setMem_pass, hew] at hbit
  simp only [BitVec.getMsbD_eq_getLsbD, hp, decide_true, Bool.true_and]
  exact hbit

theorem getMsbD_byteAt_of_merged (hm : s.mem.wf = true) (hlt : s.pass.start.toNat < s.pass.stop.toNat)
    (hstop : s.pass.stop.toNat ≤ s.pass.ew.bits) (hew : s.pass.ew = .w8) (v : Word) {p : Nat} (hp : p < 8) :
    ((s.setMem (s.memWithElement s.pass.k (s.mergedElement v))).byteAt (s.elemAddr s.pass.k)).getMsbD p =
      if s.pass.start.toNat ≤ p ∧ p < s.pass.stop.toNat then v.getLsbD (s.pass.stop.toNat - 1 - p)
      else (s.byteAt (s.elemAddr s.pass.k)).getMsbD p := by
  have hbit := getLsbD_element_of_merged hm hlt hstop v (p := p) (by rwa [hew])
  have h32 : 8 - 1 - p < 32 := by omega
  simp only [State.element, State.matrixElement, State.setMem_pass, hew, BitVec.getLsbD_setWidth, ElemWidth.bits, h32,
    decide_true, Bool.true_and] at hbit
  simp only [BitVec.getMsbD_eq_getLsbD, hp, decide_true, Bool.true_and]
  exact hbit

end InsertSteps

/-- Settles O26: the micro-step runs the NEXT_core that NEXT runs, and then reads and writes the element. -/
theorem insertElementStep : Obligations.InsertElementStep := by
  intro s c hm hb hop hk hlt hstop hal hc
  subst hc
  obtain ⟨h0, h1, hun⟩ : s.readsWordItself (s.bufAddr s.buf.wc.toNat) ∧
      s.readsWordItself (s.bufAddr (s.buf.wc.toNat + 1)) ∧ s.elementUnaliased s.pass.k := by
    cases hew : s.pass.ew with
    | w32 => exact ⟨.inr (.inr (.inl hew)), .inr (.inr (.inl hew)), fun h => by simp [hew] at h⟩
    | w8 =>
      obtain ⟨h0, h1, h2⟩ := hal hew
      exact ⟨.inr (.inr (.inr h0)), .inr (.inr (.inr h1)), fun _ => h2⟩
  have hrun : RunSameCore (nextCore s) .next (s.over { s.status with busy := false, fault := false } s.args)
      (fun r => (r.2.over { s.status with busy := false, fault := false } s.args).setResult r.1)
      s s.pass.k s.insertBlock := by
    refine ⟨exec_eq_settle_map (by simp) ⟨rfl, rfl⟩ ?_, engineAct_insertElement hb hop hk, fun _ _ => rfl⟩
    rw [commandAct, nextCore_over s _ _ rfl h0 h1, Act.bind_map]
    rfl
  refine ⟨fun t ht hf => ?_, fun t => hrun.of_faulting, fun r => hrun.of_blocked⟩
  obtain ⟨⟨v, u⟩, hu, rfl, hact⟩ := hrun.of_faultless ht hf
  have hset := nextCore_eq_setBuf (nextCore_freeCount h0 h1 hu) hu
  rw [hset] at hact
  have hunreadable (h : ¬ s.admitsElement s.pass.k .read) :
      engineAct s = .fault (.notAdmitted s.pass.ew.port (s.elemAddr s.pass.k) .read) := by
    rw [hact, insertBlock_of_unreadable h]
    rfl
  have hunwritable (hr : s.admitsElement s.pass.k .read) (h : ¬ s.admitsElement s.pass.k .write) :
      engineAct s = .fault (.notAdmitted s.pass.ew.port (s.elemAddr s.pass.k) .write) := by
    rw [hact, insertBlock_of_unwritable hr hun h]
    rfl
  have hbuf : u.buf = { s.buf with wc := u.buf.wc, bo := u.buf.bo } := congrArg State.buf hset
  have hwritten (hr : s.admitsElement s.pass.k .read) (hw : s.admitsElement s.pass.k .write) :
      engineAct s = .next { s with
        buf := u.buf
        mem := s.memWithElement s.pass.k (s.mergedElement v)
        pass := { s.pass with k := s.pass.k + 1 } } := by
    rw [hact, insertBlock_of_writable hr hun hw, hbuf]
    rfl
  have hsame := memWithElement_sameMemoryExcept s s.pass.k (s.mergedElement v)
  simp only [State.elementCells, State.matrixCells] at hsame
  cases hew : s.pass.ew with
  | w32 =>
    rw [hew] at hsame
    simp only [admitsElement_w32 hew, hew, ElemWidth.port, Bool.not_eq_true] at hunreadable hunwritable
    rw [admitsElement_w32 hew, admitsElement_w32 hew] at hwritten
    exact ⟨fun _ => hunreadable, fun _ => hunwritable, nofun, nofun, fun _ hr hw =>
      ⟨_, hwritten hr hw, rfl, hsame, fun p => getMsbD_wordAt_of_merged hm hlt hstop hew v⟩, nofun⟩
  | w8 =>
    rw [hew] at hsame
    simp only [admitsElement_w8 hew, hew, ElemWidth.port, Bool.not_eq_true] at hunreadable hunwritable
    rw [admitsElement_w8 hew, admitsElement_w8 hew] at hwritten
    exact ⟨nofun, nofun, fun _ => hunreadable, fun _ => hunwritable, nofun, fun _ hr hw =>
      ⟨_, hwritten hr hw, rfl, hsame, fun p => getMsbD_byteAt_of_merged hm hlt hstop hew v⟩⟩

section WholePasses

variable {s t u : State} {i j k n : Nat} {v : Word} {P : Nat → State → Prop}

/-! ### Runs of a pass -/

/-- What each of `n` steps carries on holds after a run of them. -/
theorem run_of_steps (h0 : P 0 s) (hstep : ∀ k u, k < n → P k u → ∃ t, step u = .next t ∧ P (k + 1) t) :
    ∃ t : State, Sys2Proof.core.run n s = .next t ∧ P n t := by
  induction n with
  | zero => exact ⟨s, rfl, h0⟩
  | succ n ih =>
    obtain ⟨u, hu, hP⟩ := ih fun k u hk => hstep k u (by omega)
    obtain ⟨t, ht, hP⟩ := hstep n u (by omega) hP
    exact ⟨t, by rw [run_add hu, run_succ ht]; rfl, hP⟩

/-- The cell lies in no word of the buffer (R52). -/
def State.outsideBuffer (s : State) (c : Nat) : Prop := ∀ i, i < s.buf.cap.toNat → c ∉ wordCells (s.bufAddr i)

/-- A pass at its start, which nothing keeps from completing: nothing is scheduled, every request is admitted, its
blocks fit the buffer and its matrix stands outside it. -/
structure WholePass (s : State) : Prop where
  busy : s.status.busy = true
  fault : s.status.fault = false
  schedule : s.schedule = []
  admitted : s.allAdmitted
  wf : s.mem.wf = true
  atStart : s.pass.k = 0
  range : s.pass.start.toNat < s.pass.stop.toNat
  stop : s.pass.stop.toNat ≤ s.pass.ew.bits
  bw : s.buf.bw.toNat = s.pass.stop.toNat - s.pass.start.toNat
  inRange : s.cursorInRange
  position : s.position = 0
  fits : s.pass.count * s.buf.bw.toNat ≤ 32 * s.buf.cap.toNat
  apart : ∀ k, k < s.pass.count → ∀ c ∈ s.elementCells k, s.outsideBuffer c

/-- `u` is the pass of `s` after its first `k` elements. -/
structure AfterElements (s : State) (k : Nat) (u : State) : Prop where
  advanced : AdvancedBy k s u
  frame : u = { s with buf := u.buf, pass := { s.pass with k := k }, mem := u.mem }
  wf : u.mem.wf = true

namespace AfterElements

theorem start (hp : WholePass s) : AfterElements s 0 s :=
  ⟨.refl hp.inRange, by rw [← hp.atStart], hp.wf⟩

variable (h : AfterElements s k u)
include h

theorem pass : u.pass = { s.pass with k := k } := by rw [h.frame]

theorem status : u.status = s.status := h.advanced.status

theorem platform : u.platform = s.platform := h.advanced.buffer.platform

theorem bufAddr (i : Nat) : u.bufAddr i = s.bufAddr i := bufAddr_congr h.advanced.buffer.base i

theorem elementCells (i : Nat) : u.elementCells i = s.elementCells i := by
  rw [State.elementCells, h.pass]
  exact matrixCells_congr h.platform _ _ _

theorem outsideBuffer {c : Nat} : u.outsideBuffer c ↔ s.outsideBuffer c := by
  simp only [State.outsideBuffer, h.bufAddr, h.advanced.buffer.cap]

theorem admitted (hp : WholePass s) : u.allAdmitted := by
  unfold State.allAdmitted
  rw [h.platform]
  exact hp.admitted

theorem position (hp : WholePass s) : u.position = k * s.buf.bw.toNat := by
  rw [h.advanced.position, hp.position, Nat.zero_add]

/-- Until the last element another block fits the buffer. -/
theorem fits (hp : WholePass s) (hk : k < s.pass.count) :
    u.position + u.buf.bw.toNat ≤ 32 * u.buf.cap.toNat := by
  have hle : (k + 1) * s.buf.bw.toNat ≤ s.pass.count * s.buf.bw.toNat := Nat.mul_le_mul_right _ hk
  have hfits := hp.fits
  rw [h.position hp, h.advanced.buffer.bw, h.advanced.buffer.cap, ← Nat.succ_mul]
  exact hle.trans hfits

theorem setMem {m : Memory} (hm : m.wf = true) : AfterElements s k (u.setMem m) := by
  obtain ⟨hpos, hc, ⟨hbase, hcap, hbw, hplatform⟩, hst⟩ := h.advanced
  refine ⟨⟨hpos, hc, ⟨hbase, hcap, hbw, hplatform⟩, hst⟩, ?_, hm⟩
  rw [h.frame]
  rfl

/-- An element reads the same in the middle of the pass where its cells do. -/
theorem element_congr (h' : AfterElements s n t) (hmem : ∀ c ∈ s.elementCells i, t.mem.get c = u.mem.get c) :
    t.element i = u.element i := by
  rw [State.element, State.element, h.pass, h'.pass]
  refine matrixElement_congr (h'.platform.trans h.platform.symm) fun c hc => hmem c ?_
  rwa [matrixCells_congr h.platform] at hc

/-- No byte of the matrix aliases the buffer. -/
theorem elementUnaliased (hp : WholePass s) (hi : i < s.pass.count) : u.elementUnaliased i := by
  refine fun hew => byteAliasesBuffer_eq_false fun n hn hmem => ?_
  refine h.outsideBuffer.2 (hp.apart i hi _ ?_) n hn hmem
  rw [← h.elementCells, State.elementCells, hew]
  exact List.mem_singleton.2 rfl

/-- The micro-step of the next element. -/
theorem next (hadv : AdvancedBy 1 u t)
    (hframe : t = { u with buf := t.buf, pass := { u.pass with k := u.pass.k + 1 }, mem := t.mem })
    (hm : t.mem.wf = true) : AfterElements s (k + 1) t := by
  have hk : u.pass.k = k := by rw [h.pass]
  refine ⟨Nat.add_comm 1 k ▸ h.advanced.trans hadv, ?_, hm⟩
  rw [hk, h.pass] at hframe
  rw [hframe, h.frame]

/-- What the engine does in the middle of the pass, a step does. -/
theorem step_eq (hp : WholePass s) (hact : engineAct u = .next t) : step u = .next t := by
  have hb : u.status.busy = true := by rw [h.status, hp.busy]
  have hsch : u.schedule = [] := by rw [h.frame, ← hp.schedule]
  exact step_of_microStep hsch hb (engineAct_of_busy hb ▸ hact)

end AfterElements

theorem AdvancedBy.advanceK (h : AdvancedBy n s t) : AdvancedBy n s t.advanceK :=
  ⟨h.position, h.inRange, ⟨h.buffer.base, h.buffer.cap, h.buffer.bw, h.buffer.platform⟩, h.status⟩

/-! ### An extract (R153, R154) -/

/-- The block that an extract makes of element `i` (R153). -/
def State.elementBlock (s : State) (i : Nat) : Word :=
  sliceElem s.pass.ew (s.element i) s.pass.start.toNat s.pass.stop.toNat

/-- `u` is the extract of `s` after its first `k` elements: the stream holds their blocks, zeros after them, and outside
the buffer memory is as it was. -/
structure Extracted (s : State) (k : Nat) (u : State) : Prop where
  after : AfterElements s k u
  blocks : ∀ i, i < k → u.HoldsBlock (i * s.buf.bw.toNat) (s.elementBlock i)
  zero : u.zeroFromCursor
  outside : ∀ c, s.outsideBuffer c → u.mem.get c = s.mem.get c

namespace Extracted

/-- The micro-step of the next element extends the buffer by that element's block. -/
theorem engineAct_eq (h : Extracted s k u) (hp : WholePass s) (hop : s.pass.op = .extract) (hk : k < s.pass.count) :
    engineAct u = settlePass u k ((extendCore (s.elementBlock k) u).map State.advanceK) := by
  have hpass := h.after.pass
  have hb : u.status.busy = true := by rw [h.after.status, hp.busy]
  have hk' : u.pass.k = k := by rw [hpass]
  have hadm : u.admitsElement k .read := h.after.admitted hp _ _ _
  have helem : u.element k = s.element k := (AfterElements.start hp).element_congr h.after fun c hc =>
    h.outside c (hp.apart k hk c hc)
  have hcore := extractElement_of_admitted (hk' ▸ hadm) (hk' ▸ h.after.elementUnaliased hp hk)
  rw [engineAct_extractElement hb (by rw [hpass, hop]) (by rw [hpass]; exact hk), hcore, hk', helem, hpass]
  rfl

/-- EXTEND_core adds the next block and leaves those before it. -/
theorem blocks_of_extendCore (h : Extracted s k u) (hp : WholePass s) (ht : extendCore (s.elementBlock k) u = .ok t) :
    t.zeroFromCursor ∧ ∀ i, i < k + 1 → t.HoldsBlock (i * s.buf.bw.toNat) (s.elementBlock i) := by
  obtain ⟨hafter, hblocks, hzero, -⟩ := h
  have hc := hafter.advanced.inRange
  obtain ⟨hblock, hzero', hsame⟩ := extendCore_holdsBlock hafter.wf hc hzero ht
  rw [hafter.position hp] at hblock hsame
  refine ⟨hzero', fun i hi => ?_⟩
  rcases Nat.lt_or_eq_of_le (Nat.le_of_lt_succ hi) with hlt | rfl
  · refine (hblocks i hlt).congr (extendCore_advancedBy hc ht).buffer fun j hj => hsame j (hj.trans_le ?_)
    rw [hafter.advanced.buffer.bw, ← Nat.succ_mul]
    exact Nat.mul_le_mul_right _ hlt
  · exact hblock

theorem next (h : Extracted s k u) (hp : WholePass s) (hop : s.pass.op = .extract) (hk : k < s.pass.count) :
    ∃ t, step u = .next t ∧ Extracted s (k + 1) t := by
  have hafter := h.after
  have hadm := hafter.admitted hp
  have hc := hafter.advanced.inRange
  obtain ⟨t, ht⟩ := extendCore_goes_on (s.elementBlock k) hc (hafter.fits hp hk) h.zero
    fun i _ => ⟨hadm _ _ _, hadm _ _ _⟩
  have hact : engineAct u = .next t.advanceK := by
    rw [h.engineAct_eq hp hop hk, ht]
    rfl
  have hframe : t.advanceK =
      { u with buf := t.buf, pass := { u.pass with k := u.pass.k + 1 }, mem := t.mem } := by
    rw [(extendCore_frame ht).1]
    rfl
  have hwf : t.mem.wf = true := extendCore_wf hafter.wf ht
  obtain ⟨hzero, hblocks⟩ := h.blocks_of_extendCore hp ht
  have hkept : SameBuffer t t.advanceK := ⟨rfl, rfl, rfl, rfl⟩
  refine ⟨_, hafter.step_eq hp hact, hafter.next (extendCore_advancedBy hc ht).advanceK hframe hwf,
    fun i hi => (hblocks i hi).congr hkept fun _ _ => rfl, hzero, fun c hcell => ?_⟩
  have hget : t.mem.get c = u.mem.get c := extendCore_get ht fun i _ hi => hafter.outsideBuffer.2 hcell i hi
  exact hget.trans (h.outside c hcell)

end Extracted

/-- `t` is the machine after the pass of `s`, as far as the next command depends on it. -/
structure Completed (s t : State) : Prop where
  accepting : t.accepting
  args : t.args = s.args
  schedule : t.schedule = s.schedule
  buffer : SameBuffer s t
  wf : t.mem.wf = true

/-- A completion micro-step clears BUSY, with whatever RESULT and padding. -/
theorem AfterElements.completed (h : AfterElements s s.pass.count u) (hp : WholePass s) {m : Memory}
    (hm : m.wf = true) (r : Word) : Completed s ((u.setMem m).setResult r).clearBusy := by
  have hbuf := h.advanced.buffer
  refine ⟨⟨rfl, ?_⟩, by rw [h.frame]; rfl, by rw [h.frame]; rfl,
    ⟨hbuf.base, hbuf.cap, hbuf.bw, hbuf.platform⟩, hm⟩
  rw [State.clearBusy_status, State.setResult_status, State.setMem_status, h.status]
  exact hp.fault

/-- The completion pads beyond the blocks (R154). -/
theorem Extracted.completes (h : Extracted s s.pass.count u) (hp : WholePass s) (hop : s.pass.op = .extract) :
    ∃ t, step u = .next t ∧ Completed s t ∧
      (∀ i, i < s.pass.count → t.HoldsBlock (i * s.buf.bw.toNat) (s.elementBlock i)) ∧
      ∀ c, s.outsideBuffer c → t.mem.get c = s.mem.get c := by
  have hafter := h.after
  have hadm := hafter.admitted hp
  have hpass := hafter.pass
  have hc := hafter.advanced.inRange
  obtain ⟨f, hf⟩ := fillCore_goes_on u.pass.fill hc fun _ => ⟨hadm _ _ _, hadm _ _ _⟩
  have hset := fillCore_eq_setMem hf
  have hact : engineAct u = .next ((u.setMem f.mem).setResult u.buf.cap).clearBusy := by
    rw [← hset]
    exact engineAct_extractCompletion_of_fill (by rw [hafter.status, hp.busy]) (by rw [hpass, hop]) (by rw [hpass]) hf
  refine ⟨_, hafter.step_eq hp hact, hafter.completed hp (fillCore_wf hafter.wf hf) _, fun i hi => ?block,
    fun c hcell => ?outside⟩
  case block =>
    have hkept : SameBuffer u ((u.setMem f.mem).setResult u.buf.cap).clearBusy := ⟨rfl, rfl, rfl, rfl⟩
    refine (h.blocks i hi).congr hkept fun j hj => ?_
    have hend : (i + 1) * s.buf.bw.toNat ≤ s.pass.count * s.buf.bw.toNat := Nat.mul_le_mul_right _ hi
    rw [hafter.advanced.buffer.bw, ← Nat.succ_mul] at hj
    have hj : j < s.pass.count * s.buf.bw.toNat := hj.trans_le hend
    have hle := position_le hc
    have hcap := cap_lt u
    have hpos := hafter.position hp
    have hbit : f.streamBit j = u.streamBit j := fillCore_stream hafter.wf hf (by omega) (by omega)
    rw [hset] at hbit
    exact hbit
  case outside =>
    have hget : f.mem.get c = u.mem.get c := fillCore_get hf fun i _ hi => hafter.outsideBuffer.2 hcell i hi
    exact hget.trans (h.outside c hcell)

/-- The bits of an element's block, at the positions that they have in the element. -/
theorem getLsbD_elementBlock (hp : WholePass s) (i : Nat) {p : Nat}
    (hin : s.pass.start.toNat ≤ p ∧ p < s.pass.stop.toNat) :
    (s.elementBlock i).getLsbD (s.buf.bw.toNat - 1 - (p - s.pass.start.toNat)) =
      (s.element i).getLsbD (s.pass.ew.bits - 1 - p) := by
  have hbw := hp.bw
  have hstop := hp.stop
  have hlt : s.buf.bw.toNat - 1 - (p - s.pass.start.toNat) < s.pass.stop.toNat - s.pass.start.toNat := by omega
  have hat : s.pass.ew.bits - s.pass.stop.toNat + (s.buf.bw.toNat - 1 - (p - s.pass.start.toNat)) =
      s.pass.ew.bits - 1 - p := by omega
  rw [State.elementBlock, sliceElem_bit _ _ hstop, decide_eq_true hlt, Bool.true_and, hat]

/-- An extract whose buffer is zero completes and puts the bits in range of every element into the stream (R153). -/
theorem extract_run (hp : WholePass s) (hop : s.pass.op = .extract) (hz : s.zeroFromCursor) :
    ∃ t : State, Sys2Proof.core.run (s.pass.count + 1) s = .next t ∧ Completed s t ∧
      (∀ i p, i < s.pass.count → s.pass.start.toNat ≤ p ∧ p < s.pass.stop.toNat →
        t.streamBit (i * s.buf.bw.toNat + (p - s.pass.start.toNat)) =
          (s.element i).getLsbD (s.pass.ew.bits - 1 - p)) ∧
      ∀ c, s.outsideBuffer c → t.mem.get c = s.mem.get c := by
  have h0 : Extracted s 0 s := ⟨.start hp, fun i hi => absurd hi (Nat.not_lt_zero i), hz, fun _ _ => rfl⟩
  obtain ⟨u, hu, h⟩ := run_of_steps h0 fun k u hk h => h.next hp hop hk
  obtain ⟨t, ht, hdone, hblocks, houtside⟩ := h.completes hp hop
  refine ⟨t, by rw [run_add hu, run_succ ht]; rfl, hdone, fun i p hi hin => ?_, houtside⟩
  have hbw := hp.bw
  have hbit := (hblocks i hi).bits (p - s.pass.start.toNat) (by rw [hdone.buffer.bw]; omega)
  rw [hbit, hdone.buffer.bw, getLsbD_elementBlock hp i hin]

/-! ### An insert (R157, R158) -/

/-- The elements of the matrix share no cell. -/
def State.elementsApart (s : State) : Prop :=
  ∀ i j, i < s.pass.count → j < s.pass.count → i ≠ j → ∀ c ∈ s.elementCells i, c ∉ s.elementCells j

/-- `u` is the insert of `s` after its first `k` elements: they have the bits of their blocks in the range, and outside
them memory is as it was. -/
structure Inserted (s : State) (k : Nat) (u : State) : Prop where
  after : AfterElements s k u
  merged : ∀ i p, i < k → p < s.pass.ew.bits →
    (u.element i).getLsbD (s.pass.ew.bits - 1 - p) =
      if s.pass.start.toNat ≤ p ∧ p < s.pass.stop.toNat then
        s.streamBit (i * s.buf.bw.toNat + (p - s.pass.start.toNat))
      else (s.element i).getLsbD (s.pass.ew.bits - 1 - p)
  outside : ∀ c, (∀ i, i < k → c ∉ s.elementCells i) → u.mem.get c = s.mem.get c

namespace Inserted

/-- The buffer is still as the insert found it. -/
theorem streamBit (h : Inserted s k u) (hp : WholePass s) (hk : k ≤ s.pass.count) (hj : j < 32 * s.buf.cap.toNat) :
    u.streamBit j = s.streamBit j := by
  refine streamBit_congr ?_
  rw [State.bufferWord, h.after.bufAddr]
  refine Memory.getWord_congr fun c hc => h.outside c fun i hi hmem => ?_
  exact hp.apart i (by omega) c hmem (j / 32) (by omega) hc

/-- NEXT_core reads the next block and draws no free value. -/
theorem nextCore_eq (h : Inserted s k u) (hp : WholePass s) (hk : k < s.pass.count) :
    ∃ v wc bo, nextCore u = .ok (v, u.setBuf { u.buf with wc := wc, bo := bo }) ∧
      ∀ i, i < s.buf.bw.toNat → v.getLsbD i = s.streamBit ((k + 1) * s.buf.bw.toNat - 1 - i) := by
  have hafter := h.after
  have hadm := hafter.admitted hp
  have hc := hafter.advanced.inRange
  have hfits := hafter.fits hp hk
  have hself : u.readsBufferItself := readsBufferItself_of_disjoint fun j i c hj hi hcell hmem => by
    rw [hafter.pass] at hj
    rw [hafter.elementCells] at hmem
    exact hafter.outsideBuffer.2 (hp.apart j (hj.trans hk) c hmem) i hi hcell
  obtain ⟨v, t, ht, hfree⟩ := nextCore_goes_on hc hself hfits (hadm _ _ _) fun _ => hadm _ _ _
  refine ⟨v, t.buf.wc, t.buf.bo, nextCore_eq_setBuf hfree ht ▸ ht, fun i hi => ?_⟩
  have hpos : u.position + u.buf.bw.toNat = (k + 1) * s.buf.bw.toNat := by
    rw [hafter.position hp, hafter.advanced.buffer.bw, Nat.succ_mul]
  rw [nextCore_stream hc hself ht, hafter.advanced.buffer.bw, decide_eq_true hi, Bool.true_and]
  rw [hpos, hafter.advanced.buffer.cap] at hfits
  rw [hafter.advanced.buffer.bw] at hpos
  rw [hpos, h.streamBit hp hk.le (by omega)]

/-- Memory with the next element merged is that of the insert one element further on. -/
theorem of_merged (h : Inserted s k u) (hp : WholePass s) (hsep : s.elementsApart) (hk : k < s.pass.count)
    (hv : ∀ i, i < s.buf.bw.toNat → v.getLsbD i = s.streamBit ((k + 1) * s.buf.bw.toNat - 1 - i))
    (ht : AfterElements s (k + 1) t) (hmem : t.mem = u.memWithElement k (u.mergedElement v)) :
    Inserted s (k + 1) t := by
  have hafter := h.after
  have hpass := hafter.pass
  have hsame : ∀ c, c ∉ s.elementCells k → t.mem.get c = u.mem.get c := by
    rw [hmem, ← hafter.elementCells]
    exact memWithElement_sameMemoryExcept u k (u.mergedElement v)
  refine ⟨ht, fun i p hi hpb => ?merged, fun c hcell => ?outside⟩
  case merged =>
    rcases Nat.lt_or_eq_of_le (Nat.le_of_lt_succ hi) with hlt | rfl
    · have hkept : t.element i = u.element i := hafter.element_congr ht fun c hc =>
        hsame c (hsep i k (hlt.trans hk) hk hlt.ne c hc)
      rw [hkept, h.merged i p hlt hpb]
    · have hnew : t.element i = (u.setMem (u.memWithElement i (u.mergedElement v))).element i :=
        (hafter.setMem (memWithElement_wf hafter.wf _ _)).element_congr ht fun c _ => by rw [hmem]; rfl
      have hold : u.element i = s.element i := (AfterElements.start hp).element_congr hafter fun c hc =>
        h.outside c fun j hj => hsep i j hk (hj.trans hk) hj.ne' c hc
      have hbits := getLsbD_element_of_merged (s := u) hafter.wf (by rw [hpass]; exact hp.range)
        (by rw [hpass]; exact hp.stop) v (by rw [hpass]; exact hpb)
      simp only [hpass] at hbits
      rw [hnew, hbits, hold]
      refine if_ctx_congr Iff.rfl (fun hin => ?_) fun _ => rfl
      have hbw := hp.bw
      have hpos : (i + 1) * s.buf.bw.toNat = i * s.buf.bw.toNat + s.buf.bw.toNat := Nat.succ_mul _ _
      rw [hv _ (by omega)]
      congr 1
      omega
  case outside =>
    have hget := hsame c (hcell k (Nat.lt_succ_self k))
    exact hget.trans (h.outside c fun i hi => hcell i (hi.trans (Nat.lt_succ_self k)))

theorem next (h : Inserted s k u) (hp : WholePass s) (hop : s.pass.op = .insert) (hsep : s.elementsApart)
    (hk : k < s.pass.count) : ∃ t, step u = .next t ∧ Inserted s (k + 1) t := by
  have hafter := h.after
  have hadm := hafter.admitted hp
  have hpass := hafter.pass
  have hk' : u.pass.k = k := by rw [hpass]
  have hb : u.status.busy = true := by rw [hafter.status, hp.busy]
  obtain ⟨v, wc, bo, hv, hbits⟩ := h.nextCore_eq hp hk
  have hact : engineAct u = .next { u with
      buf := { u.buf with wc := wc, bo := bo }
      mem := u.memWithElement u.pass.k (u.mergedElement v)
      pass := { u.pass with k := u.pass.k + 1 } } := by
    rw [engineAct_insertElement hb (by rw [hpass, hop]) (by rw [hpass]; exact hk), insertElement_eq, hv, Act.bind_ok,
      insertBlock_of_writable (hadm _ _ _) (hk' ▸ hafter.elementUnaliased hp hk) (hadm _ _ _)]
    rfl
  have hadv := nextCore_advancedBy hafter.advanced.inRange hv
  refine ⟨_, hafter.step_eq hp hact, h.of_merged hp hsep hk hbits (hafter.next ?_ rfl ?_) (by rw [hk'])⟩
  · exact ⟨hadv.position, hadv.inRange, ⟨rfl, rfl, rfl, rfl⟩, rfl⟩
  · exact memWithElement_wf hafter.wf _ _

end Inserted

/-- An insert completes, and its elements have in range the bits that the stream held (R157). -/
theorem insert_run (hp : WholePass s) (hop : s.pass.op = .insert) (hsep : s.elementsApart) :
    ∃ t : State, Sys2Proof.core.run (s.pass.count + 1) s = .next t ∧ Completed s t ∧
      ∀ i p, i < s.pass.count → p < s.pass.ew.bits →
        (t.matrixElement s.pass.ew s.pass.mbase i).getLsbD (s.pass.ew.bits - 1 - p) =
          if s.pass.start.toNat ≤ p ∧ p < s.pass.stop.toNat then
            s.streamBit (i * s.buf.bw.toNat + (p - s.pass.start.toNat))
          else (s.element i).getLsbD (s.pass.ew.bits - 1 - p) := by
  have h0 : Inserted s 0 s := ⟨.start hp, fun i _ hi => absurd hi (Nat.not_lt_zero i), fun _ _ => rfl⟩
  obtain ⟨u, hu, h⟩ := run_of_steps h0 fun k u hk h => h.next hp hop hsep hk
  have hpass := h.after.pass
  have hact := engineAct_insertCompletion (s := u) (by rw [h.after.status, hp.busy]) (by rw [hpass, hop])
    (by rw [hpass])
  refine ⟨_, by rw [run_add hu, run_succ (h.after.step_eq hp hact)]; rfl,
    h.after.completed hp h.after.wf _, fun i p hi hpb => ?_⟩
  have hbits := h.merged i p hi hpb
  rw [State.element, hpass] at hbits
  exact hbits

/-! ### A pass command and its run (R163) -/

/-- The element count of a pass of this width (R152). -/
abbrev State.matrixCount (s : State) (ew : ElemWidth) : Nat := elementCount ew s.args.arg1 s.args.arg2 s.args.arg3

/-- The words that the blocks of a pass fill (R151). -/
abbrev State.blockWords (s : State) (ew : ElemWidth) (a b : Nat) : Nat := ceilDiv32 (s.matrixCount ew * (b - a))

/-- A pass command of this width and range, given now and left alone, runs to its completion: the ARGs name a buffer
that holds all blocks and a matrix outside it. -/
structure ReadyForPass (s : State) (ew : ElemWidth) (a b : Nat) : Prop where
  accepting : s.accepting
  schedule : s.schedule = []
  admitted : s.allAdmitted
  wf : s.mem.wf = true
  range : a < b ∧ b ≤ ew.bits
  roomy : s.blockWords ew a b ≤ s.args.arg5.toNat
  apart : ∀ k, k < s.matrixCount ew → ∀ c ∈ s.matrixCells ew s.args.arg0 k,
    ∀ i, i < s.blockWords ew a b → c ∉ wordCells (s.args.arg4 + BitVec.ofNat 32 i)

namespace ReadyForPass

variable {op : PassOp} {ew : ElemWidth} {a b : Nat}

theorem cap (h : ReadyForPass s ew a b) : (s.startPass op ew a b).buf.cap.toNat = s.blockWords ew a b :=
  (capacity_toNat _ _).trans (Nat.min_eq_left h.roomy)

theorem outsideBuffer (h : ReadyForPass s ew a b) {c : Nat} :
    (s.startPass op ew a b).outsideBuffer c ↔
      ∀ i, i < s.blockWords ew a b → c ∉ wordCells (s.args.arg4 + BitVec.ofNat 32 i) := by
  rw [State.outsideBuffer, h.cap]
  rfl

theorem wholePass (h : ReadyForPass s ew a b) : WholePass (s.startPass op ew a b) := by
  obtain ⟨hab, hb⟩ := h.range
  obtain ⟨hstart, hstop, hbw⟩ := startPass_range s op hb hab
  have hew := ew.bits_le
  refine ⟨rfl, h.accepting.2, h.schedule, h.admitted, h.wf, rfl, by rwa [hstart, hstop], by rwa [hstop],
    by rw [hstart, hstop, hbw], cursorInRange_of_fresh rfl (by omega) (by omega), rfl, ?_,
    fun k hk c hc => h.outsideBuffer.2 (h.apart k hk c hc)⟩
  have hfits (n : Nat) : n ≤ 32 * ceilDiv32 n := by
    unfold ceilDiv32
    omega
  rw [hbw, h.cap]
  exact hfits _

/-- The extract of a matrix into a buffer of zeros. -/
theorem extract (h : ReadyForPass s ew a b)
    (hzero : ∀ i, i < s.blockWords ew a b → s.wordAt (s.args.arg4 + BitVec.ofNat 32 i) = 0#32) :
    ∃ t : State, Sys2Proof.core.run (s.matrixCount ew + 1) (s.startPass .extract ew a b) = .next t ∧
      Completed (s.startPass .extract ew a b) t ∧
      (∀ k p, k < s.matrixCount ew → a ≤ p ∧ p < b →
        t.streamBit (k * (b - a) + (p - a)) = (s.matrixElement ew s.args.arg0 k).getLsbD (ew.bits - 1 - p)) ∧
      ∀ c, (∀ i, i < s.blockWords ew a b → c ∉ wordCells (s.args.arg4 + BitVec.ofNat 32 i)) →
        t.mem.get c = s.mem.get c := by
  obtain ⟨hstart, hstop, hbw⟩ := startPass_range s .extract h.range.2 h.range.1
  obtain ⟨t, hrun, hdone, hstream, houtside⟩ :=
    extract_run h.wholePass rfl (zeroFromCursor_of_zero fun n hn => hzero n (h.cap ▸ hn))
  rw [hstart, hstop, hbw] at hstream
  exact ⟨t, hrun, hdone, hstream, fun c hc => houtside c (h.outsideBuffer.2 hc)⟩

/-- The insert into a matrix whose elements share no cell. -/
theorem insert (h : ReadyForPass s ew a b)
    (hsep : ∀ j k, j < s.matrixCount ew → k < s.matrixCount ew → j ≠ k →
      ∀ c ∈ s.matrixCells ew s.args.arg0 j, c ∉ s.matrixCells ew s.args.arg0 k) :
    ∃ t : State, Sys2Proof.core.run (s.matrixCount ew + 1) (s.startPass .insert ew a b) = .next t ∧ t.accepting ∧
      ∀ k p, k < s.matrixCount ew → p < ew.bits →
        (t.matrixElement ew s.args.arg0 k).getLsbD (ew.bits - 1 - p) =
          if a ≤ p ∧ p < b then (s.startPass .insert ew a b).streamBit (k * (b - a) + (p - a))
          else (s.matrixElement ew s.args.arg0 k).getLsbD (ew.bits - 1 - p) := by
  obtain ⟨hstart, hstop, hbw⟩ := startPass_range s .insert h.range.2 h.range.1
  obtain ⟨t, hrun, hdone, hmerged⟩ := insert_run h.wholePass rfl hsep
  rw [hstart, hstop, hbw] at hmerged
  exact ⟨t, hrun, hdone.accepting, hmerged⟩

end ReadyForPass

end WholePasses

/-- Settles O33: the extract puts the bits of the first matrix into the stream, and the insert merges them from there
into the second. -/
theorem roundTrip : Obligations.RoundTrip := by
  intro ew a b count words s m' hm ha _ hsch hadm hab hb hcount hwords hlen hzero hbuffer hmatrices
  obtain rfl : count = s.matrixCount ew := hcount
  obtain rfl : words = s.blockWords ew a b := hwords
  have h1 : ReadyForPass s ew a b :=
    ⟨ha, hsch, hadm, hm, ⟨hab, hb⟩, hlen, fun k hk c hc i hi hmem => (hbuffer k i c hk hi hmem).1 hc⟩
  obtain ⟨s2, hrun1, hdone, hstream, houtside⟩ := h1.extract hzero
  have hargs : s2.args = s.args := hdone.args
  have hplatform : s2.platform = s.platform := hdone.buffer.platform
  have hcount : (s2.withArg0 m').matrixCount ew = s.matrixCount ew := by
    rw [State.matrixCount, State.withArg0_args, hargs]
  have hcells (k : Nat) : (s2.withArg0 m').matrixCells ew m' k = s.matrixCells ew m' k :=
    matrixCells_congr hplatform ew m' k
  have helem (k : Nat) (hk : k < s.matrixCount ew) :
      (s2.withArg0 m').matrixElement ew m' k = s.matrixElement ew m' k :=
    matrixElement_congr hplatform fun c hc => houtside c fun i hi hmem => (hbuffer k i c hk hi hmem).2 hc
  have h2 : ReadyForPass (s2.withArg0 m') ew a b := by
    refine ⟨hdone.accepting, hdone.schedule.trans hsch, ?_, hdone.wf, ⟨hab, hb⟩, ?_,
      fun k hk c hc i hi hmem => ?_⟩
    · unfold State.allAdmitted
      rwa [State.withArg0_platform, hplatform]
    · rw [State.blockWords, hcount, State.withArg0_args, hargs]
      exact hlen
    · rw [State.blockWords, hcount] at hi
      rw [State.withArg0_args, hargs] at hmem
      exact (hbuffer k i c (hcount ▸ hk) hi hmem).2 (hcells k ▸ hc)
  obtain ⟨s4, hrun2, hacc, hmerged⟩ := h2.insert fun j k hj hk hne c hc hc' =>
    (hmatrices k j c (hcount ▸ hk) (hcount ▸ hj) (hcells j ▸ hc)).2 hne.symm (hcells k ▸ hc')
  refine ⟨_, s2, _, s4, exec_pass_inRange .extract ha ⟨hab, hb⟩, hrun1, hdone.accepting,
    exec_pass_inRange .insert h2.accepting ⟨hab, hb⟩, hcount ▸ hrun2, hacc, fun k p hk hp => ?_⟩
  have hbits := hmerged k p (hcount.symm ▸ hk) hp
  have hbase : ((s2.withArg0 m').startPass .insert ew a b).buf.base = s2.buf.base := by
    rw [hdone.buffer.base, State.startPass_buf, State.withArg0_args, hargs]
    rfl
  refine hbits.trans (if_ctx_congr Iff.rfl (fun hin => ?_) fun _ => congrArg (BitVec.getLsbD · _) (helem k hk))
  exact (streamBit_of_mem hbase rfl _).trans (hstream k p hk hin)

end Sys2Proof.Machine

/-! ## Proofs: acceptance and the control commands (spec/43_control.md)

What is dropped, what the RESET word does, and which words have the opcode of NOP and of RESET, each said once; then
what a step does to OVR, and that no command has a refusing branch. -/

namespace Sys2Proof

section ControlWords

variable {i : Instr} {w : Word}

/-! ### The words of a command without fields (R74, R76) -/

theorem fieldOpc_of_decode (h : decode w = some i) : fieldOpc w = i.fields.opc := by
  obtain ⟨hi, rfl⟩ := decode_eq_some_iff.1 h
  rw [encode_eq_word]
  exact congrArg Fields.opc (Fields.ofWord_word ((wellFormed_iff_fit i).1 hi))

theorem eq_nop_of_opc (h : i.fields.opc = 0x0) : i = .nop := by
  cases i with
  | nop => rfl
  | _ => simp [Instr.fields] at h

theorem eq_reset_of_opc (h : i.fields.opc = 0xF) : i = .reset := by
  cases i with
  | reset => rfl
  | _ => simp [Instr.fields] at h

/-- Of the words with an opcode that one command has to itself, only that command's encoding is legal. -/
theorem decode_eq_none_of_opc (hi : ∀ j : Instr, j.fields.opc = i.fields.opc → j = i) (ho : fieldOpc w = i.fields.opc)
    (hw : w ≠ encode i) : decode w = none := by
  refine Option.eq_none_iff_forall_ne_some.2 fun j hd => hw ?_
  obtain rfl := hi j ((fieldOpc_of_decode hd).symm.trans ho)
  exact (decodedWordIsItsEncoding w j hd).2.symm

end ControlWords

end Sys2Proof

namespace Sys2Proof.Machine

section Control

variable {s t : State} {i : Instr} {v : Word}

/-! ### A CMD write (R170, R171, R176) -/

theorem writeCmd_of_decode (h : decode v = some i) : writeCmd v s = exec i s := by
  simp only [writeCmd, h]

theorem exec_of_closed (hi : i ≠ .reset) (hc : s.status.busy = true ∨ s.status.fault = true) :
    exec i s = .next s.drop := by
  rw [exec_eq hi, whenAccepted_of_closed hc]

/-- Only the exact RESET word decodes to RESET, so every other word, legal or not, meets the acceptance test. -/
theorem writeCmd_of_closed (hv : v ≠ 0xF0000000#32) (hc : s.status.busy = true ∨ s.status.fault = true) :
    writeCmd v s = .next s.drop := by
  cases hd : decode v with
  | some i =>
    have hi : i ≠ .reset := by
      rintro rfl
      exact hv (decodedWordIsItsEncoding v _ hd).2.symm
    rw [writeCmd_of_decode hd, exec_of_closed hi hc]
  | none =>
    simp only [writeCmd, hd]
    exact whenAccepted_of_closed hc _

theorem writeCmd_reset (s : State) : writeCmd 0xF0000000#32 s = .next s.softReset :=
  writeCmd_of_decode (decodeOfEncode .reset trivial)

theorem writeCmd_nop (ha : s.accepting) : writeCmd 0x00000000#32 s = .next s :=
  (writeCmd_of_decode (decodeOfEncode .nop trivial)).trans (exec_of_ok (by simp) ha rfl)

/-- After a reset STATUS reads as EXH alone: `WC = CAP = 0` (R26, R30). -/
theorem statusWord_of_reset (hbuf : s.buf = Descriptor.reset) (hstatus : s.status = StatusBits.reset) :
    s.statusWord = 8#32 := by
  simp only [State.statusWord, State.exhausted, hbuf, hstatus]
  decide

/-! ### OVR (R171) -/

theorem Acts.ovr (h : Acts s i t) : t.status.ovr = s.status.ovr := by
  rcases h.status_cases with h | ⟨op, ew, a, b, -, -, rfl⟩
  · rw [h]
  · rfl

theorem microStep_ovr (h : microStep s = .next t) : t.status.ovr = s.status.ovr := by
  rcases microStep_registers h with ⟨-, h, -⟩ | h | ⟨f, n, rfl⟩
  · rw [h]
  · rw [h.status]; rfl
  · rfl

/-- Of what the host can do only the RESET command clears OVR. -/
theorem hostStep_ovr {h : HostStep} (hs : hostStep h s = .next t) (ho : s.status.ovr = true) :
    t.status.ovr = true ∨ t = s.softReset := by
  rcases hostStep_registers hs with ⟨-, -, v, -, -, hw⟩ | hsame
  · rcases writeCmd_cases hw with h | rfl | ⟨f, rfl⟩ | ⟨-, i, h⟩
    · exact .inr h
    · exact .inl rfl
    · exact .inl ho
    · exact .inl (h.ovr.trans ho)
  · exact .inl (hsame.status ▸ ho)

theorem step_ovr (ho : s.status.ovr = true) (h : step s = .next t) : t.status.ovr = true ∨ t.registersReset := by
  obtain ⟨u, rfl, rfl | ⟨hd, tl, -, hs⟩ | ⟨-, hm⟩ | rfl⟩ := step_next_cases h
  · exact .inl ho
  · rcases hostStep_ovr hs ho with h | rfl
    · exact .inl h
    · exact .inr ⟨rfl, rfl, rfl⟩
  · exact .inl ((microStep_ovr hm).trans ho)
  · exact .inr ⟨rfl, rfl, rfl⟩

/-! ### No refusal (R150, R170) -/

theorem settle_ne_refused (s : State) (a : Act State) (r : Refusal) : settle s a ≠ .refused r := by
  cases a <;> simp [settle]

theorem settlePass_ne_refused (s : State) (n : Nat) (a : Act State) (r : Refusal) : settlePass s n a ≠ .refused r := by
  cases a <;> simp [settlePass]

theorem exec_ne_refused (i : Instr) (s : State) (r : Refusal) : exec i s ≠ .refused r := by
  by_cases hi : i = .reset
  · simp [hi]
  · rcases accepting_or_closed s with ha | hc
    · rw [exec_eq hi, whenAccepted_of_accepting ha]
      exact settle_ne_refused s _ r
    · simp [exec_of_closed hi hc]

theorem microStep_ne_refused (s : State) (r : Refusal) : microStep s ≠ .refused r := by
  unfold microStep
  split <;> exact settlePass_ne_refused s _ _ r

theorem engineAct_ne_refused (s : State) (r : Refusal) : engineAct s ≠ .refused r := by
  cases hb : s.status.busy with
  | true =>
    rw [engineAct_of_busy hb]
    exact microStep_ne_refused s r
  | false => simp [engineAct_of_idle hb]

end Control

/-- Settles O7: a closed engine drops every word that is not RESET's, and what else a step does to STATUS keeps OVR
unless it is a reset. -/
theorem droppedWhileBusyOrFaulted : Obligations.DroppedWhileBusyOrFaulted :=
  ⟨fun _ _ hc hv => writeCmd_of_closed hv hc, fun _ _ => step_ovr⟩

/-- Settles O9: RESET has no acceptance test and leaves the engine idle; its word is the only legal one with its opcode,
and every other word is dropped in the fault state. -/
theorem resetCommand : Obligations.ResetCommand := by
  refine ⟨fun s => ?_, fun w ho hw => ?_, fun s t v hf h hv => ?_⟩
  · exact ⟨s.softReset, exec_reset s, writeCmd_reset s, rfl, statusWord_of_reset rfl rfl, engineAct_of_idle rfl⟩
  · exact decode_eq_none_of_opc (i := .reset) (fun _ => eq_reset_of_opc) (congrArg BitVec.toNat ho) hw
  · obtain rfl : s.drop = t := Host.Outcome.next.inj ((writeCmd_of_closed hv (.inr hf)).symm.trans h)
    exact hf

/-- Settles O8: an accepted NOP acts by doing nothing, a closed engine drops it, and its word is the only legal one with
its opcode. -/
theorem nopDoesNothing : Obligations.NopDoesNothing := by
  refine ⟨fun s ha => exec_of_ok (by simp) ha rfl, fun s hc => exec_of_closed (by simp) hc,
    decodeOfEncode .nop trivial, fun w ho hw => ?_, State.reset, writeCmd_nop ⟨rfl, rfl⟩, statusWord_of_reset rfl rfl⟩
  exact decode_eq_none_of_opc (i := .nop) (fun _ => eq_nop_of_opc) (congrArg BitVec.toNat ho) hw

/-- Settles O41: a command is dropped or settled and a micro-step is settled, and settling answers no refusal. -/
theorem noCommandIsRefused : Obligations.NoCommandIsRefused :=
  fun i s r => ⟨exec_ne_refused i s r, engineAct_ne_refused s r⟩

end Sys2Proof.Machine

/-! ## Proofs: faults (spec/60_exceptions.md)

What a host step leaves alone unless it writes CMD; then which steps raise a fault and what they leave (O34), and which
steps lead out of the fault state (O35). -/

namespace Sys2Proof.Machine

section Faults

variable {s t : State}

/-- A host step that is not a CMD write changes the ARGs, the memory, the host's program and what it has observed, and
nothing else (R24, R80). -/
theorem hostStep_frame {h : HostStep} (hs : hostStep h s = .next t) :
    (∃ addr n v, h = .regWrite addr n v ∧ regAccess s.platform addr n = some .cmd ∧ writeCmd v s = .next t) ∨
      t = { s with args := t.args, mem := t.mem, program := t.program, observed := t.observed } := by
  cases h with
  | regWrite addr n v =>
    simp only [hostStep] at hs
    split at hs
    · rename_i r hr
      rcases writeReg_next_cases hs with ⟨rfl, h⟩ | ⟨-, a, rfl⟩
      · exact .inl ⟨addr, n, v, rfl, hr, h⟩
      · exact .inr rfl
    · cases hs
  | regRead addr n =>
    simp only [hostStep] at hs
    split at hs <;> cases hs
    exact .inr rfl
  | memWrite32 | memWrite8 | memRead32 | memRead8 =>
    simp only [hostStep, memWrite32, memWrite8, memRead32, memRead8] at hs
    split at hs <;> cases hs
    exact .inr rfl
  | poll =>
    simp only [hostStep] at hs
    cases hs
    split <;> exact .inr rfl

/-! ### The steps that raise a fault (R180, R186, R187) -/

/-- Of the commands only an accepted one raises a fault, and then by its check: one that acts raises none. -/
theorem exec_raises {i : Instr} (h : exec i s = .next t) (h0 : s.status.fault = false) (h1 : t.status.fault = true) :
    s.status.busy = false ∧ ∃ f, t = s.takeFault f := by
  rcases exec_next_cases h with ⟨-, rfl⟩ | ⟨-, -, rfl⟩ | ⟨hi, ha, ⟨f, -, rfl⟩ | hact⟩
  · cases h1
  · exact absurd h1 (by simp [h0])
  · exact ⟨ha.1, f, rfl⟩
  · exact absurd h1 (by simp [(acts_of_commandAct hi hact).fault_eq_false h0])

theorem writeCmd_raises {v : Word} (h : writeCmd v s = .next t) (h0 : s.status.fault = false)
    (h1 : t.status.fault = true) : s.status.busy = false ∧ ∃ f, t = s.takeFault f := by
  rcases writeCmd_next_cases h with ⟨i, -, h⟩ | ⟨-, -, rfl⟩ | ⟨-, ha, rfl⟩
  · exact exec_raises h h0 h1
  · exact absurd h1 (by simp [h0])
  · exact ⟨ha.1, _, rfl⟩

theorem hostStep_raises {h : HostStep} (hs : hostStep h s = .next t) (h0 : s.status.fault = false)
    (h1 : t.status.fault = true) : s.status.busy = false ∧ ∃ f, t = s.takeFault f := by
  rcases hostStep_frame hs with ⟨-, -, v, -, -, hw⟩ | hframe
  · exact writeCmd_raises hw h0 h1
  · rw [hframe] at h1
    exact absurd h1 (by simp [h0])

/-- The index that a fault of the next micro-step records: the element's, or that of the completion (R187, log 13). -/
def State.faultIndex (s : State) : Nat := if s.pass.k < s.pass.count then s.pass.k else s.pass.count

theorem microStep_raises (h : microStep s = .next t) (h0 : s.status.fault = false) (h1 : t.status.fault = true) :
    ∃ f, t = s.takePassFault f s.faultIndex := by
  rcases microStep_core_cases h with ⟨x, n, u, -, -, hu, rfl⟩ | ⟨b, n, u, v, -, -, hu, -, hv, rfl⟩ |
    ⟨u, -, -, hu, rfl⟩ | ⟨-, -, rfl⟩ | hfault
  · exact absurd h1 (by simp [(extendCore_cursorOnly hu).status, h0])
  · rw [hv] at h1
    exact absurd h1 (by simp [(nextCore_cursorOnly hu).status, h0])
  · rw [fillCore_eq_setMem hu] at h1
    exact absurd h1 (by simp [h0])
  · exact absurd h1 (by simp [h0])
  · exact hfault

/-- A step that raises a fault writes STATUS and, in a micro-step, RESULT; it takes a turn, and a host step at most,
from what is still to be done. -/
theorem step_raises (h : step s = .next t) (h0 : s.status.fault = false) (h1 : t.status.fault = true) :
    ∃ f, t = { s.takeFault f with
      result := if s.status.busy then BitVec.ofNat 32 s.faultIndex else s.result
      program := t.program, schedule := t.schedule } := by
  obtain ⟨u, rfl, rfl | ⟨hd, tl, -, hs⟩ | ⟨hb, hm⟩ | rfl⟩ := step_next_cases h
  · exact absurd h1 (by simp [h0])
  · obtain ⟨hb, f, rfl⟩ := hostStep_raises hs h0 h1
    have hidle : s.status.busy = false := hb
    exact ⟨f, by rw [hidle]; rfl⟩
  · obtain ⟨f, rfl⟩ := microStep_raises hm h0 h1
    have hbusy : s.status.busy = true := hb
    exact ⟨f, by rw [hbusy]; rfl⟩
  · cases h1

theorem EngineFault.one_le_code (f : EngineFault) : 1 ≤ f.code.toNat := by cases f <;> decide

/-! ### The steps out of the fault state (R189, R190) -/

/-- `t` is in the fault state with the FCODE, the descriptor and the RESULT of `s`. -/
def StaysFaulted (s t : State) : Prop :=
  t.status.fault = true ∧ t.status.busy = false ∧ t.status.fcode = s.status.fcode ∧ t.buf = s.buf ∧ t.result = s.result

/-- The host's next step writes the RESET word to CMD. -/
def State.hostResets (s : State) : Prop :=
  ∃ addr n hs, s.program = .regWrite addr n 0xF0000000#32 :: hs ∧ regAccess s.platform addr n = some .cmd

theorem writeCmd_of_faulted {v : Word} (hf : s.status.fault = true) (h : writeCmd v s = .next t) :
    (v = 0xF0000000#32 ∧ t = s.softReset) ∨ t = s.drop := by
  by_cases hv : v = 0xF0000000#32
  · subst hv
    exact .inl ⟨rfl, Host.Outcome.next.inj (h.symm.trans (writeCmd_reset s))⟩
  · exact .inr (Host.Outcome.next.inj (h.symm.trans (writeCmd_of_closed hv (.inr hf))))

theorem hostStep_of_faulted {h : HostStep} (hf : s.status.fault = true) (hb : s.status.busy = false)
    (hs : hostStep h s = .next t) :
    StaysFaulted s t ∨ (t.registersReset ∧
      ∃ addr n, h = .regWrite addr n 0xF0000000#32 ∧ regAccess s.platform addr n = some .cmd) := by
  rcases hostStep_frame hs with ⟨addr, n, v, rfl, haccess, hw⟩ | hframe
  · rcases writeCmd_of_faulted hf hw with ⟨rfl, rfl⟩ | rfl
    · exact .inr ⟨⟨rfl, rfl, rfl⟩, addr, n, rfl, haccess⟩
    · exact .inl ⟨hf, hb, rfl, rfl, rfl⟩
  · rw [hframe]
    exact .inl ⟨hf, hb, rfl, rfl, rfl⟩

theorem hostAct_of_faulted (hf : s.status.fault = true) (hb : s.status.busy = false) (h : hostAct s = .next t) :
    StaysFaulted s t ∨ (t.registersReset ∧ s.hostResets) := by
  rcases hostAct_next_cases h with ⟨-, rfl⟩ | ⟨hd, tl, hp, hs⟩
  · exact .inl ⟨hf, hb, rfl, rfl, rfl⟩
  · refine (hostStep_of_faulted (s := s.setProgram tl) hf hb hs).imp_right fun ⟨hreset, addr, n, hcmd, haccess⟩ => ?_
    exact ⟨hreset, addr, n, tl, hcmd ▸ hp, haccess⟩

theorem step_of_hardReset {ts : List Turn} (hsch : s.schedule = .hardReset :: ts) :
    step s = .next (s.setSchedule ts).hardReset := by
  simp only [step, hsch, takeTurn]

/-- By whose turn it is: the engine is idle in the fault state, so only the host's RESET and a hardware reset lead out
of it. -/
theorem step_of_faulted (hf : s.status.fault = true) (hb : s.status.busy = false) (h : step s = .next t) :
    StaysFaulted s t ∨ (t.registersReset ∧ ((∃ ts, s.schedule = .hardReset :: ts) ∨
      ((s.schedule = [] ∨ ∃ ts, s.schedule = .host :: ts) ∧ s.hostResets))) := by
  cases hsch : s.schedule with
  | nil =>
    rw [step_of_unscheduled_idle hsch hb] at h
    exact (hostAct_of_faulted hf hb h).imp_right fun ⟨hreset, hcmd⟩ => ⟨hreset, .inr ⟨.inl rfl, hcmd⟩⟩
  | cons turn ts =>
    cases turn with
    | host =>
      rw [step_of_hostTurn hsch] at h
      rcases passIfStuck_next_cases h with h | ⟨-, rfl⟩
      · exact (hostAct_of_faulted (s := s.setSchedule ts) hf hb h).imp_right fun ⟨hreset, hcmd⟩ =>
          ⟨hreset, .inr ⟨.inr ⟨ts, rfl⟩, hcmd⟩⟩
      · exact .inl ⟨hf, hb, rfl, rfl, rfl⟩
    | engine =>
      obtain rfl := Host.Outcome.next.inj ((step_of_engineTurn_idle hsch hb).symm.trans h)
      exact .inl ⟨hf, hb, rfl, rfl, rfl⟩
    | hardReset =>
      obtain rfl := Host.Outcome.next.inj ((step_of_hardReset hsch).symm.trans h)
      exact .inr ⟨⟨rfl, rfl, rfl⟩, .inl ⟨ts, rfl⟩⟩

end Faults

/-- Settles O35: a CMD write is dropped in the fault state unless it is RESET's, and a step is the turn of the host, of an
idle engine, or a hardware reset. -/
theorem faultStateIsSticky : Obligations.FaultStateIsSticky :=
  ⟨fun _ _ hf hv => writeCmd_of_closed hv (.inr hf), fun s => ⟨s.softReset, writeCmd_reset s, rfl⟩,
    fun _ _ => step_of_faulted⟩

/-- Settles O34: the state that a faulting step leaves is written out, and its other fields are those before. -/
theorem faultsArePrecise : Obligations.FaultsArePrecise := by
  intro s t h h0 h1
  obtain ⟨f, ht⟩ := step_raises h h0 h1
  obtain ⟨-, hcode⟩ := f.code_range
  rw [ht]
  exact ⟨rfl, rfl, rfl, rfl, rfl, rfl, rfl, rfl, rfl, f.one_le_code, hcode, rfl⟩

end Sys2Proof.Machine

/-! ## Proofs: reset and hazards (spec/70_reset_and_hazards.md)

First the reset turn; then what is written once for every micro-step: the ARGs it does not read (R209), the requests
that alone can block it (R56), and so the length of a pass (R216); then the 8-bit passes whose matrix aliases the buffer
(R210), where a core's course is the same whatever value an aliased read gives. -/

namespace Sys2Proof.Machine

/-- Settles O10: the turn is `hardReset`, which is what RESET does with the ARGs set besides. -/
theorem hardwareReset : Obligations.HardwareReset := by
  refine ⟨fun s ts hsch => ?_, fun p => ⟨rfl, rfl, rfl, statusWord_of_reset rfl rfl⟩⟩
  exact ⟨_, step_of_hardReset hsch, rfl, rfl, rfl, rfl, statusWord_of_reset rfl rfl, rfl, engineAct_of_idle rfl,
    _, exec_reset _, rfl⟩

section MicroSteps

variable {s : State}

/-! ### The micro-step as one act (R150) -/

/-- What the next micro-step does, as a part of an atomic step. -/
def State.microAct (s : State) : Act State :=
  if s.pass.k < s.pass.count then
    match s.pass.op with
    | .extract => extractElement s
    | .insert => insertElement s
  else
    match s.pass.op with
    | .extract => extractCompletion s
    | .insert => insertCompletion s

theorem microStep_eq_settlePass (s : State) : microStep s = settlePass s s.faultIndex s.microAct := by
  unfold microStep State.faultIndex State.microAct
  split <;> rfl

/-! ### A micro-step reads no ARG (R209) -/

theorem extractElement_setArgs (s : State) (a : Args) :
    extractElement (s.setArgs a) = (extractElement s).map (·.setArgs a) := by
  unfold extractElement
  rw [show (s.setArgs a).elemAddr = s.elemAddr from rfl, State.setArgs_pass, readElement_setArgs]
  simp only [Act.bind_map, Act.map_bind, extendCore_setArgs, Act.map_ok]
  rfl

theorem insertElement_setArgs (s : State) (a : Args) :
    insertElement (s.setArgs a) = (insertElement s).map (·.setArgs a) := by
  unfold insertElement
  rw [show (s.setArgs a).elemAddr = s.elemAddr from rfl, State.setArgs_pass, nextCore_setArgs]
  simp only [Act.bind_map, Act.map_bind, readElement_setArgs, writeElement_setArgs, Act.map_ok]
  rfl

theorem extractCompletion_setArgs (s : State) (a : Args) :
    extractCompletion (s.setArgs a) = (extractCompletion s).map (·.setArgs a) := by
  unfold extractCompletion
  rw [State.setArgs_pass, fillCore_setArgs]
  simp only [Act.bind_map, Act.map_bind, Act.map_ok]
  rfl

theorem microAct_setArgs (s : State) (a : Args) : (s.setArgs a).microAct = s.microAct.map (·.setArgs a) := by
  unfold State.microAct
  rw [State.setArgs_pass]
  split <;> split
  · exact extractElement_setArgs s a
  · exact insertElement_setArgs s a
  · exact extractCompletion_setArgs s a
  · rfl

/-- The micro-step settles the same act whatever the ARGs hold. -/
theorem engineAct_setArgs (hb : s.status.busy = true) (a : Args) :
    engineAct (s.setArgs a) = settlePass (s.setArgs a) s.faultIndex (s.microAct.map (·.setArgs a)) := by
  rw [engineAct_of_busy (s := s.setArgs a) hb, microStep_eq_settlePass, microAct_setArgs]
  rfl

end MicroSteps

/-- Settles O31: a micro-step's act with other ARGs is its act, the ARGs replaced in what it answers. -/
theorem passIgnoresArgWrites : Obligations.PassIgnoresArgWrites := by
  refine ⟨fun s v => ⟨rfl, rfl, rfl, rfl, rfl, rfl, rfl⟩, fun s a hb => ?_⟩
  rw [engineAct_setArgs hb, engineAct_of_busy hb, microStep_eq_settlePass]
  cases s.microAct with
  | ok u => exact ⟨fun t ht => by cases ht; rfl, nofun⟩
  | raise f => exact ⟨fun t ht => by cases ht; rfl, nofun⟩
  | stuck p y k => exact ⟨nofun, fun r hr => by cases hr; rfl⟩

section PassLength

variable {α β : Type} {s t : State} {p : Config.Platform} {x : Act α}

/-! ### Only a request that is not admitted blocks a micro-step (R56) -/

/-- The request at which `x` is stuck, if it is, is not admitted by the platform. -/
def Act.BlockedOnlyBy (p : Config.Platform) (x : Act α) : Prop :=
  ∀ port a kind, x = .stuck port a kind → admits p port a kind = false

theorem blockedOnlyBy_ok (a : α) : (Act.ok a).BlockedOnlyBy p := nofun

theorem blockedOnlyBy_raise (f : EngineFault) : (Act.raise f : Act α).BlockedOnlyBy p := nofun

theorem Act.BlockedOnlyBy.bind {k : α → Act β} (hx : x.BlockedOnlyBy p)
    (hk : ∀ a, x = .ok a → (k a).BlockedOnlyBy p) : (x.bind k).BlockedOnlyBy p := by
  cases x with
  | ok a => exact hk a rfl
  | raise f => exact blockedOnlyBy_raise f
  | stuck port a kind =>
    intro port' a' kind' h
    cases h
    exact hx _ _ _ rfl

theorem blockedOnlyBy_ite {c : Prop} [Decidable c] {y : Act α} (hx : x.BlockedOnlyBy p) (hy : y.BlockedOnlyBy p) :
    (if c then x else y).BlockedOnlyBy p := by
  split
  · exact hx
  · exact hy

/-- A request, at the platform's port: it is answered, or it is stuck. -/
theorem blockedOnlyBy_request (p : Config.Platform) (port : Config.Port) (a : Word) (kind : Config.AccessKind) (v : α) :
    (if admits p port a kind then Act.ok v else .stuck port a kind).BlockedOnlyBy p := by
  intro port' a' kind' h
  split at h <;> cases h
  simpa using ‹¬ admits p port a kind = true›

theorem memRead32_blockedOnlyBy (s : State) (a : Word) : (memRead32 s a).BlockedOnlyBy s.platform :=
  blockedOnlyBy_request _ _ _ _ _

theorem memRead8_blockedOnlyBy (s : State) (a : Word) : (memRead8 s a).BlockedOnlyBy s.platform :=
  blockedOnlyBy_request _ _ _ _ _

theorem memWrite32_blockedOnlyBy (s : State) (a v : Word) : (memWrite32 s a v).BlockedOnlyBy s.platform :=
  blockedOnlyBy_request _ _ _ _ _

theorem memWrite8_blockedOnlyBy (s : State) (a : Word) (v : Byte) : (memWrite8 s a v).BlockedOnlyBy s.platform :=
  blockedOnlyBy_request _ _ _ _ _

theorem readBuffer_blockedOnlyBy (s : State) (a : Word) : (readBuffer s a).BlockedOnlyBy s.platform :=
  (memRead32_blockedOnlyBy s a).bind fun _ _ => blockedOnlyBy_ite (blockedOnlyBy_ok _) (blockedOnlyBy_ok _)

theorem readElement_blockedOnlyBy (s : State) (a : Word) : (readElement s a).BlockedOnlyBy s.platform := by
  unfold readElement
  cases s.pass.ew with
  | w32 => exact (memRead32_blockedOnlyBy s a).bind fun _ _ => blockedOnlyBy_ok _
  | w8 => exact (memRead8_blockedOnlyBy s a).bind fun _ _ => blockedOnlyBy_ite (blockedOnlyBy_ok _) (blockedOnlyBy_ok _)

theorem writeElement_blockedOnlyBy (s : State) (a v : Word) : (writeElement s a v).BlockedOnlyBy s.platform := by
  unfold writeElement
  cases s.pass.ew with
  | w32 => exact memWrite32_blockedOnlyBy s a v
  | w8 => exact memWrite8_blockedOnlyBy s a _

theorem memWrite32_platform {a v : Word} (h : memWrite32 s a v = .ok t) : t.platform = s.platform := by
  obtain ⟨-, rfl⟩ := memWrite32_eq_ok.1 h
  rfl

theorem requireZero_blockedOnlyBy (s : State) (i : Nat) : (requireZero s i).BlockedOnlyBy s.platform :=
  (memRead32_blockedOnlyBy s _).bind fun _ _ => blockedOnlyBy_ite (blockedOnlyBy_raise _) (blockedOnlyBy_ok _)

theorem extendFitting_blockedOnlyBy (y cw : Word) (s : State) : (extendFitting y cw s).BlockedOnlyBy s.platform :=
  (blockedOnlyBy_ite (requireZero_blockedOnlyBy s _) (blockedOnlyBy_ok _)).bind fun _ _ =>
    (memWrite32_blockedOnlyBy s _ _).bind fun _ _ => blockedOnlyBy_ok _

theorem extendStraddling_blockedOnlyBy (y cw : Word) (s : State) :
    (extendStraddling y cw s).BlockedOnlyBy s.platform :=
  blockedOnlyBy_ite (blockedOnlyBy_raise _) <| (memRead32_blockedOnlyBy s _).bind fun _ _ =>
    blockedOnlyBy_ite (blockedOnlyBy_raise _) <| (memWrite32_blockedOnlyBy s _ _).bind fun u hu =>
      (memWrite32_platform hu ▸ memWrite32_blockedOnlyBy u _ _).bind fun _ _ => blockedOnlyBy_ok _

theorem extendCore_blockedOnlyBy (y : Word) (s : State) : (extendCore y s).BlockedOnlyBy s.platform :=
  blockedOnlyBy_ite (blockedOnlyBy_raise _) <| (memRead32_blockedOnlyBy s _).bind fun _ _ =>
    blockedOnlyBy_ite (blockedOnlyBy_raise _) <|
      blockedOnlyBy_ite (extendFitting_blockedOnlyBy _ _ s) (extendStraddling_blockedOnlyBy _ _ s)

theorem nextCore_blockedOnlyBy (s : State) : (nextCore s).BlockedOnlyBy s.platform := by
  refine blockedOnlyBy_ite (blockedOnlyBy_raise _) <| (readBuffer_blockedOnlyBy s _).bind fun (cw, u) hu => ?_
  obtain ⟨-, ⟨n, rfl⟩, -⟩ := readBuffer_ok hu
  exact blockedOnlyBy_ite (blockedOnlyBy_ok _) <| blockedOnlyBy_ite (blockedOnlyBy_raise _) <|
    (readBuffer_blockedOnlyBy (s.setFreeCount n) _).bind fun _ _ => blockedOnlyBy_ok _

theorem fillCore_blockedOnlyBy (y : Word) (s : State) : (fillCore y s).BlockedOnlyBy s.platform :=
  blockedOnlyBy_ite
    (blockedOnlyBy_ite (blockedOnlyBy_raise _) <|
      (memRead32_blockedOnlyBy s _).bind fun _ _ => memWrite32_blockedOnlyBy s _ _)
    (blockedOnlyBy_ok _)

theorem extractElement_blockedOnlyBy (s : State) : (extractElement s).BlockedOnlyBy s.platform := by
  refine (readElement_blockedOnlyBy s _).bind fun (e, u) hu => ?_
  obtain ⟨⟨n, rfl⟩, -⟩ := readElement_ok hu
  exact (extendCore_blockedOnlyBy _ (s.setFreeCount n)).bind fun _ _ => blockedOnlyBy_ok _

theorem insertElement_blockedOnlyBy (s : State) : (insertElement s).BlockedOnlyBy s.platform := by
  refine (nextCore_blockedOnlyBy s).bind fun (b, u) hu => ?_
  have hplatform : u.platform = s.platform := by rw [nextCore_frame hu]; rfl
  refine (hplatform ▸ readElement_blockedOnlyBy u _).bind fun (e, v) hv => ?_
  obtain ⟨⟨n, rfl⟩, -⟩ := readElement_ok hv
  exact (hplatform ▸ writeElement_blockedOnlyBy (u.setFreeCount n) _ _).bind fun _ _ => blockedOnlyBy_ok _

theorem microAct_blockedOnlyBy (s : State) : s.microAct.BlockedOnlyBy s.platform := by
  unfold State.microAct
  split <;> split
  · exact extractElement_blockedOnlyBy s
  · exact insertElement_blockedOnlyBy s
  · exact (fillCore_blockedOnlyBy _ s).bind fun _ _ => blockedOnlyBy_ok _
  · exact blockedOnlyBy_ok _

/-- With every request admitted the engine has an enabled micro-step. -/
theorem microStep_enabled (h : s.allAdmitted) : ∃ t, microStep s = .next t := by
  rw [microStep_eq_settlePass]
  cases hact : s.microAct with
  | ok u => exact ⟨u, rfl⟩
  | raise f => exact ⟨_, rfl⟩
  | stuck port a kind => exact absurd (h port a kind) (by simp [microAct_blockedOnlyBy s _ _ _ hact])

/-! ### The length of a pass (R216) -/

/-- An element's micro-step keeps BUSY and advances K, unless it takes a fault. -/
theorem microStep_element_cases (hk : s.pass.k < s.pass.count) (h : microStep s = .next t) :
    t = { s.advanceK with buf := t.buf, mem := t.mem, freeCount := t.freeCount } ∨
      ∃ f, t = s.takePassFault f s.faultIndex := by
  rcases microStep_core_cases h with ⟨x, n, u, -, -, hu, rfl⟩ | ⟨b, n, u, v, -, -, hu, -, hv, rfl⟩ |
    ⟨-, hle, -⟩ | ⟨hle, -⟩ | hfault
  · left; rw [(extendCore_frame hu).1]; rfl
  · left; rw [hv, nextCore_frame hu]; rfl
  · omega
  · omega
  · exact .inr hfault

/-- The micro-step after the last element ends the pass. -/
theorem microStep_completion_busy (hk : s.pass.count ≤ s.pass.k) (h : microStep s = .next t) :
    t.status.busy = false := by
  rcases microStep_registers h with ⟨hlt, -⟩ | hsame | ⟨f, n, rfl⟩
  · omega
  · rw [hsame.status]; rfl
  · rfl

/-- A running pass that nothing but the engine's own faults can stop: nothing is scheduled, the host has nothing to do
and every request is admitted. -/
structure RunsAlone (s : State) : Prop where
  busy : s.status.busy = true
  program : s.program = []
  schedule : s.schedule = []
  admitted : s.allAdmitted

theorem RunsAlone.step_eq (hs : RunsAlone s) : ∃ t, microStep s = .next t ∧ step s = .next t := by
  obtain ⟨t, ht⟩ := microStep_enabled hs.admitted
  exact ⟨t, ht, step_of_microStep hs.schedule hs.busy ht⟩

/-- An idle machine with nothing to do stays as it is. -/
theorem run_idle (hsch : s.schedule = []) (hp : s.program = []) (hb : s.status.busy = false) (n : Nat) :
    Sys2Proof.core.run n s = .next s := by
  have hstep : step s = .next s := by rw [step_of_unscheduled_idle hsch hb, hostAct_of_done hp]
  induction n with
  | zero => rfl
  | succ n ih => rw [run_succ hstep, ih]

/-- By induction on the elements that are left. -/
theorem RunsAlone.ends (hs : RunsAlone s) {n : Nat} (hn : s.pass.count = s.pass.k + n) :
    ∃ t : State, Sys2Proof.core.run (n + 1) s = .next t ∧ t.status.busy = false ∧
      (t.status.fault = false → ∀ m, m ≤ n →
        ∃ u : State, Sys2Proof.core.run m s = .next u ∧ u.status.busy = true) := by
  induction n generalizing s with
  | zero =>
    obtain ⟨t, hmicro, hstep⟩ := hs.step_eq
    refine ⟨t, run_succ hstep, microStep_completion_busy hn.le hmicro, fun _ m hm => ⟨s, ?_, hs.busy⟩⟩
    rw [Nat.le_zero.1 hm]
    rfl
  | succ n ih =>
    obtain ⟨u, hmicro, hstep⟩ := hs.step_eq
    rw [run_succ hstep]
    rcases microStep_element_cases (by omega) hmicro with hu | ⟨f, rfl⟩
    · have hu' : RunsAlone u := by
        rw [hu]
        exact ⟨hs.busy, hs.program, hs.schedule, hs.admitted⟩
      have hn' : u.pass.count = u.pass.k + n := by
        rw [hu]
        exact hn.trans (by simp only [State.advanceK_pass]; omega)
      obtain ⟨t, hrun, hb, hexact⟩ := ih hu' hn'
      refine ⟨t, hrun, hb, fun hf m hm => ?_⟩
      cases m with
      | zero => exact ⟨s, rfl, hs.busy⟩
      | succ m =>
        rw [run_succ hstep]
        exact hexact hf m (by omega)
    · exact ⟨_, run_idle (s := s.takePassFault f _) hs.schedule hs.program rfl _, rfl, nofun⟩

end PassLength

/-- Settles O32: with every request admitted the engine always has an enabled micro-step, each of which leaves one
element less, ends the pass, or takes a fault. -/
theorem passEndsWithinBound : Obligations.PassEndsWithinBound :=
  fun _ hb _ hk hp hsch hadm => RunsAlone.ends ⟨hb, hp, hsch, hadm⟩ (by omega)

section Aliases

variable {s : State} {a w : Word} {l : Fin 4} {r : Config.AliasRun} {rs : List Config.AliasRun}

/-! ### Which locations are aliased (R55, R210) -/

/-- Offsets of addresses wrap around, so that every address has one below `2 ^ 32`. -/
theorem base_add_offset (a base : Word) : base + BitVec.ofNat 32 (a - base).toNat = a := by
  rw [BitVec.ofNat_toNat, BitVec.setWidth_eq, BitVec.add_comm, BitVec.sub_add_cancel]

theorem offset_toNat_le (base : Word) (n : Nat) : (base + BitVec.ofNat 32 n - base).toNat ≤ n := by
  rw [BitVec.add_comm, BitVec.add_sub_cancel, BitVec.toNat_ofNat]
  exact Nat.mod_le _ _

/-- The address at which a run names a word is found from the word (R55). -/
theorem runByte_of_runWord (h : runWord r a = some w) : runByte r w = a := by
  unfold runWord at h
  split at h
  · rename_i hin
    obtain ⟨hbyte, hmod, -⟩ := hin
    obtain rfl := Option.some.inj h
    have ha := a.isLt
    apply BitVec.eq_of_toNat_eq
    simp only [runByte, BitVec.toNat_ofNat]
    omega
  · cases h

/-- What names a word does so by one of the runs. -/
theorem exists_run_of_aliasOf (h : aliasOf rs a = some (w, l)) : ∃ r ∈ rs, runByte r w = a := by
  induction rs with
  | nil => cases h
  | cons r rs ih =>
    unfold aliasOf at h
    split at h
    · rename_i w' hr
      cases h
      exact ⟨r, List.mem_cons_self, runByte_of_runWord hr⟩
    · obtain ⟨r', hmem, hr'⟩ := ih h
      exact ⟨r', List.mem_cons_of_mem _ hmem, hr'⟩

/-- The written matrix bytes are the elements below K (log 5). -/
theorem wordAliasesWritten_iff :
    s.wordAliasesWritten w = true ↔
      ∃ k l, k < s.pass.k ∧ aliasOf s.platform.aliasRuns (s.elemAddr k) = some (w, l) := by
  simp only [State.wordAliasesWritten, List.any_eq_true, Bool.and_eq_true, decide_eq_true_eq]
  constructor
  · rintro ⟨r, -, hlt, halias⟩
    split at halias
    · rename_i w' l heq
      obtain rfl := of_decide_eq_true halias
      exact ⟨_, l, hlt, by rw [State.elemAddr, base_add_offset, heq]⟩
    · cases halias
  · rintro ⟨k, l, hk, halias⟩
    obtain ⟨r, hmem, hr⟩ := exists_run_of_aliasOf halias
    refine ⟨r, hmem, ?_, ?_⟩
    · rw [hr]
      exact (offset_toNat_le _ k).trans_lt hk
    · rw [hr, halias]
      exact decide_eq_true rfl

theorem byteAliasesBuffer_iff :
    s.byteAliasesBuffer a = true ↔
      ∃ i l, i < s.buf.cap.toNat ∧ aliasOf s.platform.aliasRuns a = some (s.bufAddr i, l) := by
  unfold State.byteAliasesBuffer
  constructor
  · intro h
    split at h
    · rename_i w l heq
      exact ⟨_, l, of_decide_eq_true h, by rw [State.bufAddr, base_add_offset, heq]⟩
    · cases h
  · rintro ⟨i, l, hi, halias⟩
    rw [halias]
    exact decide_eq_true ((offset_toNat_le _ i).trans_lt hi)

/-! ### An aliased read draws one free value (R210, I3) -/

theorem readElement_of_aliased (hew : s.pass.ew = .w8) (hal : s.byteAliasesBuffer a = true)
    (hadm : admits s.platform .byte a .read = true) :
    readElement s a =
      .ok ((Config.freeByte s.freeCount).setWidth 32, s.setFreeCount (s.freeCount + 1)) := by
  simp only [readElement, hew, memRead8_eq_ok.2 ⟨hadm, rfl⟩, Act.bind_ok, hal, if_true]

theorem readBuffer_of_aliased (hb : s.status.busy = true) (hop : s.pass.op = .insert) (hew : s.pass.ew = .w8)
    (hal : s.wordAliasesWritten a = true) (hadm : admits s.platform .word a .read = true) :
    readBuffer s a = .ok (Config.freeWord s.freeCount, s.setFreeCount (s.freeCount + 1)) := by
  simp only [readBuffer, memRead32_eq_ok.2 ⟨hadm, rfl⟩, Act.bind_ok, hb, hop, hew, hal, and_self, if_true]

end Aliases

/-- Settles O28: an aliased location is found from either of its names, and the value that its read gives is the next
free one. -/
theorem aliasedReadsCompleteWithAnyValue : Obligations.AliasedReadsCompleteWithAnyValue :=
  ⟨fun _ _ => wordAliasesWritten_iff, fun _ _ => byteAliasesBuffer_iff,
    fun _ _ hew hal hadm => ⟨_, readElement_of_aliased hew hal hadm⟩,
    fun _ _ hb hop hew hal hadm => ⟨_, readBuffer_of_aliased hb hop hew hal hadm⟩⟩

section AliasedSteps

variable {α β γ δ : Type} {R : α → β → Prop} {x : Act α} {y : Act β} {s u : State} {v : Word}

/-! ### Acts that take the same course -/

/-- Both acts go on, with answers that `R` relates, or both raise the same fault, or both are stuck at the same
request. -/
inductive Act.Agree (R : α → β → Prop) : Act α → Act β → Prop
  | ok {a : α} {b : β} (h : R a b) : Agree R (.ok a) (.ok b)
  | raise (f : EngineFault) : Agree R (.raise f) (.raise f)
  | stuck (port : Config.Port) (a : Word) (kind : Config.AccessKind) :
      Agree R (.stuck port a kind) (.stuck port a kind)

theorem Act.Agree.bind {Q : γ → δ → Prop} {k : α → Act γ} {k' : β → Act δ} (h : Act.Agree R x y)
    (hk : ∀ a b, R a b → Act.Agree Q (k a) (k' b)) : Act.Agree Q (x.bind k) (y.bind k') := by
  cases h with
  | ok hr => exact hk _ _ hr
  | raise f => exact .raise f
  | stuck port a kind => exact .stuck port a kind

/-- Two acts that agree are the two sides of one act that answers both. -/
theorem Act.Agree.exists_pair (h : Act.Agree R x y) :
    ∃ z : Act (α × β), z.map Prod.fst = x ∧ z.map Prod.snd = y ∧ ∀ r, z = .ok r → R r.1 r.2 := by
  cases h with
  | @ok a b hr => exact ⟨.ok (a, b), rfl, rfl, fun r hz => by cases hz; exact hr⟩
  | raise f => exact ⟨.raise f, rfl, rfl, nofun⟩
  | stuck port a kind => exact ⟨.stuck port a kind, rfl, rfl, nofun⟩

/-! ### NEXT_core, whatever value an aliased read gives (R130, R210) -/

/-- The states that two reads leave have one descriptor and one platform. -/
def SameCourse (r r' : Word × State) : Prop := r.2.buf = r'.2.buf ∧ r.2.platform = r'.2.platform

theorem readBuffer_agree (hbuf : s.buf = u.buf) (hp : s.platform = u.platform) (a : Word) :
    Act.Agree SameCourse (readBuffer s a) (readBuffer u a) := by
  by_cases hadm : admits s.platform .word a .read = true
  · have hs := memRead32_eq_ok.2 ⟨hadm, rfl⟩
    have hu := memRead32_eq_ok.2 ⟨hp ▸ hadm, rfl⟩
    simp only [readBuffer, hs, hu, Act.bind_ok]
    split <;> split <;> exact .ok ⟨hbuf, hp⟩
  · rw [Bool.not_eq_true] at hadm
    rw [readBuffer_of_unadmitted hadm, readBuffer_of_unadmitted (hp ▸ hadm)]
    exact .stuck _ _ _

/-- Whether NEXT_core goes on, and where to, is a matter of the descriptor and the platform alone. -/
theorem nextCore_agree (hbuf : s.buf = u.buf) (hp : s.platform = u.platform) :
    Act.Agree SameCourse (nextCore s) (nextCore u) := by
  have haddr : s.bufAddr = u.bufAddr := by funext i; rw [State.bufAddr, State.bufAddr, hbuf]
  have hcursor {t t' : State} (hbuf : t.buf = t'.buf) (hp : t.platform = t'.platform) (v v' : Word) (wc bo : Nat) :
      Act.Agree SameCourse (.ok (v, t.setCursor wc bo)) (.ok (v', t'.setCursor wc bo)) :=
    .ok ⟨by rw [State.setCursor_buf, hbuf]; rfl, hp⟩
  unfold nextCore
  rw [haddr, hbuf]
  dsimp only
  split
  · exact .raise _
  refine (readBuffer_agree hbuf hp _).bind fun (cw, t) (cw', t') ⟨hbuf', hp'⟩ => ?_
  split
  · split <;> exact hcursor hbuf' hp' _ _ _ _
  split
  · exact .raise _
  exact (readBuffer_agree hbuf' hp' _).bind fun _ _ ⟨hbuf'', hp''⟩ => hcursor hbuf'' hp'' _ _ _ _

/-! ### The micro-steps of an aliased element (R153, R157, R210) -/

theorem sliceElem_byte_eq_ofNat (b : Byte) {i j : Nat} (hj : j ≤ 8) :
    sliceElem .w8 (b.setWidth 32) i j = BitVec.ofNat 32 (b.toNat / 2 ^ (8 - j) % 2 ^ (j - i)) := by
  have hb : (b.setWidth 32).toNat % 2 ^ 8 = b.toNat := by rw [BitVec.toNat_setWidth]; omega
  rw [sliceElem_eq_ofNat .w8 _ hj, ElemWidth.bits, hb]

/-- An aliased element's extract is the EXTEND_core of a free byte's slice. -/
theorem extractElement_of_aliased (hew : s.pass.ew = .w8) (hal : s.byteAliasesBuffer (s.elemAddr s.pass.k) = true)
    (hadm : admits s.platform .byte (s.elemAddr s.pass.k) .read = true) :
    extractElement s =
      (extendCore (sliceElem .w8 ((Config.freeByte s.freeCount).setWidth 32) s.pass.start.toNat s.pass.stop.toNat)
        s).map fun t => (t.setFreeCount (s.freeCount + 1)).advanceK := by
  rw [extractElement, readElement_of_aliased hew hal hadm, Act.bind_ok]
  dsimp only
  rw [extendCore_setFreeCount, Act.bind_map, hew]
  rfl

/-- An admitted element is read, as itself where it is not aliased. -/
theorem readElement_answers {k : Nat} (h : s.admitsElement k .read) :
    ∃ e m, readElement s (s.elemAddr k) = .ok (e, s.setFreeCount m) ∧ (s.elementUnaliased k → e = s.element k) := by
  by_cases hal : s.elementUnaliased k
  · exact ⟨_, s.freeCount, readElement_of_admitted h hal, fun _ => rfl⟩
  · obtain ⟨hew, hne⟩ := Classical.not_imp.1 hal
    rw [Bool.not_eq_false] at hne
    exact ⟨_, _, readElement_of_aliased hew hne ((admitsElement_w8 hew).1 h), fun h => absurd h hal⟩

/-! What an insert does after NEXT_core, whose free values leave the element where it was. -/

theorem insertBlock_of_next_unreadable (hu : nextCore s = .ok (v, u)) (h : ¬ s.admitsElement s.pass.k .read) :
    s.insertBlock (v, u) = .stuck s.pass.ew.port (s.elemAddr s.pass.k) .read := by
  rw [nextCore_frame hu]
  exact insertBlock_of_unreadable (s := s.setFreeCount u.freeCount) h

theorem insertBlock_of_next_readable (hu : nextCore s = .ok (v, u)) (h : s.admitsElement s.pass.k .read) :
    ∃ e m, (s.elementUnaliased s.pass.k → e = s.element s.pass.k) ∧
      s.insertBlock (v, u) =
        (writeElement (u.setFreeCount m) (s.elemAddr s.pass.k)
          (mergeElem s.pass.ew e v s.pass.start.toNat s.pass.stop.toNat)).bind fun t => .ok t.advanceK := by
  rw [nextCore_frame hu]
  obtain ⟨e, m, hread, he⟩ := readElement_answers
    (s := (s.setFreeCount u.freeCount).setBuf { s.buf with wc := u.buf.wc, bo := u.buf.bo }) h
  exact ⟨e, m, he, congrArg (Act.bind · _) hread⟩

theorem insertBlock_of_next_unwritable (hu : nextCore s = .ok (v, u)) (hr : s.admitsElement s.pass.k .read)
    (hw : ¬ s.admitsElement s.pass.k .write) :
    s.insertBlock (v, u) = .stuck s.pass.ew.port (s.elemAddr s.pass.k) .write := by
  obtain ⟨e, m, -, hblock⟩ := insertBlock_of_next_readable hu hr
  rw [hblock, nextCore_frame hu]
  exact congrArg (Act.bind · _) (writeElement_of_unadmitted
    (s := ((s.setFreeCount u.freeCount).setBuf { s.buf with wc := u.buf.wc, bo := u.buf.bo }).setFreeCount m) hw _)

theorem insertBlock_of_next_writable (hu : nextCore s = .ok (v, u)) (hr : s.admitsElement s.pass.k .read)
    (hw : s.admitsElement s.pass.k .write) :
    ∃ e m, (s.elementUnaliased s.pass.k → e = s.element s.pass.k) ∧
      s.insertBlock (v, u) = .ok { s with
        buf := u.buf
        mem := s.memWithElement s.pass.k (mergeElem s.pass.ew e v s.pass.start.toNat s.pass.stop.toNat)
        pass := { s.pass with k := s.pass.k + 1 }
        freeCount := m } := by
  obtain ⟨e, m, he, hblock⟩ := insertBlock_of_next_readable hu hr
  refine ⟨e, m, he, ?_⟩
  rw [hblock, nextCore_frame hu]
  exact congrArg (Act.bind · _) (writeElement_of_admitted
    (s := ((s.setFreeCount u.freeCount).setBuf { s.buf with wc := u.buf.wc, bo := u.buf.bo }).setFreeCount m) hw _)

/-! ### Each micro-step beside its command -/

/-- The engine of `s` where it accepts a command, with these ARGs. -/
abbrev State.accepted (s : State) (a : Args) : State := s.over { s.status with busy := false, fault := false } a

theorem runSameCore_extract_aliased (hb : s.status.busy = true) (hop : s.pass.op = .extract) (hew : s.pass.ew = .w8)
    (hk : s.pass.k < s.pass.count) (hal : s.byteAliasesBuffer (s.elemAddr s.pass.k) = true)
    (hadm : admits s.platform .byte (s.elemAddr s.pass.k) .read = true) {y : Word}
    (hy : y = sliceElem .w8 ((Config.freeByte s.freeCount).setWidth 32) s.pass.start.toNat s.pass.stop.toNat) :
    RunSameCore (extendCore y s) .extend (s.accepted { s.args with arg0 := y })
      (fun t => t.over { s.status with busy := false, fault := false } { s.args with arg0 := y })
      s s.pass.k (fun t => .ok (t.setFreeCount (s.freeCount + 1)).advanceK) where
  command := exec_eq_settle_map (by simp) ⟨rfl, rfl⟩ (extendCore_over _ _ _ _)
  engine := by
    rw [engineAct_extractElement hb hop hk, extractElement_of_aliased hew hal hadm, hy]
    rfl
  faultless _ _ := rfl

/-- The two runs of NEXT_core side by side: they may read different values, but take the same course. -/
theorem runSameCore_insert (hb : s.status.busy = true) (hop : s.pass.op = .insert) (hk : s.pass.k < s.pass.count) :
    ∃ z : Act ((Word × State) × (Word × State)),
      (∀ r, z = .ok r → nextCore s = .ok r.1 ∧ r.1.2.buf = r.2.2.buf) ∧
        RunSameCore z .next (s.accepted s.args) (fun r => r.2.2.setResult r.2.1) s s.pass.k
          (fun r => s.insertBlock r.1) := by
  obtain ⟨z, hs, hc, hcourse⟩ := (nextCore_agree (s := s) (u := s.accepted s.args) rfl rfl).exists_pair
  refine ⟨z, fun r hr => ⟨by rw [← hs, hr, Act.map_ok], (hcourse r hr).1⟩, ?command, ?engine, fun r hr => ?faultless⟩
  case command =>
    refine exec_eq_settle_map (by simp) ⟨rfl, rfl⟩ ?_
    rw [commandAct, ← hc, Act.bind_map]
    rfl
  case engine => rw [engineAct_insertElement hb hop hk, insertElement_eq, ← hs, Act.bind_map]
  case faultless =>
    rw [hr] at hc
    exact congrArg StatusBits.fault (nextCore_cursorOnly hc.symm).status

end AliasedSteps

/-- Settles O29: an aliased extract runs the EXTEND_core of a free byte's slice, and an insert beside NEXT takes the same
course through NEXT_core, whatever either of them reads. -/
theorem aliasedElementSteps : Obligations.AliasedElementSteps := by
  refine ⟨fun s hb hop hew hk hlt hstop hal hadm => ⟨Config.freeByte s.freeCount, fun c hc => ?extract⟩,
    fun s c hm hb hop hew hk hlt hstop hc => ?insert⟩
  case extract =>
    subst hc
    have hrun := runSameCore_extract_aliased hb hop hew hk hal hadm (sliceElem_byte_eq_ofNat _ hstop).symm
    refine ⟨fun t ht hf => ?_, fun t => hrun.of_faulting, fun r => hrun.of_blocked⟩
    obtain ⟨u, hu, rfl, hact⟩ := hrun.of_faultless ht hf
    rw [hact, (extendCore_frame hu).1]
    rfl
  case insert =>
    subst hc
    obtain ⟨z, hz, hrun⟩ := runSameCore_insert hb hop hk
    have hread := admitsElement_w8 (k := s.pass.k) (kind := .read) hew
    have hwrite := admitsElement_w8 (k := s.pass.k) (kind := .write) hew
    refine ⟨fun t ht hf => ?blocked, fun t ht hf hr hw => ?written, fun t => hrun.of_faulting,
      fun r => hrun.of_blocked⟩
    case blocked =>
      obtain ⟨r, hr', -, hact⟩ := hrun.of_faultless ht hf
      obtain ⟨hu, -⟩ := hz r hr'
      refine ⟨fun hr => ?_, fun hr hw => ?_⟩
      · rw [hact, insertBlock_of_next_unreadable hu (by simp [hread, hr]), hew]
        rfl
      · rw [hact, insertBlock_of_next_unwritable hu (hread.2 hr) (by simp [hwrite, hw]), hew]
        rfl
    case written =>
      obtain ⟨⟨⟨v, u⟩, r'⟩, hr', rfl, hact⟩ := hrun.of_faultless ht hf
      obtain ⟨hu, hbuf⟩ := hz _ hr'
      obtain ⟨e, m, he, hblock⟩ := insertBlock_of_next_writable hu (hread.2 hr) (hwrite.2 hw)
      have hsame := memWithElement_sameMemoryExcept s s.pass.k
        (mergeElem s.pass.ew e v s.pass.start.toNat s.pass.stop.toNat)
      simp only [State.elementCells, State.matrixCells, hew] at hsame
      rw [hblock] at hact
      refine ⟨_, hact, by rw [hbuf]; rfl, hew ▸ hsame, fun hal p hp hout => ?_⟩
      have hbit := getMsbD_byteAt_of_merged hm hlt (by rw [hew]; exact hstop) hew v hp
      rw [if_neg hout, State.mergedElement, ← he fun _ => hal] at hbit
      exact hbit

end Sys2Proof.Machine
